-- ==== Sys2Proof/Word.lean ====
section
/-! DEFINITION. The word types of the core: bytes of the buffers and streams, and the 32-bit registers (10_state.md R30). -/

namespace Sys2Proof

/-- An unsigned byte: the element every memory and every stream is made of (40_pipeline.md R167). -/
abbrev Byte := BitVec 8

/-- A host-visible register: "Every register is 32 bits wide" (10_state.md R30). -/
abbrev Word := BitVec 32

end Sys2Proof
end

