-- ==== Sys2Proof/Machine/Chars.lean ====
section
/-! DEFINITION. Character classes of the ASCII85 and ASCIIHex units (43_ascii85.md R300, R305; 44_asciihex.md R342). -/

namespace Sys2Proof.Machine

/-- "Whitespace is exactly these six bytes": 0x09 to 0x0D and 0x20 (43_ascii85.md R300). -/
def isWhitespace (c : Byte) : Bool := (0x09 ≤ c.toNat && c.toNat ≤ 0x0D) || c.toNat == 0x20

/-- An ASCII85 digit: 0x21 (`!`) to 0x75 (`u`) (43_ascii85.md R305). -/
def isA85Digit (c : Byte) : Bool := 0x21 ≤ c.toNat && c.toNat ≤ 0x75

/-- A hex digit: `0`-`9`, `A`-`F`, `a`-`f` (44_asciihex.md R342). -/
def isHexDigit (c : Byte) : Bool :=
  (0x30 ≤ c.toNat && c.toNat ≤ 0x39) || (0x41 ≤ c.toNat && c.toNat ≤ 0x46) || (0x61 ≤ c.toNat && c.toNat ≤ 0x66)

/-- The value of a hex digit (44_asciihex.md R342). -/
def hexValue (c : Byte) : BitVec 4 :=
  if c.toNat ≤ 0x39 then BitVec.ofNat 4 (c.toNat - 0x30)
  else if c.toNat ≤ 0x46 then BitVec.ofNat 4 (c.toNat - 0x41 + 10)
  else BitVec.ofNat 4 (c.toNat - 0x61 + 10)

end Sys2Proof.Machine
end

