-- ==== Sys2Proof/Machine/Bits.lean ====
section
/-! DEFINITION. Bits of byte sequences and of words: the two bit orders of 00_scope.md R13, windows of a stream, and numbers from and to bits. -/

namespace Sys2Proof.Machine

/-- "LSB-first (deflate ...): bit k is bit `k mod 8` of byte `s[k div 8]`" (00_scope.md R13); `none` beyond the end. -/
def bitLsb (s : List Byte) (k : Nat) : Option Bool := (s[k / 8]?).map fun b => b.getLsbD (k % 8)

/-- "MSB-first (LZW ...): bit k of a byte sequence `s` is bit `7 - (k mod 8)` of byte `s[k div 8]`" (00_scope.md R13). -/
def bitMsb (s : List Byte) (k : Nat) : Option Bool := (s[k / 8]?).map fun b => b.getLsbD (7 - k % 8)

/-- The next `n` bits of `s` from bit `pos` on, LSB-first; fewer where the input ends before. -/
def windowLsb (s : List Byte) (pos : Nat) : Nat → List Bool
  | 0 => []
  | n + 1 =>
    match bitLsb s pos with
    | some b => b :: windowLsb s (pos + 1) n
    | none => []

/-- The next `n` bits of `s` from bit `pos` on, MSB-first; fewer where the input ends before. -/
def windowMsb (s : List Byte) (pos : Nat) : Nat → List Bool
  | 0 => []
  | n + 1 =>
    match bitMsb s pos with
    | some b => b :: windowMsb s (pos + 1) n
    | none => []

/-- The number whose least significant bit is the first of the list. -/
def natOfLsb : List Bool → Nat
  | [] => 0
  | b :: bs => b.toNat + 2 * natOfLsb bs

/-- The number whose most significant bit is the first of the list. -/
def natOfMsb (bs : List Bool) : Nat := natOfLsb bs.reverse

/-- The `n` low bits of `v`, least significant first. -/
def lsbBits : (n v : Nat) → List Bool
  | 0, _ => []
  | n + 1, v => v.testBit 0 :: lsbBits n (v / 2)

/-- The `n` low bits of `v`, most significant first. -/
def msbBits (n v : Nat) : List Bool := (lsbBits n v).reverse

/-- `getbits(n)` at bit `pos` (41_flate.md R195): "the first bit read is the least significant"; `none` where a bit at or
beyond `8*len(s)` would be read (R214). -/
def getBits (s : List Byte) (pos n : Nat) : Option Nat :=
  let w := windowLsb s pos n
  if w.length = n then some (natOfLsb w) else none

/-- `align()`: "rounds `pos` up to the next multiple of 8" (41_flate.md R195). -/
def alignPos (pos : Nat) : Nat := (pos + 7) / 8 * 8

/-- `be32(v)`: "the four bytes of `v`, most significant first" (00_scope.md R11). -/
def be32 (v : Nat) : List Byte :=
  [BitVec.ofNat 8 (v / 0x1000000), BitVec.ofNat 8 (v / 0x10000), BitVec.ofNat 8 (v / 0x100), BitVec.ofNat 8 v]

/-- The number that four bytes hold, most significant first. -/
def natOfBe32 : List Byte → Nat := fun bs => bs.foldl (fun n b => 256 * n + b.toNat) 0

end Sys2Proof.Machine
end

