-- ==== Sys2Proof/Syntax.lean ====
section
/-! DEFINITION. The instructions: one constructor per row of spec/opcode_table.json, with the operands its encoding holds; the prefix codes and the formats (30_encoding.md) that words are read in. -/

namespace Sys2Proof

/-- One instruction of the core: a command word, a stage descriptor, a `Predictor` value, a row's filter-type byte, or one
code of a stream. The constructors stand in the order of the opcode table. -/
inductive Instr where
  -- CMD: the word written to CMD (30_encoding.md R110, R111)
  | decode
  | flateEncode
  | rc4
  | illegalCommand (w : Word)
  -- STAGE: a stage descriptor, with the operands its unit reads (R112, R114); an absent parameter is `none` (10_state.md R45)
  | flate (predictor columns : Option Word)
  | ahx
  | lzw
  | a85
  | crypt
  | cryptNamed (cname ctype : Bool)
  | kindUnknown (kind : BitVec 8)
  -- PRED: the effective `Predictor` of a Flate stage (R115)
  | predNone
  | predPng10
  | predPng11
  | predPng12
  | predPng13
  | predPng14
  | predPng15
  | predUnsupported (value : Word)
  -- PNG_ROW: the filter-type byte of a row (R116)
  | pngNone
  | pngSub
  | pngUp
  | pngUnsupported (ft : Byte)
  -- LZW_CODE (R117)
  | lzwLiteral (b : Byte)
  | lzwClear
  | lzwStop
  | lzwDict (code : BitVec 12)
  | lzwSelf (code : BitVec 12)
  | lzwInvalid (code : BitVec 12)
  -- A85_CHAR (R118)
  | a85Begin
  | a85Digit (c : Byte)
  | a85Z
  | a85End
  | a85Ws (c : Byte)
  | a85Invalid (c : Byte)
  -- AHX_CHAR (R119)
  | ahxDigit (c : Byte)
  | ahxWs (c : Byte)
  | ahxEnd
  | ahxInvalid (c : Byte)
  -- ZLIB: a block header, BFINAL and BTYPE (R120)
  | zlibStored (bfinal : Bool)
  | zlibFixed (bfinal : Bool)
  | zlibDynamic (bfinal : Bool)
  | zlibReserved (bfinal : Bool)
  -- DEFLATE_SYM: a symbol of one of the three deflate alphabets (R121)
  | defLiteral (b : Byte)
  | defEob
  | defLength (sym : Nat)
  | defLenInvalid (sym : Nat)
  | defDist (sym : Nat)
  | defDistInvalid (sym : Nat)
  | defClLiteral (len : Nat)
  | defClRepeat
  | defClZero3
  | defClZero11
  deriving DecidableEq, Repr

/-- One symbol's code word: `len` bits whose value, first bit most significant, is `code` (41_flate.md R203). -/
structure CodeEntry where
  sym : Nat
  len : Nat
  code : Nat
  deriving DecidableEq, Repr

/-- A prefix code: the symbols that have a code, in symbol order. -/
abbrev PrefixCode := List CodeEntry

/-- The formats of 30_encoding.md. A format carries what a decoder "knows only from its own state" (R117, R118, R123): the
code width and `dict_length` of LZW, the position and the pending digits of ASCII85, the prefix code in force. -/
inductive Format where
  | cmd
  | stage
  | pred
  | pngRow
  /-- `width` is `code_width`, `dl` is `dict_length`, `afterClear` says that `previous` is CLEAR. -/
  | lzwCode (width dl : Nat) (afterClear : Bool)
  /-- `atStart`: the text index is 0. `pending`: at least one digit is pending. -/
  | a85Char (atStart pending : Bool)
  | ahxChar
  | zlibBlock
  | litLen (code : PrefixCode)
  | dist (code : PrefixCode)
  | codeLen (code : PrefixCode)
  deriving DecidableEq, Repr

end Sys2Proof
end

