-- ==== Sys2Proof/Machine/Huffman.lean ====
section
/-! DEFINITION. Canonical prefix codes of deflate: construction and acceptance (41_flate.md R203), the fixed codes (R201), the length and distance tables (R208, R209). -/

namespace Sys2Proof.Machine

/-- Which code is built: the acceptance of an incomplete code depends on it (41_flate.md R203). -/
inductive CodeKind where
  | codeLen
  | litLen
  | dist
  deriving DecidableEq, Repr

/-- `count[b]`: the number of symbols with length `b`, for b in 1..15; `count[0]` is 0 (41_flate.md R203). -/
def codeCount (lens : List Nat) (b : Nat) : Nat := if b = 0 then 0 else lens.count b

/-- `next[b]`, the first code of length `b`: "code <- (code + count[b-1]) * 2" (41_flate.md R203). -/
def firstCode (lens : List Nat) : Nat → Nat
  | 0 => 0
  | b + 1 => (firstCode lens b + codeCount lens b) * 2

/-- The assignment loop of 41_flate.md R203: symbols in order, each taking the next code of its length. `next` is indexed by
the length. -/
def assignCodes : (sym : Nat) → (next lens : List Nat) → PrefixCode
  | _, _, [] => []
  | sym, next, l :: ls =>
    if l = 0 then assignCodes (sym + 1) next ls
    else
      let c := next.getD l 0
      { sym := sym, len := l, code := c } :: assignCodes (sym + 1) (next.set l (c + 1)) ls

/-- The codes that RFC 1951 §3.2.2 assigns to a list of lengths (41_flate.md R203). -/
def canonicalCode (lens : List Nat) : PrefixCode :=
  assignCodes 0 ((List.range 16).map (firstCode lens)) lens

/-- The Kraft sum of 41_flate.md R203 times 2^15: the sum of 2^(15 - len) over the symbols with a length. -/
def kraftSum (lens : List Nat) : Nat := ((lens.filter (· ≠ 0)).map fun l => 2 ^ (15 - l)).sum

/-- The acceptance rules of 41_flate.md R203. Over-subscribed: never. Complete: always. Incomplete: a literal/length or
distance code with exactly one symbol, of length 1; and a distance code with no symbol at all. -/
def acceptsCode (kind : CodeKind) (lens : List Nat) : Bool :=
  let used := lens.filter (· ≠ 0)
  if kraftSum lens = 2 ^ 15 then true
  else if kraftSum lens > 2 ^ 15 then false
  else
    match kind with
    | .codeLen => false
    | .litLen => used == [1]
    | .dist => used == [1] || used == []

/-- `build_code(len[0..n), kind)` (41_flate.md R203); `none` is INFLATE_ERROR(0). -/
def buildCode (kind : CodeKind) (lens : List Nat) : Option PrefixCode :=
  if acceptsCode kind lens then some (canonicalCode lens) else none

/-- FIXED_LL (41_flate.md R201): lengths 8, 9, 7 and 8 over symbols 0-143, 144-255, 256-279 and 280-287. -/
def fixedLitLenLengths : List Nat :=
  List.replicate 144 8 ++ List.replicate 112 9 ++ List.replicate 24 7 ++ List.replicate 8 8

/-- FIXED_LL (41_flate.md R201). -/
def fixedLitLen : PrefixCode := canonicalCode fixedLitLenLengths

/-- FIXED_D: "symbols 0-31 all have length 5, and each code equals its symbol value" (41_flate.md R201). -/
def fixedDist : PrefixCode := canonicalCode (List.replicate 32 5)

/-- The code-length order ORDER (41_flate.md R202). -/
def codeLenOrder : List Nat := [16, 17, 18, 0, 8, 7, 9, 6, 10, 5, 11, 4, 12, 3, 13, 2, 14, 1, 15]

/-- BASE_L and EXTRA_L of the symbols 257 to 285 (41_flate.md R208). -/
def lengthTable : List (Nat × Nat) :=
  [(3, 0), (4, 0), (5, 0), (6, 0), (7, 0), (8, 0), (9, 0), (10, 0), (11, 1), (13, 1)] ++
  [(15, 1), (17, 1), (19, 2), (23, 2), (27, 2), (31, 2), (35, 3), (43, 3), (51, 3), (59, 3)] ++
  [(67, 4), (83, 4), (99, 4), (115, 4), (131, 5), (163, 5), (195, 5), (227, 5), (258, 0)]

/-- BASE_D and EXTRA_D of the symbols 0 to 29 (41_flate.md R209). -/
def distanceTable : List (Nat × Nat) :=
  [(1, 0), (2, 0), (3, 0), (4, 0), (5, 1), (7, 1), (9, 2), (13, 2), (17, 3), (25, 3)] ++
  [(33, 4), (49, 4), (65, 5), (97, 5), (129, 6), (193, 6), (257, 7), (385, 7), (513, 8), (769, 8)] ++
  [(1025, 9), (1537, 9), (2049, 10), (3073, 10), (4097, 11), (6145, 11), (8193, 12), (12289, 12), (16385, 13), (24577, 13)]

/-- The symbol whose code word has `len` bits and the value `code`, if any: "some symbol sym has len_T[sym] = l and
code_of_T[sym] = c" (41_flate.md R206). -/
def lookupCode (t : PrefixCode) (len code : Nat) : Option Nat :=
  (t.find? fun e => e.len = len && e.code = code).map CodeEntry.sym

/-- The code word of a symbol, if it has one. -/
def codeWord (t : PrefixCode) (sym : Nat) : Option CodeEntry := t.find? fun e => e.sym = sym

/-- Whether `t` can be read back: code words of 1 to 15 bits, each a number of that many bits, and none the prefix of
another; no symbol twice. A canonical code that is not over-subscribed is such a code. -/
def prefixFree (t : PrefixCode) : Prop :=
  (∀ e ∈ t, 1 ≤ e.len ∧ e.len ≤ 15 ∧ e.code < 2 ^ e.len) ∧
    t.Pairwise (fun e f => e.sym ≠ f.sym ∧
      (e.len ≤ f.len → f.code / 2 ^ (f.len - e.len) ≠ e.code) ∧ (f.len ≤ e.len → e.code / 2 ^ (e.len - f.len) ≠ f.code))

end Sys2Proof.Machine
end

