-- ==== Sys2Proof/WellFormed.lean ====
section
/-! DEFINITION. Which instructions are well formed (the operand ranges of opcode_table.json and 30_encoding.md R110-R121), and which a format can spell in its context. -/

namespace Sys2Proof

/-- The operand ranges the encodings give. A constructor without a line of its own has no range to check. -/
def Instr.wf : Instr → Bool
  | .illegalCommand w => w != 1 && w != 2 && w != 3
  | .cryptNamed cname ctype => cname || ctype
  | .kindUnknown k => k == 0 || 5 < k.toNat
  | .predUnsupported v => v != 1 && !(10 ≤ v.toNat && v.toNat ≤ 15)
  | .pngUnsupported ft => 3 ≤ ft.toNat
  | .lzwDict c => 258 ≤ c.toNat
  | .lzwSelf c => 258 ≤ c.toNat
  | .lzwInvalid c => 258 ≤ c.toNat
  | .a85Digit c => Machine.isA85Digit c
  | .a85Ws c => Machine.isWhitespace c
  | .a85Invalid c => !Machine.isWhitespace c && !Machine.isA85Digit c
  | .ahxDigit c => Machine.isHexDigit c
  | .ahxWs c => Machine.isWhitespace c
  | .ahxInvalid c => !Machine.isHexDigit c && !Machine.isWhitespace c && c != 0x3E
  | .defLength sym => 257 ≤ sym && sym ≤ 285
  | .defLenInvalid sym => sym == 286 || sym == 287
  | .defDist sym => sym ≤ 29
  | .defDistInvalid sym => sym == 30 || sym == 31
  | .defClLiteral len => len ≤ 15
  | .decode | .flateEncode | .rc4 | .flate _ _ | .ahx | .lzw | .a85 | .crypt => true
  | .predNone | .predPng10 | .predPng11 | .predPng12 | .predPng13 | .predPng14 | .predPng15 => true
  | .pngNone | .pngSub | .pngUp | .lzwLiteral _ | .lzwClear | .lzwStop => true
  | .a85Begin | .a85Z | .a85End | .ahxEnd => true
  | .zlibStored _ | .zlibFixed _ | .zlibDynamic _ | .zlibReserved _ => true
  | .defLiteral _ | .defEob | .defClRepeat | .defClZero3 | .defClZero11 => true

/-- The symbol an instruction of the DEFLATE_SYM format stands for (30_encoding.md R121). -/
def Instr.symbol : Instr → Option Nat
  | .defLiteral b => some b.toNat
  | .defEob => some 256
  | .defLength sym | .defLenInvalid sym | .defDist sym | .defDistInvalid sym => some sym
  | .defClLiteral len => some len
  | .defClRepeat => some 16
  | .defClZero3 => some 17
  | .defClZero11 => some 18
  | _ => none

/-- An LZW format whose context, `code_width`, `dict_length` and "CLEAR came just before", meets a condition; the widths are
9 to 12 (30_encoding.md R117). -/
def Format.lzwWith (f : Format) (p : (width dl : Nat) → (afterClear : Bool) → Prop) : Prop :=
  match f with
  | .lzwCode w dl afterClear => 9 ≤ w ∧ w ≤ 12 ∧ p w dl afterClear
  | _ => False

/-- An ASCII85 format whose context meets a condition. -/
def Format.a85With (f : Format) (p : (atStart pending : Bool) → Prop) : Prop :=
  match f with
  | .a85Char atStart pending => p atStart pending
  | _ => False

/-- The prefix code in force can be read back and has a code word for a symbol. -/
def PrefixCode.spells (t : PrefixCode) (sym : Nat) : Prop := Machine.prefixFree t ∧ (Machine.codeWord t sym).isSome

/-- A literal/length format with a code word for `sym`. -/
def Format.litLenWith (f : Format) (sym : Nat) : Prop :=
  match f with
  | .litLen t => t.spells sym
  | _ => False

/-- A distance format with a code word for `sym`. -/
def Format.distWith (f : Format) (sym : Nat) : Prop :=
  match f with
  | .dist t => t.spells sym
  | _ => False

/-- A code-length format with a code word for `sym`. -/
def Format.codeLenWith (f : Format) (sym : Nat) : Prop :=
  match f with
  | .codeLen t => t.spells sym
  | _ => False

/-- Whether a format, in the context it carries, has an encoding for an instruction. -/
def Format.spells (f : Format) : Instr → Prop
  | .decode | .flateEncode | .rc4 | .illegalCommand _ => f = .cmd
  | .flate _ _ | .ahx | .lzw | .a85 | .crypt | .cryptNamed _ _ | .kindUnknown _ => f = .stage
  | .predNone | .predPng10 | .predPng11 | .predPng12 | .predPng13 | .predPng14 | .predPng15 | .predUnsupported _ => f = .pred
  | .pngNone | .pngSub | .pngUp | .pngUnsupported _ => f = .pngRow
  | .lzwLiteral _ | .lzwClear | .lzwStop => f.lzwWith fun _ _ _ => True
  | .lzwDict c => f.lzwWith fun w dl _ => c.toNat < 2 ^ w ∧ c.toNat < dl
  | .lzwSelf c => f.lzwWith fun w dl afterClear => c.toNat < 2 ^ w ∧ c.toNat = dl ∧ afterClear = false
  | .lzwInvalid c => f.lzwWith fun w dl afterClear => c.toNat < 2 ^ w ∧ (dl < c.toNat ∨ (c.toNat = dl ∧ afterClear = true))
  | .a85Begin => f.a85With fun atStart _ => atStart = true
  | .a85Z => f.a85With fun _ pending => pending = false
  | .a85Invalid c => f.a85With fun _ pending => c ≠ 0x7A ∨ pending = true
  | .a85Digit _ | .a85End | .a85Ws _ => f.a85With fun _ _ => True
  | .ahxDigit _ | .ahxWs _ | .ahxEnd | .ahxInvalid _ => f = .ahxChar
  | .zlibStored _ | .zlibFixed _ | .zlibDynamic _ | .zlibReserved _ => f = .zlibBlock
  | .defLiteral b => f.litLenWith b.toNat
  | .defEob => f.litLenWith 256
  | .defLength n | .defLenInvalid n => f.litLenWith n
  | .defDist n | .defDistInvalid n => f.distWith n
  | .defClLiteral n => f.codeLenWith n
  | .defClRepeat => f.codeLenWith 16
  | .defClZero3 => f.codeLenWith 17
  | .defClZero11 => f.codeLenWith 18

end Sys2Proof
end

