-- ==== Sys2Proof/Decode.lean ====
section
/-! DEFINITION. The decoder: from the next bits of a stream, a descriptor or a command word to an instruction and its length in bits, total, with refusals by name; then the encoder, from the same tables (30_encoding.md R110-R121); then the probe of the opcode table. -/

namespace Sys2Proof

open Machine

/-- Why the decoder refuses a window. -/
inductive Reject where
  /-- The window ends inside the instruction: a stream that ends too soon (41_flate.md R214; 42_lzw.md R263). -/
  | truncated
  /-- Fifteen bits that no code word of the prefix code matches (41_flate.md R206). -/
  | noSymbol
  /-- A symbol outside the alphabet (30_encoding.md R121). No code that the core builds has one. -/
  | badSymbol
  deriving DecidableEq, Repr

/-- What a decoder answers: an instruction and how many bits it took, or a refusal by name. -/
abbrev Decoded := Except Reject (Instr × Nat)

/-- The command word: "DECODE is exactly 0x00000001, FLATE_ENCODE exactly 0x00000002 and RC4 exactly 0x00000003"; "every
other command word is illegal" (30_encoding.md R110, R111). -/
def decodeCmd (w : Word) : Instr :=
  if w = 1 then .decode
  else if w = 2 then .flateEncode
  else if w = 3 then .rc4
  else .illegalCommand w

/-- The four words of a stage descriptor, KIND, FLAGS, PREDICTOR, COLUMNS (30_encoding.md R112, R114; 10_state.md R43, R45,
R46). Reserved bits are not read (10_state.md R47). -/
def decodeStage (kindWord flags predictor columns : Word) : Instr :=
  let kind : BitVec 8 := kindWord.setWidth 8
  if kind = 1 then
    .flate (if flags.getLsbD 0 then some predictor else none) (if flags.getLsbD 1 then some columns else none)
  else if kind = 2 then .ahx
  else if kind = 3 then .lzw
  else if kind = 4 then .a85
  else if kind = 5 then
    if flags.getLsbD 2 || flags.getLsbD 3 then .cryptNamed (flags.getLsbD 2) (flags.getLsbD 3) else .crypt
  else .kindUnknown kind

/-- The effective `Predictor` value (30_encoding.md R115). -/
def decodePred (v : Word) : Instr :=
  if v = 1 then .predNone
  else if v = 10 then .predPng10
  else if v = 11 then .predPng11
  else if v = 12 then .predPng12
  else if v = 13 then .predPng13
  else if v = 14 then .predPng14
  else if v = 15 then .predPng15
  else .predUnsupported v

/-- The filter-type byte of a row (30_encoding.md R116). -/
def decodePngRow (ft : Byte) : Instr :=
  if ft = 0 then .pngNone
  else if ft = 1 then .pngSub
  else if ft = 2 then .pngUp
  else .pngUnsupported ft

/-- The class of an LZW code (30_encoding.md R117). `dl` is `dict_length`. -/
def decodeLzwCode (dl : Nat) (afterClear : Bool) (code : Nat) : Instr :=
  if code < 256 then .lzwLiteral (BitVec.ofNat 8 code)
  else if code = 256 then .lzwClear
  else if code = 257 then .lzwStop
  else if code < dl then .lzwDict (BitVec.ofNat 12 code)
  else if code = dl && !afterClear then .lzwSelf (BitVec.ofNat 12 code)
  else .lzwInvalid (BitVec.ofNat 12 code)

/-- The class of the ASCII85 text at one index, from its first byte and the byte after it, with the number of bits it takes
(30_encoding.md R118; 43_ascii85.md R300-R307). -/
def decodeA85Char (atStart pending : Bool) (c : Byte) (next : Option Byte) : Instr × Nat :=
  if isWhitespace c then (.a85Ws c, 8)
  else if atStart && c = 0x3C && next = some 0x7E then (.a85Begin, 16)
  else if c = 0x7E && next = some 0x3E then (.a85End, 16)
  else if c = 0x7A && !pending then (.a85Z, 8)
  else if isA85Digit c then (.a85Digit c, 8)
  else (.a85Invalid c, 8)

/-- The class of an ASCIIHex byte (30_encoding.md R119). -/
def decodeAhxChar (c : Byte) : Instr :=
  if c = 0x3E then .ahxEnd
  else if isWhitespace c then .ahxWs c
  else if isHexDigit c then .ahxDigit c
  else .ahxInvalid c

/-- A deflate block header: BFINAL, then BTYPE (30_encoding.md R120; 41_flate.md R199). -/
def decodeZlibBlock (bfinal : Bool) (btype : Nat) : Instr :=
  if btype = 0 then .zlibStored bfinal
  else if btype = 1 then .zlibFixed bfinal
  else if btype = 2 then .zlibDynamic bfinal
  else .zlibReserved bfinal

/-- The literal/length alphabet (30_encoding.md R121). -/
def classifyLitLen (sym : Nat) : Option Instr :=
  if sym < 256 then some (.defLiteral (BitVec.ofNat 8 sym))
  else if sym = 256 then some .defEob
  else if sym ≤ 285 then some (.defLength sym)
  else if sym ≤ 287 then some (.defLenInvalid sym)
  else none

/-- The distance alphabet (30_encoding.md R121). -/
def classifyDist (sym : Nat) : Option Instr :=
  if sym ≤ 29 then some (.defDist sym)
  else if sym ≤ 31 then some (.defDistInvalid sym)
  else none

/-- The code-length alphabet (30_encoding.md R121; 41_flate.md R204). -/
def classifyCodeLen (sym : Nat) : Option Instr :=
  if sym ≤ 15 then some (.defClLiteral sym)
  else if sym = 16 then some .defClRepeat
  else if sym = 17 then some .defClZero3
  else if sym = 18 then some .defClZero11
  else none

/-- `decode(T)` (41_flate.md R206): one bit at a time, most significant code bit first, until a symbol of length `len` has
the code read so far. `c` and `len` are what has been read already. -/
def walkCode (t : PrefixCode) : (c len : Nat) → List Bool → Except Reject (Nat × Nat)
  | _, len, [] => .error (if 15 ≤ len then .noSymbol else .truncated)
  | c, len, b :: bs =>
    let c' := 2 * c + b.toNat
    match lookupCode t (len + 1) c' with
    | some sym => .ok (sym, len + 1)
    | none => walkCode t c' (len + 1) bs

/-- A symbol of the prefix code `t` at the front of the window, with the length of its code word; at most 15 bits are
read (41_flate.md R206). -/
def readSymbol (t : PrefixCode) (bits : List Bool) : Except Reject (Nat × Nat) := walkCode t 0 0 (bits.take 15)

/-- A symbol of the window, classed by its alphabet. -/
def decodeSymbol (t : PrefixCode) (classify : Nat → Option Instr) (bits : List Bool) : Decoded :=
  match readSymbol t bits with
  | .ok (sym, len) =>
    match classify sym with
    | some i => .ok (i, len)
    | none => .error .badSymbol
  | .error r => .error r

/-- The decoder proper: the instruction at the front of a window of bits, in the order its unit reads them, and the number
of bits it takes. For ASCII85 and ASCIIHex the end of the input is the implicit terminator (R118, R119). -/
def decode (f : Format) (bits : List Bool) : Decoded :=
  match f with
  | .cmd => if bits.length < 32 then .error .truncated else .ok (decodeCmd (BitVec.ofNat 32 (natOfLsb (bits.take 32))), 32)
  | .stage =>
    if bits.length < 128 then .error .truncated
    else
      let word (k : Nat) : Word := BitVec.ofNat 32 (natOfLsb ((bits.drop (32 * k)).take 32))
      .ok (decodeStage (word 0) (word 1) (word 2) (word 3), 128)
  | .pred => if bits.length < 32 then .error .truncated else .ok (decodePred (BitVec.ofNat 32 (natOfLsb (bits.take 32))), 32)
  | .pngRow => if bits.length < 8 then .error .truncated else .ok (decodePngRow (BitVec.ofNat 8 (natOfLsb (bits.take 8))), 8)
  | .lzwCode width dl afterClear =>
    if bits.length < width then .error .truncated
    else .ok (decodeLzwCode dl afterClear (natOfMsb (bits.take width)), width)
  | .a85Char atStart pending =>
    if bits = [] then .ok (.a85End, 0)
    else if bits.length < 8 then .error .truncated
    else
      let next := if bits.length < 16 then none else some (BitVec.ofNat 8 (natOfLsb ((bits.drop 8).take 8)))
      .ok (decodeA85Char atStart pending (BitVec.ofNat 8 (natOfLsb (bits.take 8))) next)
  | .ahxChar =>
    if bits = [] then .ok (.ahxEnd, 0)
    else if bits.length < 8 then .error .truncated
    else .ok (decodeAhxChar (BitVec.ofNat 8 (natOfLsb (bits.take 8))), 8)
  | .zlibBlock =>
    match bits with
    | bfinal :: b0 :: b1 :: _ => .ok (decodeZlibBlock bfinal (natOfLsb [b0, b1]), 3)
    | _ => .error .truncated
  | .litLen t => decodeSymbol t classifyLitLen bits
  | .dist t => decodeSymbol t classifyDist bits
  | .codeLen t => decodeSymbol t classifyCodeLen bits

/-! ## The encoder -/

/-- A byte, least significant bit first. -/
def byteBits (b : Byte) : List Bool := lsbBits 8 b.toNat

/-- A 32-bit word, bit 0 first. -/
def wordBits (w : Word) : List Bool := lsbBits 32 w.toNat

/-- The four words of a descriptor (10_state.md R43): KIND, the FLAGS bits 0 to 3, PREDICTOR, COLUMNS. -/
def encodeStage (kind : BitVec 8) (predP colsP cnameP ctypeP : Bool) (predictor columns : Word) : List Bool :=
  wordBits (kind.setWidth 32) ++ lsbBits 32 (natOfLsb [predP, colsP, cnameP, ctypeP]) ++ wordBits predictor ++ wordBits columns

/-- The code word of a symbol, most significant code bit first (41_flate.md R195); nothing for a symbol without one. -/
def encodeSymbol (t : PrefixCode) (sym : Nat) : List Bool :=
  match codeWord t sym with
  | some e => msbBits e.len e.code
  | none => []

/-- A code of an LZW stream, most significant bit first (30_encoding.md R117). The code width comes from the format. -/
def encodeLzw (f : Format) (code : Nat) : List Bool :=
  match f with
  | .lzwCode width _ _ => msbBits width code
  | _ => []

/-- A symbol in the prefix code that the format carries. -/
def encodeDeflate (f : Format) (sym : Nat) : List Bool :=
  match f with
  | .litLen t | .dist t | .codeLen t => encodeSymbol t sym
  | _ => []

/-- The encoder: the bits of a well-formed instruction in a format that spells it, in the order the unit reads them
(30_encoding.md R110-R121). -/
def encode (f : Format) : Instr → List Bool
  | .decode => wordBits 1
  | .flateEncode => wordBits 2
  | .rc4 => wordBits 3
  | .illegalCommand w => wordBits w
  | .flate p c => encodeStage 1 p.isSome c.isSome false false (p.getD 0) (c.getD 0)
  | .ahx => encodeStage 2 false false false false 0 0
  | .lzw => encodeStage 3 false false false false 0 0
  | .a85 => encodeStage 4 false false false false 0 0
  | .crypt => encodeStage 5 false false false false 0 0
  | .cryptNamed cname ctype => encodeStage 5 false false cname ctype 0 0
  | .kindUnknown kind => encodeStage kind false false false false 0 0
  | .predNone => wordBits 1
  | .predPng10 => wordBits 10
  | .predPng11 => wordBits 11
  | .predPng12 => wordBits 12
  | .predPng13 => wordBits 13
  | .predPng14 => wordBits 14
  | .predPng15 => wordBits 15
  | .predUnsupported v => wordBits v
  | .pngNone => byteBits 0
  | .pngSub => byteBits 1
  | .pngUp => byteBits 2
  | .pngUnsupported ft => byteBits ft
  | .lzwLiteral b => encodeLzw f b.toNat
  | .lzwClear => encodeLzw f 256
  | .lzwStop => encodeLzw f 257
  | .lzwDict c => encodeLzw f c.toNat
  | .lzwSelf c => encodeLzw f c.toNat
  | .lzwInvalid c => encodeLzw f c.toNat
  | .a85Begin => byteBits 0x3C ++ byteBits 0x7E
  | .a85Digit c => byteBits c
  | .a85Z => byteBits 0x7A
  | .a85End => byteBits 0x7E ++ byteBits 0x3E
  | .a85Ws c => byteBits c
  | .a85Invalid c => byteBits c
  | .ahxDigit c => byteBits c
  | .ahxWs c => byteBits c
  | .ahxEnd => byteBits 0x3E
  | .ahxInvalid c => byteBits c
  | .zlibStored bfinal => [bfinal, false, false]
  | .zlibFixed bfinal => [bfinal, true, false]
  | .zlibDynamic bfinal => [bfinal, false, true]
  | .zlibReserved bfinal => [bfinal, true, true]
  | .defLiteral b => encodeDeflate f b.toNat
  | .defEob => encodeDeflate f 256
  | .defLength sym => encodeDeflate f sym
  | .defLenInvalid sym => encodeDeflate f sym
  | .defDist sym => encodeDeflate f sym
  | .defDistInvalid sym => encodeDeflate f sym
  | .defClLiteral len => encodeDeflate f len
  | .defClRepeat => encodeDeflate f 16
  | .defClZero3 => encodeDeflate f 17
  | .defClZero11 => encodeDeflate f 18

/-! ## The probe of the opcode table -/

/-- DESIGN CHOICE (assumption log 7; safe): the format in which a bare table word is read. Several formats of the table give
meanings to the same word; the first row of the table with exactly these fixed bits decides, and where no row has them, the
first catch-all row of that width: ILLEGAL_COMMAND for 32 bits, KIND_UNKNOWN for 8. -/
def tableFormat (nbits w : Nat) : Option Format :=
  if nbits = 32 then some (if 10 ≤ w && w ≤ 15 then .pred else .cmd)
  else if nbits = 16 then some (.a85Char true false)
  else if nbits = 8 then
    some (if w = 0 then .pngRow else if w = 0x3E then .ahxChar else .stage)
  else none

/-- The bits of a table word as the format lays them out: the word's own, then zeros up to the format's full length. -/
def tableBits (f : Format) (nbits w : Nat) : List Bool :=
  match f with
  | .stage => lsbBits 128 (w % 2 ^ nbits)
  | _ => lsbBits nbits w

/-- The instruction that the decoder reads from an instruction word of the opcode table. -/
def decodeTableWord (nbits w : Nat) : Option Instr :=
  match tableFormat nbits w with
  | some f =>
    match decode f (tableBits f nbits w) with
    | .ok (i, _) => some i
    | .error _ => none
  | none => none

end Sys2Proof
end

