-- ==== Sys2Proof/Config.lean ====
section
/-! DEFINITION. What an implementation fixes (00_scope.md R7), and the free values: constants without a body, of which nothing can be proved. -/

namespace Sys2Proof

/-- The parameters "left open by the source" (00_scope.md R7). They stand in State as plain data, so that every statement
holds for every value (assumption log 3). -/
structure Params where
  /-- `BASE`, the platform address of the aperture. -/
  base : Nat
  /-- `IN_CAP`, the size of IN_BUF. -/
  inCap : Nat
  /-- `OUT_CAP`, the size of OUT_BUF and the limit on every stage output. -/
  outCap : Nat
  /-- `STAGE_MAX`, the number of implemented stage descriptors. -/
  stageMax : Nat
  deriving DecidableEq, Repr

/-- The legal values of 00_scope.md R7: `BASE` "any address aligned to 4 MiB", the capacities "1 to 1048576",
`STAGE_MAX` "1 to 16". -/
abbrev Params.wf (p : Params) : Prop :=
  p.base % 0x400000 = 0 ∧ (1 ≤ p.inCap ∧ p.inCap ≤ 1048576) ∧ (1 ≤ p.outCap ∧ p.outCap ≤ 1048576) ∧
    (1 ≤ p.stageMax ∧ p.stageMax ≤ 16)

/-- The defaults of 00_scope.md R7. `BASE` is OPEN there; DESIGN CHOICE 0 (assumption log 3; unsafe only for a claim about
platform addresses at reset). -/
def Params.default : Params := { base := 0, inCap := 65536, outCap := 65536, stageMax := 8 }

/-- DESIGN CHOICE (assumption log 4; safe): the byte that is drawn, at draw `n`, for the aperture offset `a` of a buffer
byte that nothing has written: "returns any value: a model draws it freely" (10_state.md R62; 20_memory.md R92). -/
opaque Config.freeByte : (n a : Nat) → Byte

/-- DESIGN CHOICE (assumption log 5; safe): an arbitrary function from byte sequences to byte sequences. The encoder
`DEFLATE_ENC` (41_flate.md R230) is this function wherever it meets the round trip that R230 asks for. -/
opaque Config.freeEncoder : List Byte → List Byte

end Sys2Proof
end

