-- ==== Sys2Proof/Machine/State.lean ====
section
/-! DEFINITION. The state of the core as plain data: registers, buffers, sequencer, the running unit's working state, and the queue of what the outside world does; its reset value; the faults and refusals of `exec`. -/

namespace Sys2Proof.Machine

/-- Why an instruction has no effect and the machine stops. -/
inductive Fault where
  /-- Raised by the meaning of a command, descriptor, row or stream code that is handed to `exec` while the unit that reads
  such codes is not running. No rule gives that an effect, and `step` never does it (assumption log 9). Safe. -/
  | unitNotRunning
  deriving DecidableEq, Repr

/-- Why an instruction has no meaning. -/
inductive Refusal where
  /-- Raised by an arm of `exec` for an instruction without a meaning yet. No arm raises it. Safe. -/
  | notModelled (mnemonic : String)
  deriving DecidableEq, Repr

/-- The error codes of 60_exceptions.md R380, without NONE. -/
inductive ErrCode where
  | unsupportedFilter
  | unsupportedPredictor
  | unsupportedPngFilter
  | truncatedLzwStream
  | invalidA85Char
  | invalidA85Group
  | invalidHexDigitCount
  | illegalCommand
  | invalidParam
  | inflateError
  | predictorRowLength
  | invalidLzwCode
  | lzwDictFull
  | invalidHexChar
  | capacityExceeded
  deriving DecidableEq, Repr

/-- A command's result (40_pipeline.md, introduction). `stage` is `none` for an error that belongs to no stage (60_exceptions.md R381). -/
inductive Result where
  | ok (out : List Byte)
  | err (code : ErrCode) (stage : Option Nat) (info : Word)
  deriving DecidableEq, Repr

/-- A stage descriptor: the implemented fields of its four registers (10_state.md R43). -/
structure Desc where
  kind : BitVec 8
  predP : Bool
  colsP : Bool
  cnameP : Bool
  ctypeP : Bool
  predictor : Word
  columns : Word
  deriving DecidableEq, Repr

/-- "All four reset to 0" (10_state.md R43). -/
def Desc.zero : Desc :=
  { kind := 0, predP := false, colsP := false, cnameP := false, ctypeP := false, predictor := 0, columns := 0 }

/-- Where the inflate unit stands inside a stream (41_flate.md R196-R206). -/
inductive InflateMode where
  /-- At a block header: BFINAL and BTYPE come next. -/
  | header
  /-- In the code-length sequence of a dynamic block: the code-length code, HLIT, HDIST, and the lengths read so far. -/
  | codeLens (cl : PrefixCode) (hlit hdist : Nat) (lens : List Nat)
  /-- At a literal/length symbol. -/
  | symbols
  /-- At the distance symbol of a copy of `len` bytes. -/
  | distance (len : Nat)
  /-- After the final block: the trailer comes next. -/
  | trailer
  deriving DecidableEq, Repr

/-- Inflate working state (10_state.md R51), with the stage's effective parameters (R45), which the predictor reads next. -/
structure InflateState where
  pos : Nat
  bfinal : Bool
  btype : BitVec 2
  litLen : PrefixCode
  dist : PrefixCode
  mode : InflateMode
  out : List Byte
  adlerA : Nat
  adlerB : Nat
  predictor : Word
  columns : Option Word
  deriving DecidableEq, Repr

/-- A Flate stage whose data is inflated and whose `Predictor` comes next (41_flate.md R190). -/
structure PredictState where
  x : List Byte
  predictor : Word
  columns : Option Word
  deriving DecidableEq, Repr

/-- Predictor working state (10_state.md R52): the inflated data, `Columns`, the row index, the previous reconstructed row. -/
structure PngState where
  x : List Byte
  cols : Nat
  r : Nat
  prev : List Byte
  out : List Byte
  deriving DecidableEq, Repr

/-- LZW working state (10_state.md R53). `dict` holds `dict[0]`, `dict[1]`, ... in order; `previous` is `none` for CLEAR;
`pos` is the bit cursor `cur`. -/
structure LzwState where
  dict : List (List Byte)
  dl : Nat
  w : Nat
  previous : Option (BitVec 12)
  pos : Nat
  out : List Byte
  deriving DecidableEq, Repr

/-- ASCII85 working state (10_state.md R54): the text `t`, the index `i`, the pending digits, the output. -/
structure A85State where
  t : List Byte
  i : Nat
  group : List Nat
  out : List Byte
  deriving DecidableEq, Repr

/-- ASCIIHex working state (10_state.md R55). -/
structure AhxState where
  i : Nat
  pend : Option (BitVec 4)
  out : List Byte
  deriving DecidableEq, Repr

/-- RC4 working state (10_state.md R56): the permutation, the two 8-bit indices; the key, the data and the output; and how
many of the 256 steps of the key schedule are done. -/
structure Rc4State where
  key : List Byte
  data : List Byte
  perm : List Byte
  i : BitVec 8
  j : BitVec 8
  scheduled : Nat
  out : List Byte
  deriving DecidableEq, Repr

/-- The sequencer's phase (10_state.md R50). -/
inductive Phase where
  | idle
  | run
  deriving DecidableEq, Repr

/-- How far the running command has come, with the working state of the unit that runs. -/
inductive Work where
  /-- No command runs: "No working state ... exists" (10_state.md R63). -/
  | none
  /-- The latched command word is to be dispatched (40_pipeline.md R150). -/
  | command
  /-- DECODE validates descriptor `j` next (40_pipeline.md R151, R159). -/
  | validate (j : Nat)
  /-- DECODE dispatches stage `k` next (40_pipeline.md R155). -/
  | stage
  | inflate (st : InflateState)
  | predict (st : PredictState)
  | png (st : PngState)
  | lzw (st : LzwState)
  | a85 (st : A85State)
  | ahx (st : AhxState)
  | rc4 (st : Rc4State)
  /-- The result is known and the completion step comes next (40_pipeline.md R152). -/
  | finish (r : Result)
  deriving DecidableEq, Repr

/-- The widths of a host access in bytes: "Widths other than 1, 2 and 4 do not exist on the port" (20_memory.md R83). -/
inductive Width where
  | w1
  | w2
  | w4
  deriving DecidableEq, Repr

/-- A host access at a platform address (20_memory.md R80, R83). Of `v` only the low bytes that the width names count. -/
inductive Access where
  | read (addr : Nat) (n : Width)
  | write (addr : Nat) (n : Width) (v : Word)
  deriving DecidableEq, Repr

/-- What happens next from outside: a host access, a turn of the Core, a reset (20_memory.md R93, R96; 70_reset_and_hazards.md R420). -/
inductive Event where
  | access (a : Access)
  | core
  | reset
  deriving DecidableEq, Repr

/-- The response to a host access: OKAY, with data for a read, or BUS_ERROR (20_memory.md R83). -/
inductive Response where
  | okayRead (v : Word)
  | okayWrite
  | busError
  deriving DecidableEq, Repr

/-- The bytes of the buffers that have been written, by aperture offset, strictly rising. -/
abbrev Memory := List Host.Cell

/-- The whole state. ID and VERSION are constants, STATUS.ERROR and `irq` are computed (10_state.md R31, R34, R49). -/
structure State where
  /-- IN_CAP_R, OUT_CAP_R, STAGE_MAX_R, hardwired (10_state.md R32), and `BASE`. -/
  params : Params
  /-- CTRL.IRQ_EN (10_state.md R33). -/
  irqEn : Bool
  /-- STATUS.BUSY (10_state.md R34). -/
  busy : Bool
  /-- STATUS.DONE (10_state.md R34). -/
  done : Bool
  inLen : Word
  outLen : Word
  keyLen : Word
  nstages : Word
  /-- ERR_CODE bits 7:0 (10_state.md R40). -/
  errCode : BitVec 8
  errStage : Word
  errInfo : Word
  /-- The descriptors 0 to STAGE_MAX - 1 (10_state.md R43). -/
  stages : List Desc
  /-- KEY_BUF, IN_BUF and OUT_BUF (10_state.md R60). -/
  mem : Memory
  phase : Phase
  op : Word
  k : Nat
  cur : List Byte
  work : Work
  /-- The model's own: what the outside world does next, oldest first. -/
  inputs : List Event
  /-- The model's own: the response to the last host access. -/
  resp : Option Response
  /-- The model's own: the number of the next draw of free bytes. -/
  draw : Nat
  deriving DecidableEq, Repr

/-- The machine right after reset (10_state.md R30, R61-R63; 70_reset_and_hazards.md R420). The parameters are the defaults of
00_scope.md R7 (assumption log 3); `draw` is 0, a DESIGN CHOICE (log 4). -/
def State.reset : State where
  params := Params.default
  irqEn := false
  busy := false
  done := false
  inLen := 0
  outLen := 0
  keyLen := 0
  nstages := 0
  errCode := 0
  errStage := 0
  errInfo := 0
  stages := List.replicate Params.default.stageMax Desc.zero
  mem := []
  phase := .idle
  op := 0
  k := 0
  cur := []
  work := .none
  inputs := []
  resp := none
  draw := 0

end Sys2Proof.Machine
end

