-- ==== Sys2Proof/Machine/Ops.lean ====
section
/-! DEFINITION. The shared operations: the memory, the windows of the aperture, the command's start, raising an error, completion and acknowledgement. -/

namespace Sys2Proof.Machine

/-! ## Memory -/

/-- The canonical form: addresses strictly rising. An unlisted address holds no written byte, so no entry can equal what it
reads as (assumption log 4). -/
abbrev Memory.wf (m : Memory) : Prop := m.Pairwise fun x y => x.1 < y.1

/-- The byte last written at an offset, if any since reset. -/
def Memory.get : Memory → Nat → Option Byte
  | [], _ => none
  | (k, v) :: m, a => if k = a then some v else Memory.get m a

/-- Write one byte, keeping the offsets strictly rising. -/
def Memory.set : Memory → Nat → Byte → Memory
  | [], a, b => [(a, b)]
  | (k, v) :: m, a, b =>
    if a < k then (a, b) :: (k, v) :: m
    else if a = k then (a, b) :: m
    else (k, v) :: Memory.set m a b

/-- Write bytes at consecutive offsets. -/
def Memory.setBytes (m : Memory) (a : Nat) : List Byte → Memory
  | [] => m
  | b :: bs => Memory.setBytes (Memory.set m a b) (a + 1) bs

/-! ## The windows of the aperture (20_memory.md R80) -/

/-- The first offset of KEY_BUF. -/
abbrev keyBase : Nat := 0x001000

/-- The first offset of IN_BUF. -/
abbrev inBase : Nat := 0x100000

/-- The first offset of OUT_BUF. No window lies above it. -/
abbrev outBase : Nat := 0x200000

/-- The bytes of consecutive offsets from `a` on, as cells. -/
def cellsFrom (a : Nat) : List Byte → Memory
  | [] => []
  | b :: bs => (a, b) :: cellsFrom (a + 1) bs

/-- OUT_BUF holds unspecified bytes: nothing is listed in it (20_memory.md R91, R92; 70_reset_and_hazards.md R427, R428). -/
def Memory.clearOut (m : Memory) : Memory := m.filter fun c => c.1 < outBase

/-- OUT_BUF[0..len(s)) holds `s`, and its other bytes are unspecified (40_pipeline.md R152; 70_reset_and_hazards.md R427). -/
def Memory.storeOut (m : Memory) (s : List Byte) : Memory := Memory.clearOut m ++ cellsFrom outBase s

/-- One buffer byte as it is read now: the byte last written, else a free byte of the present draw (10_state.md R62). -/
def State.byteAt (s : State) (a : Nat) : Byte := (s.mem.get a).getD (Config.freeByte s.draw a)

/-- `n` buffer bytes from offset `a` on. -/
def State.bytesAt (s : State) (a n : Nat) : List Byte := (List.range n).map fun i => s.byteAt (a + i)

/-- `IN[0..IN_LEN)` (20_memory.md R91). -/
def State.readIn (s : State) : List Byte := s.bytesAt inBase s.inLen.toNat

/-- `KEY[0..KEY_LEN)` (20_memory.md R91). -/
def State.readKey (s : State) : List Byte := s.bytesAt keyBase s.keyLen.toNat

/-! ## Errors and completion -/

/-- The code of an error (60_exceptions.md R380). -/
def ErrCode.toByte : ErrCode → BitVec 8
  | .unsupportedFilter => 0x01
  | .unsupportedPredictor => 0x02
  | .unsupportedPngFilter => 0x03
  | .truncatedLzwStream => 0x04
  | .invalidA85Char => 0x05
  | .invalidA85Group => 0x06
  | .invalidHexDigitCount => 0x07
  | .illegalCommand => 0x10
  | .invalidParam => 0x11
  | .inflateError => 0x12
  | .predictorRowLength => 0x13
  | .invalidLzwCode => 0x14
  | .lzwDictFull => 0x15
  | .invalidHexChar => 0x16
  | .capacityExceeded => 0x17

/-- ERR_STAGE: the stage's index, or 0xFFFFFFFF for an error that belongs to no stage (10_state.md R41; 60_exceptions.md R381). -/
def errStageWord : Option Nat → Word
  | some k => BitVec.ofNat 32 k
  | none => 0xFFFFFFFF

/-- The command's working state becomes `w`; nothing else changes. -/
def State.withWork (s : State) (w : Work) : State := { s with work := w }

/-- `raise E(info)` (00_scope.md R15): "ends the running unit and the running command at once". The completion step then
records the error (60_exceptions.md R383, R390). -/
def State.raise (s : State) (stage : Option Nat) (e : ErrCode) (info : Word) : State := s.withWork (.finish (.err e stage info))

/-- An error inside a stage belongs to stage `k` (40_pipeline.md, introduction). -/
def State.raiseStage (s : State) (e : ErrCode) (info : Word) : State := s.raise (some s.k) e info

/-- An error outside any stage (60_exceptions.md R381). -/
def State.raiseCommand (s : State) (e : ErrCode) (info : Word) : State := s.raise none e info

/-- `return Ok(out)`: the result is known (40_pipeline.md R151). -/
def State.finishOk (s : State) (out : List Byte) : State := s.withWork (.finish (.ok out))

/-- A stage's unit has returned `out`: the capacity check of 40_pipeline.md R156, then the next stage (R151). "Each stage that
completes without error advances" k "by 1" (10_state.md R50). -/
def State.endStage (s : State) (out : List Byte) : State :=
  if out.length > s.params.outCap then s.raiseStage .capacityExceeded 0
  else { s with cur := out, k := s.k + 1, work := .stage }

/-- Command start: an accepted write of `w` to CMD (40_pipeline.md R150). OUT_BUF becomes unspecified (70_reset_and_hazards.md R428). -/
def State.startCommand (s : State) (w : Word) : State :=
  { s with
    done := false
    outLen := 0
    errCode := 0
    errStage := 0
    errInfo := 0
    busy := true
    phase := .run
    op := w
    work := .command
    mem := s.mem.clearOut }

/-- The end of a command's working state (10_state.md R57): BUSY falls, DONE rises, the phase is IDLE (40_pipeline.md R152). -/
def State.endCommand (s : State) : State :=
  { s with busy := false, done := true, phase := .idle, op := 0, k := 0, cur := [], work := .none }

/-- The completion step (40_pipeline.md R152): taking the error, or delivering the result, in one step. -/
def State.complete (s : State) : Result → State
  | .ok out => { s.endCommand with mem := s.mem.storeOut out, outLen := BitVec.ofNat 32 out.length }
  | .err e stage info =>
    { s.endCommand with errCode := e.toByte, errStage := errStageWord stage, errInfo := info }

/-- The return from a completion: "The host acknowledges a completion by writing 1 to STATUS bit 1 ... Nothing is restored"
(60_exceptions.md R391); a write of `v` to STATUS clears DONE when `v[1] = 1` (10_state.md R34). -/
def State.acknowledge (s : State) (v : Word) : State := if v.getLsbD 1 then { s with done := false } else s

/-- Reset (70_reset_and_hazards.md R420, R421): every field at its reset value; the hardwired parameters and what the outside
world does next stay; the unspecified bytes are drawn afresh (assumption log 19). -/
def State.powerReset (s : State) : State :=
  { State.reset with
    params := s.params
    stages := List.replicate s.params.stageMax Desc.zero
    inputs := s.inputs
    draw := s.draw + 1 }

/-! ## Units -/

/-- The outcome of one step of a unit: it goes on, returns its output, or raises an error (00_scope.md R15). -/
inductive UnitStep (σ : Type) where
  | more (st : σ)
  | done (out : List Byte)
  | fail (e : ErrCode) (info : Word)
  deriving DecidableEq, Repr

/-- A step of the running stage unit, put into the state: `wrap` says which unit goes on. -/
def State.settle {σ : Type} (s : State) (wrap : σ → Work) : UnitStep σ → State
  | .more st => s.withWork (wrap st)
  | .done out => s.endStage out
  | .fail e info => s.raiseStage e info

end Sys2Proof.Machine
end

