-- ==== Sys2Proof/Machine/Operands.lean ====
section
/-! DEFINITION. Operand assembly: a descriptor's words and its effective parameters (30_encoding.md R114; 10_state.md R43, R45), and the bits each unit reads next. -/

namespace Sys2Proof.Machine

/-- Descriptor `k`; a descriptor nobody has is all zero, and no chain reaches it (10_state.md R43, R44). -/
def State.desc (s : State) (k : Nat) : Desc := s.stages.getD k Desc.zero

/-- The FLAGS register as it reads (10_state.md R43). -/
def Desc.flagsWord (d : Desc) : Word := BitVec.ofNat 32 (natOfLsb [d.predP, d.colsP, d.cnameP, d.ctypeP])

/-- The KIND register as it reads (10_state.md R43). -/
def Desc.kindWord (d : Desc) : Word := d.kind.setWidth 32

/-- The four words of a descriptor, bit 0 of KIND first (30_encoding.md R112). -/
def Desc.bits (d : Desc) : List Bool :=
  wordBits d.kindWord ++ wordBits d.flagsWord ++ wordBits d.predictor ++ wordBits d.columns

/-- The effective `Predictor`: its default is 1 (10_state.md R45). -/
def effectivePredictor (p : Option Word) : Word := p.getD 1

end Sys2Proof.Machine
end

