-- ==== Sys2Proof/Machine/Inflate.lean ====
section
/-! DEFINITION. The inflate unit (41_flate.md R195-R216): one step per block header, code-length symbol, literal/length symbol and distance symbol, with the trailer; then the meanings of the ZLIB and DEFLATE_SYM instructions. -/

namespace Sys2Proof.Machine

/-! ## Adler-32, copies, tables -/

/-- One byte of Adler-32: "a <- (a + d[t]) mod 65521 ; b <- (b + a) mod 65521" (41_flate.md R212). -/
def adlerUpdate (ab : Nat × Nat) (x : Byte) : Nat × Nat :=
  let a := (ab.1 + x.toNat) % 65521
  (a, (ab.2 + a) % 65521)

/-- `adler32(d)` (41_flate.md R212). -/
def adler32 (d : List Byte) : Nat :=
  let ab := d.foldl adlerUpdate (1, 0)
  ab.2 * 65536 + ab.1

/-- `copy(n, d)` without its check: `out` with `n` times the byte `d` back appended, byte by byte (41_flate.md R210). -/
def copyBack (d : Nat) : (n : Nat) → List Byte → List Byte
  | 0, out => out
  | n + 1, out => copyBack d n (out ++ [out.getD (out.length - d) 0])

/-- `length_of(sym)` at bit `pos`, with the cursor after its extra bits (41_flate.md R208). -/
def lengthOf (inp : List Byte) (pos sym : Nat) : Option (Nat × Nat) :=
  if sym < 257 then none
  else
    match lengthTable[sym - 257]? with
    | some (base, extra) => (getBits inp pos extra).map fun x => (base + x, pos + extra)
    | none => none

/-- `distance_of(dsym)` at bit `pos`, with the cursor after its extra bits (41_flate.md R209). -/
def distanceOf (inp : List Byte) (pos dsym : Nat) : Option (Nat × Nat) :=
  match distanceTable[dsym]? with
  | some (base, extra) => (getBits inp pos extra).map fun x => (base + x, pos + extra)
  | none => none

/-- `n` whole bytes of the input from byte `at` on, all of them or none. -/
def takeBytes (inp : List Byte) (at_ n : Nat) : Option (List Byte) :=
  let bs := (inp.drop at_).take n
  if bs.length = n then some bs else none

/-- A stored block from its header on (41_flate.md R200): the bytes it holds and the cursor after them. After `align` every
`getbits(8)` is a whole byte of the input. -/
def storedBlock (inp : List Byte) (pos : Nat) : Option (List Byte × Nat) :=
  let p := alignPos pos
  match getBits inp p 16, getBits inp (p + 16) 16 with
  | some len, some nlen =>
    if len ≠ nlen ^^^ 0xFFFF then none
    else (takeBytes inp ((p + 32) / 8) len).map fun bs => (bs, p + 32 + 8 * len)
  | _, _ => none

/-- The loop `for t in 0..HCLEN: cl[ORDER[t]] <- getbits(3)` over the remaining order (41_flate.md R202). -/
def readCodeLenLengths (inp : List Byte) : (pos : Nat) → (order cl : List Nat) → Option (List Nat)
  | _, [], cl => some cl
  | pos, o :: os, cl =>
    match getBits inp pos 3 with
    | some v => readCodeLenLengths inp (pos + 3) os (cl.set o v)
    | none => none

/-- What the header of a dynamic block gives: the code-length code, HLIT, HDIST, and the cursor after it (41_flate.md R202). -/
structure DynamicHeader where
  cl : PrefixCode
  hlit : Nat
  hdist : Nat
  pos : Nat
  deriving DecidableEq, Repr

/-- `dynamic_header()` up to the code-length code (41_flate.md R202, R203). -/
def dynamicHeader (inp : List Byte) (pos : Nat) : Option DynamicHeader :=
  match getBits inp pos 5, getBits inp (pos + 5) 5, getBits inp (pos + 10) 4 with
  | some l, some d, some c =>
    let hlit := l + 257
    let hdist := d + 1
    let hclen := c + 4
    if hlit > 286 || hdist > 30 then none
    else
      match readCodeLenLengths inp (pos + 14) (codeLenOrder.take hclen) (List.replicate 19 0) with
      | some cl => (buildCode .codeLen cl).map fun t => { cl := t, hlit := hlit, hdist := hdist, pos := pos + 14 + 3 * hclen }
      | none => none
  | _, _, _ => none

/-- The two codes of a dynamic block from its lengths (41_flate.md R202, R203), with the end-of-block check before them (R205). -/
def dynamicCodes (hlit hdist : Nat) (lens : List Nat) : Option (PrefixCode × PrefixCode) :=
  if lens.getD 256 0 = 0 then none
  else
    match buildCode .litLen (lens.take hlit), buildCode .dist ((lens.drop hlit).take hdist) with
    | some ll, some d => some (ll, d)
    | _, _ => none

/-- "if len(L) > total: raise INFLATE_ERROR(0)" after an append (41_flate.md R204). -/
def appendLengths (total : Nat) (lens new : List Nat) : Option (List Nat) :=
  if (lens ++ new).length > total then none else some (lens ++ new)

/-- The zlib header checks of 41_flate.md R197, R198, on CMF and FLG. -/
def zlibHeaderOk (cmf flg : Byte) : Bool :=
  (cmf.toNat * 256 + flg.toNat) % 31 == 0 && cmf.toNat % 16 == 8 && cmf.toNat / 16 ≤ 7 && !flg.getLsbD 5

/-- The trailer (41_flate.md R211): the cursor aligned, the next four bytes, most significant first. -/
def trailerValue (inp : List Byte) (pos : Nat) : Option Nat := (takeBytes inp (alignPos pos / 8) 4).map natOfBe32

/-! ## The unit's steps -/

/-- The start of INFLATE: at least two bytes, the header checks, and the cursor at bit 16 (41_flate.md R196); `none` is
INFLATE_ERROR(0) here and below (R215). -/
def inflateStart (inp : List Byte) (predictor : Word) (columns : Option Word) : Option InflateState :=
  match inp with
  | cmf :: flg :: _ =>
    if zlibHeaderOk cmf flg then
      some
        { pos := 16, bfinal := false, btype := 0, litLen := [], dist := [], mode := .header, out := [],
          adlerA := 1, adlerB := 0, predictor := predictor, columns := columns }
    else none
  | _ => none

/-- Append to `out`, with the Adler-32 sums (10_state.md R51). -/
def InflateState.emit (st : InflateState) (bs : List Byte) : InflateState :=
  let ab := bs.foldl adlerUpdate (st.adlerA, st.adlerB)
  { st with out := st.out ++ bs, adlerA := ab.1, adlerB := ab.2 }

/-- The end of a block: another header, or the trailer after the block with BFINAL = 1 (41_flate.md R196, R199). -/
def InflateState.endBlock (st : InflateState) : InflateState :=
  { st with mode := if st.bfinal then .trailer else .header }

/-- BTYPE 0 (41_flate.md R200). -/
def InflateState.stored (inp : List Byte) (bfinal : Bool) (st : InflateState) : Option InflateState :=
  (storedBlock inp st.pos).map fun r => ({ st with pos := r.2, bfinal := bfinal, btype := 0 }.emit r.1).endBlock

/-- BTYPE 1 (41_flate.md R201). -/
def InflateState.fixed (bfinal : Bool) (st : InflateState) : InflateState :=
  { st with bfinal := bfinal, btype := 1, litLen := fixedLitLen, dist := fixedDist, mode := .symbols }

/-- BTYPE 2 up to the code-length sequence (41_flate.md R202). -/
def InflateState.dynamic (inp : List Byte) (bfinal : Bool) (st : InflateState) : Option InflateState :=
  (dynamicHeader inp st.pos).map fun h =>
    { st with pos := h.pos, bfinal := bfinal, btype := 2, mode := .codeLens h.cl h.hlit h.hdist [] }

/-- Lengths appended to the code-length sequence (41_flate.md R204). -/
def InflateState.lengths (st : InflateState) (new : List Nat → List Nat) : Option InflateState :=
  match st.mode with
  | .codeLens cl hlit hdist lens =>
    (appendLengths (hlit + hdist) lens (new lens)).map fun l => { st with mode := .codeLens cl hlit hdist l }
  | _ => none

/-- A repeat of the code-length alphabet: `base + getbits(extra)` times a length that `value` picks from the lengths so far
(41_flate.md R204). -/
def InflateState.repeatLength (inp : List Byte) (base extra : Nat) (value : List Nat → Option Nat) (st : InflateState) :
    Option InflateState :=
  match st.mode with
  | .codeLens _ _ _ lens =>
    match value lens, getBits inp st.pos extra with
    | some v, some x => { st with pos := st.pos + extra }.lengths fun _ => List.replicate (base + x) v
    | _, _ => none
  | _ => none

/-- The end of the code-length sequence: the block's two codes (41_flate.md R202, R205). -/
def InflateState.buildCodes (st : InflateState) : Option InflateState :=
  match st.mode with
  | .codeLens _ hlit hdist lens =>
    (dynamicCodes hlit hdist lens).map fun c => { st with litLen := c.1, dist := c.2, mode := .symbols }
  | _ => none

/-- A length symbol: the copy's length, then its distance comes next (41_flate.md R206, R208). -/
def InflateState.lengthSymbol (inp : List Byte) (sym : Nat) (st : InflateState) : Option InflateState :=
  (lengthOf inp st.pos sym).map fun r => { st with pos := r.2, mode := .distance r.1 }

/-- A distance symbol: the copy (41_flate.md R209, R210). -/
def InflateState.distanceSymbol (inp : List Byte) (dsym : Nat) (st : InflateState) : Option InflateState :=
  match st.mode, distanceOf inp st.pos dsym with
  | .distance n, some (d, pos) =>
    if d > st.out.length then none
    else some ({ st with pos := pos, mode := .symbols }.emit ((copyBack d n st.out).drop st.out.length))
  | _, _ => none

/-- The trailer's check against Adler-32 of the output (41_flate.md R211). -/
def InflateState.trailerOk (inp : List Byte) (st : InflateState) : Bool :=
  trailerValue inp st.pos == some (st.adlerB * 65536 + st.adlerA)

/-! ## In the state -/

/-- The inflate unit goes on, or raises INFLATE_ERROR(0) (41_flate.md R215). -/
def State.inflateNext (s : State) : Option InflateState → State
  | some st => s.withWork (.inflate st)
  | none => s.raiseStage .inflateError 0

/-- The trailer: the inflated data goes to the predictor step (41_flate.md R190, R196). -/
def State.endInflate (s : State) (st : InflateState) : State :=
  if st.trailerOk s.cur then s.withWork (.predict { x := st.out, predictor := st.predictor, columns := st.columns })
  else s.raiseStage .inflateError 0

/-- Whether the unit stands at a block header. -/
def InflateMode.atHeader : InflateMode → Bool
  | .header => true
  | _ => false

/-- Whether the unit stands in a code-length sequence. -/
def InflateMode.atCodeLens : InflateMode → Bool
  | .codeLens _ _ _ _ => true
  | _ => false

/-- Whether the unit stands at a literal/length symbol. -/
def InflateMode.atSymbol : InflateMode → Bool
  | .symbols => true
  | _ => false

/-- Whether the unit stands at a distance symbol. -/
def InflateMode.atDistance : InflateMode → Bool
  | .distance _ => true
  | _ => false

/-- A step of the inflate unit, for an instruction that is read where `place` says. -/
def State.onInflate (place : InflateMode → Bool) (f : InflateState → Option InflateState) (s : State) :
    Host.Outcome State Fault Refusal :=
  match s.work with
  | .inflate st => if place st.mode then .next (s.inflateNext (f st)) else .fault .unitNotRunning
  | _ => .fault .unitNotRunning

/-! ## The meanings -/

/-- ZLIB_STORED (41_flate.md R200). -/
def execZlibStored (bfinal : Bool) (s : State) : Host.Outcome State Fault Refusal :=
  s.onInflate InflateMode.atHeader fun st => st.stored s.cur bfinal

/-- ZLIB_FIXED (41_flate.md R201). -/
def execZlibFixed (bfinal : Bool) (s : State) : Host.Outcome State Fault Refusal :=
  s.onInflate InflateMode.atHeader fun st => some (st.fixed bfinal)

/-- ZLIB_DYNAMIC (41_flate.md R202). -/
def execZlibDynamic (bfinal : Bool) (s : State) : Host.Outcome State Fault Refusal :=
  s.onInflate InflateMode.atHeader fun st => st.dynamic s.cur bfinal

/-- ZLIB_RESERVED: "3 is reserved and raises INFLATE_ERROR(0)" (41_flate.md R199). -/
def execZlibReserved (_bfinal : Bool) (s : State) : Host.Outcome State Fault Refusal :=
  s.onInflate InflateMode.atHeader fun _ => none

/-- DEF_LITERAL: "appends the single byte of that value to `out`" (41_flate.md R207). -/
def execDefLiteral (b : Byte) (s : State) : Host.Outcome State Fault Refusal :=
  s.onInflate InflateMode.atSymbol fun st => some (st.emit [b])

/-- DEF_EOB: "Symbol 256 ends the block" (41_flate.md R207). -/
def execDefEob (s : State) : Host.Outcome State Fault Refusal :=
  s.onInflate InflateMode.atSymbol fun st => some st.endBlock

/-- DEF_LENGTH (41_flate.md R208). -/
def execDefLength (sym : Nat) (s : State) : Host.Outcome State Fault Refusal :=
  s.onInflate InflateMode.atSymbol fun st => st.lengthSymbol s.cur sym

/-- DEF_LEN_INVALID: "Symbols 286 and 287 raise INFLATE_ERROR(0)" (41_flate.md R208). -/
def execDefLenInvalid (_sym : Nat) (s : State) : Host.Outcome State Fault Refusal :=
  s.onInflate InflateMode.atSymbol fun _ => none

/-- DEF_DIST (41_flate.md R209, R210). -/
def execDefDist (dsym : Nat) (s : State) : Host.Outcome State Fault Refusal :=
  s.onInflate InflateMode.atDistance fun st => st.distanceSymbol s.cur dsym

/-- DEF_DIST_INVALID: "Symbols 30 and 31 raise INFLATE_ERROR(0)" (41_flate.md R209). -/
def execDefDistInvalid (_dsym : Nat) (s : State) : Host.Outcome State Fault Refusal :=
  s.onInflate InflateMode.atDistance fun _ => none

/-- DEF_CL_LITERAL: "if sym <= 15: L <- L ++ [sym]" (41_flate.md R204). -/
def execDefClLiteral (len : Nat) (s : State) : Host.Outcome State Fault Refusal :=
  s.onInflate InflateMode.atCodeLens fun st => st.lengths fun _ => [len]

/-- DEF_CL_REPEAT: the previous length 3 to 6 times; none before the first length (41_flate.md R204). -/
def execDefClRepeat (s : State) : Host.Outcome State Fault Refusal :=
  s.onInflate InflateMode.atCodeLens fun st => st.repeatLength s.cur 3 2 fun lens => lens.getLast?

/-- DEF_CL_ZERO3: zero 3 to 10 times (41_flate.md R204). -/
def execDefClZero3 (s : State) : Host.Outcome State Fault Refusal :=
  s.onInflate InflateMode.atCodeLens fun st => st.repeatLength s.cur 3 3 fun _ => some 0

/-- DEF_CL_ZERO11: zero 11 to 138 times (41_flate.md R204). -/
def execDefClZero11 (s : State) : Host.Outcome State Fault Refusal :=
  s.onInflate InflateMode.atCodeLens fun st => st.repeatLength s.cur 11 7 fun _ => some 0

end Sys2Proof.Machine
end

