-- ==== Sys2Proof/Machine/Deflate.lean ====
section
/-! DEFINITION. INFLATE as one function of its input, as the pseudocode of 41_flate.md R196-R206 writes it; the reference encoder STORED_ENC (R231); and the encoder DEFLATE_ENC (R230). -/

namespace Sys2Proof.Machine

/-- `decode(T)` at bit `pos`: the symbol and the cursor after its code word (41_flate.md R206). -/
def symbolAt (inp : List Byte) (t : PrefixCode) (pos : Nat) : Option (Nat × Nat) :=
  match readSymbol t (windowLsb inp pos 15) with
  | .ok (sym, len) => some (sym, pos + len)
  | .error _ => none

/-- `huffman_block(LL, D)` (41_flate.md R206). Every turn of the loop reads at least one bit, so `8*len(s)` turns are enough. -/
def huffmanBlock (inp : List Byte) (ll d : PrefixCode) : (fuel pos : Nat) → (out : List Byte) → Option (Nat × List Byte)
  | 0, _, _ => none
  | fuel + 1, pos, out =>
    match symbolAt inp ll pos with
    | none => none
    | some (sym, pos) =>
      if sym < 256 then huffmanBlock inp ll d fuel pos (out ++ [BitVec.ofNat 8 sym])
      else if sym = 256 then some (pos, out)
      else
        match lengthOf inp pos sym with
        | none => none
        | some (n, pos) =>
          match symbolAt inp d pos with
          | none => none
          | some (dsym, pos) =>
            match distanceOf inp pos dsym with
            | none => none
            | some (dist, pos) =>
              if dist > out.length then none else huffmanBlock inp ll d fuel pos (copyBack dist n out)

/-- `read_lengths(CL, total)` (41_flate.md R204). -/
def readLengths (inp : List Byte) (cl : PrefixCode) (total : Nat) : (fuel pos : Nat) → (lens : List Nat) → Option (List Nat × Nat)
  | 0, _, _ => none
  | fuel + 1, pos, lens =>
    if lens.length < total then
      match symbolAt inp cl pos with
      | none => none
      | some (sym, pos) =>
        if sym ≤ 15 then
          match appendLengths total lens [sym] with
          | some l => readLengths inp cl total fuel pos l
          | none => none
        else if sym = 16 then
          match lens.getLast?, getBits inp pos 2 with
          | some v, some x =>
            match appendLengths total lens (List.replicate (3 + x) v) with
            | some l => readLengths inp cl total fuel (pos + 2) l
            | none => none
          | _, _ => none
        else if sym = 17 then
          match getBits inp pos 3 with
          | some x =>
            match appendLengths total lens (List.replicate (3 + x) 0) with
            | some l => readLengths inp cl total fuel (pos + 3) l
            | none => none
          | none => none
        else if sym = 18 then
          match getBits inp pos 7 with
          | some x =>
            match appendLengths total lens (List.replicate (11 + x) 0) with
            | some l => readLengths inp cl total fuel (pos + 7) l
            | none => none
          | none => none
        else none
    else some (lens, pos)

/-- One block, from after its header on: the cursor and the output after it (41_flate.md R199-R202). -/
def inflateBlock (inp : List Byte) (btype pos : Nat) (out : List Byte) : Option (Nat × List Byte) :=
  let fuel := 8 * inp.length + 1
  if btype = 0 then (storedBlock inp pos).map fun r => (r.2, out ++ r.1)
  else if btype = 1 then huffmanBlock inp fixedLitLen fixedDist fuel pos out
  else if btype = 2 then
    match dynamicHeader inp pos with
    | none => none
    | some h =>
      match readLengths inp h.cl (h.hlit + h.hdist) fuel h.pos [] with
      | none => none
      | some (lens, pos) =>
        match dynamicCodes h.hlit h.hdist lens with
        | none => none
        | some (ll, d) => huffmanBlock inp ll d fuel pos out
  else none

/-- The blocks, until one with BFINAL = 1 (41_flate.md R196, R199). -/
def inflateBlocks (inp : List Byte) : (fuel pos : Nat) → (out : List Byte) → Option (Nat × List Byte)
  | 0, _, _ => none
  | fuel + 1, pos, out =>
    match getBits inp pos 1, getBits inp (pos + 1) 2 with
    | some bfinal, some btype =>
      match inflateBlock inp btype (pos + 3) out with
      | none => none
      | some (pos, out) => if bfinal = 1 then some (pos, out) else inflateBlocks inp fuel pos out
    | _, _ => none

/-- `INFLATE(s)` (41_flate.md R196); `none` is INFLATE_ERROR(0). -/
def inflate (inp : List Byte) : Option (List Byte) :=
  match inp with
  | cmf :: flg :: _ =>
    if zlibHeaderOk cmf flg then
      match inflateBlocks inp (8 * inp.length + 1) 16 [] with
      | none => none
      | some (pos, out) => if trailerValue inp pos = some (adler32 out) then some out else none
    else none
  | _ => none

/-- The two bytes of a 16-bit number, least significant first. -/
def le16Bytes (v : Nat) : List Byte := [BitVec.ofNat 8 v, BitVec.ofNat 8 (v / 256)]

/-- One stored chunk of STORED_ENC (41_flate.md R231). -/
def storedChunk (final : Bool) (c : List Byte) : List Byte :=
  BitVec.ofNat 8 final.toNat :: (le16Bytes c.length ++ le16Bytes (c.length ^^^ 0xFFFF) ++ c)

/-- The chunks of STORED_ENC: "d cut into pieces of 65535 bytes, the last possibly shorter; [] gives one empty chunk". One
piece is cut off per unit of fuel. -/
def storedChunks : (fuel : Nat) → List Byte → List Byte
  | 0, d => storedChunk true d
  | fuel + 1, d =>
    if d.length ≤ 65535 then storedChunk true d
    else storedChunk false (d.take 65535) ++ storedChunks fuel (d.drop 65535)

/-- `STORED_ENC(d)` (41_flate.md R231). -/
def storedEnc (d : List Byte) : List Byte := [0x78, 0x01] ++ storedChunks (d.length / 65535) d ++ be32 (adler32 d)

/-- `DEFLATE_ENC` (41_flate.md R230): any function with `INFLATE(DEFLATE_ENC(d)) = d`. The free function answers wherever it
has that property; elsewhere STORED_ENC does, which has it (R231). So every function that R230 allows is one this definition
can be, and of this definition nothing but R230 can be proved (assumption log 5; safe). -/
def deflateEnc (d : List Byte) : List Byte :=
  if inflate (Config.freeEncoder d) = some d then Config.freeEncoder d else storedEnc d

end Sys2Proof.Machine
end

