-- ==== Sys2Proof/Machine/Rc4.lean ====
section
/-! DEFINITION. The RC4 unit (45_rc4.md R360-R362): the steps of the key schedule and of the keystream. -/

namespace Sys2Proof.Machine

/-- `S[i]` with an 8-bit index (10_state.md R56). -/
def permAt (perm : List Byte) (i : BitVec 8) : Byte := perm.getD i.toNat 0

/-- `swap S[i], S[j]` (45_rc4.md R361). -/
def permSwap (perm : List Byte) (i j : BitVec 8) : List Byte :=
  (perm.set i.toNat (permAt perm j)).set j.toNat (permAt perm i)

/-- "for i in 0..256: S[i] <- i" (45_rc4.md R361). -/
def identityPerm : List Byte := (List.range 256).map (BitVec.ofNat 8)

/-- The unit before its key schedule. -/
def rc4Start (key data : List Byte) : Rc4State :=
  { key := key, data := data, perm := identityPerm, i := 0, j := 0, scheduled := 0, out := [] }

/-- One step of the key schedule (45_rc4.md R361): "j <- (j + S[i] + key[i mod L]) mod 256 ; swap S[i], S[j]". After the last
one both indices are 0, as the keystream begins (R362). -/
def Rc4State.schedule (st : Rc4State) : Rc4State :=
  let j := st.j + permAt st.perm st.i + st.key.getD (st.scheduled % st.key.length) 0
  let perm := permSwap st.perm st.i j
  if st.scheduled + 1 < 256 then { st with perm := perm, i := st.i + 1, j := j, scheduled := st.scheduled + 1 }
  else { st with perm := perm, i := 0, j := 0, scheduled := st.scheduled + 1 }

/-- One byte of the keystream (45_rc4.md R362). -/
def Rc4State.generate (st : Rc4State) (x : Byte) : Rc4State :=
  let i := st.i + 1
  let j := st.j + permAt st.perm i
  let perm := permSwap st.perm i j
  { st with perm := perm, i := i, j := j, out := st.out ++ [x ^^^ permAt perm (permAt perm i + permAt perm j)] }

/-- A turn of the running RC4 command: the key schedule, then the data, then the capacity check and the result (45_rc4.md R360). -/
def State.rc4Turn (s : State) (st : Rc4State) : State :=
  if st.scheduled < 256 then s.withWork (.rc4 st.schedule)
  else
    match st.data[st.out.length]? with
    | some x => s.withWork (.rc4 (st.generate x))
    | none => if st.out.length > s.params.outCap then s.raiseCommand .capacityExceeded 0 else s.finishOk st.out

end Sys2Proof.Machine
end

