-- ==== Sys2Proof/Machine/Commands.lean ====
section
/-! DEFINITION. The meanings of the CMD instructions (40_pipeline.md R151, R160, R163; 45_rc4.md R360). -/

namespace Sys2Proof.Machine

/-- The free bytes of this draw are used up (assumption log 4). -/
def State.drawn (s : State) : State := { s with draw := s.draw + 1 }

/-- A command word that is dispatched. -/
def State.onCommand (f : State → State) (s : State) : Host.Outcome State Fault Refusal :=
  match s.work with
  | .command => .next (f s)
  | _ => .fault .unitNotRunning

/-- The check "IN_LEN > IN_CAP: raise INVALID_PARAM(1)" before everything else (60_exceptions.md R382, R386). -/
def State.withInput (f : State → State) (s : State) : State :=
  if s.inLen.toNat > s.params.inCap then s.raiseCommand .invalidParam 1 else f s

/-- DECODE: the length checks, then the validation of the descriptors (40_pipeline.md R151, R159). The stages follow. -/
def execDecode (s : State) : Host.Outcome State Fault Refusal :=
  s.onCommand <| State.withInput fun s =>
    if s.nstages.toNat > s.params.stageMax then s.raiseCommand .invalidParam 2 else s.withWork (.validate 0)

/-- FLATE_ENCODE (40_pipeline.md R160). -/
def execFlateEncode (s : State) : Host.Outcome State Fault Refusal :=
  s.onCommand <| State.withInput fun s =>
    let z := deflateEnc s.readIn
    if z.length > s.params.outCap then s.drawn.raiseCommand .capacityExceeded 0 else s.drawn.finishOk z

/-- RC4: the checks of IN_LEN and KEY_LEN, then the key schedule and the data follow (45_rc4.md R360). -/
def execRc4 (s : State) : Host.Outcome State Fault Refusal :=
  s.onCommand <| State.withInput fun s =>
    if s.keyLen.toNat < 1 || s.keyLen.toNat > 256 then s.raiseCommand .invalidParam 3
    else s.drawn.withWork (.rc4 (rc4Start s.readKey s.readIn))

/-- ILLEGAL_COMMAND: ERR_INFO is the written word (40_pipeline.md R163). -/
def execIllegalCommand (w : Word) (s : State) : Host.Outcome State Fault Refusal :=
  s.onCommand fun s => s.raiseCommand .illegalCommand w

end Sys2Proof.Machine
end

