-- ==== Sys2Proof/Machine/Ascii85.lean ====
section
/-! DEFINITION. The ASCII85 unit (43_ascii85.md R300-R308): the meanings of the A85_CHAR instructions. -/

namespace Sys2Proof.Machine

/-- The start of the unit: the whole stage input as text, whose whitespace is removed first (43_ascii85.md R301, R303). -/
def a85Start (s : List Byte) : A85State := { t := s, i := 0, group := [], out := [] }

/-- The text without its first whitespace byte (43_ascii85.md R303). -/
def dropWhitespace : List Byte → List Byte
  | [] => []
  | c :: cs => if isWhitespace c then cs else c :: dropWhitespace cs

/-- `b = d0·85⁴ + d1·85³ + d2·85² + d3·85 + d4`, formed exactly (43_ascii85.md R306). -/
def a85Value (g : List Nat) : Nat := g.foldl (fun b d => 85 * b + d) 0

/-- `emit(g)` for five digits; `none` is INVALID_A85_GROUP(0): "b ≥ 2^32 − 1" (43_ascii85.md R306). -/
def a85Emit (g : List Nat) : Option (List Byte) :=
  if a85Value g ≥ 2 ^ 32 - 1 then none else some (be32 (a85Value g))

/-- `final(group)`: nothing for no digit, an error for one, and for n of 2 to 4 the padded group's first n - 1 bytes
(43_ascii85.md R308). -/
def a85Final (g : List Nat) : Option (List Byte) :=
  if g.length = 0 then some []
  else if g.length = 1 then none
  else (a85Emit (g ++ List.replicate (5 - g.length) 84)).map fun bs => bs.take (g.length - 1)

/-- One digit: appended to the group; the fifth emits the group (43_ascii85.md R301, R305, R306). -/
def A85State.digit (c : Byte) (st : A85State) : UnitStep A85State :=
  let group := st.group ++ [c.toNat - 33]
  if group.length = 5 then
    match a85Emit group with
    | some bs => .more { st with i := st.i + 1, group := [], out := st.out ++ bs }
    | none => .fail .invalidA85Group 0
  else .more { st with i := st.i + 1, group := group }

/-- A character of the running ASCII85 unit. -/
def State.onA85 (f : A85State → UnitStep A85State) (s : State) : Host.Outcome State Fault Refusal :=
  match s.work with
  | .a85 st => .next (s.settle .a85 (f st))
  | _ => .fault .unitNotRunning

/-- A85_BEGIN: the two bytes of `<~` are skipped (43_ascii85.md R302). -/
def execA85Begin (s : State) : Host.Outcome State Fault Refusal := s.onA85 fun st => .more { st with i := 2 }

/-- A85_DIGIT (43_ascii85.md R305, R306). -/
def execA85Digit (c : Byte) (s : State) : Host.Outcome State Fault Refusal := s.onA85 fun st => st.digit c

/-- A85_Z: "appends four zero bytes" (43_ascii85.md R304). -/
def execA85Z (s : State) : Host.Outcome State Fault Refusal :=
  s.onA85 fun st => .more { st with i := st.i + 1, out := st.out ++ [0, 0, 0, 0] }

/-- A85_END, at `~>` or at the end of the input (43_ascii85.md R307, R308). -/
def execA85End (s : State) : Host.Outcome State Fault Refusal :=
  s.onA85 fun st =>
    match a85Final st.group with
    | some bs => .done (st.out ++ bs)
    | none => .fail .invalidA85Group 0

/-- A85_WS: the first whitespace byte of the text is removed, before every other test (43_ascii85.md R303). -/
def execA85Ws (_c : Byte) (s : State) : Host.Outcome State Fault Refusal :=
  s.onA85 fun st => .more { st with t := dropWhitespace st.t }

/-- A85_INVALID: INVALID_A85_CHAR with the byte (43_ascii85.md R305). -/
def execA85Invalid (c : Byte) (s : State) : Host.Outcome State Fault Refusal :=
  s.onA85 fun _ => .fail .invalidA85Char (c.setWidth 32)

end Sys2Proof.Machine
end

