-- ==== Sys2Proof/Machine/AsciiHex.lean ====
section
/-! DEFINITION. The ASCIIHex unit (44_asciihex.md R340-R345): the meanings of the AHX_CHAR instructions. -/

namespace Sys2Proof.Machine

/-- The start of the unit (44_asciihex.md R340). -/
def ahxStart : AhxState := { i := 0, pend := none, out := [] }

/-- A digit of value `v`: the pending high nibble, or the low nibble of a byte `pend*16 + v` (44_asciihex.md R340, R342). -/
def AhxState.digit (v : BitVec 4) (st : AhxState) : AhxState :=
  match st.pend with
  | none => { st with pend := some v }
  | some h => { st with pend := none, out := st.out ++ [h ++ v] }

/-- A character of the running ASCIIHex unit. -/
def State.onAhx (f : AhxState → UnitStep AhxState) (s : State) : Host.Outcome State Fault Refusal :=
  match s.work with
  | .ahx st => .next (s.settle .ahx (f st))
  | _ => .fault .unitNotRunning

/-- AHX_DIGIT (44_asciihex.md R342). -/
def execAhxDigit (c : Byte) (s : State) : Host.Outcome State Fault Refusal :=
  s.onAhx fun st => .more (st.digit (hexValue c))

/-- AHX_WS: "A whitespace byte ... is skipped" (44_asciihex.md R341). -/
def execAhxWs (_c : Byte) (s : State) : Host.Outcome State Fault Refusal := s.onAhx .more

/-- AHX_END, at `>` or at the end of the input: the output, unless a nibble is pending (44_asciihex.md R343, R345). -/
def execAhxEnd (s : State) : Host.Outcome State Fault Refusal :=
  s.onAhx fun st =>
    match st.pend with
    | none => .done st.out
    | some _ => .fail .invalidHexDigitCount 0

/-- AHX_INVALID: INVALID_HEX_CHAR with the byte (44_asciihex.md R344). -/
def execAhxInvalid (c : Byte) (s : State) : Host.Outcome State Fault Refusal :=
  s.onAhx fun _ => .fail .invalidHexChar (c.setWidth 32)

end Sys2Proof.Machine
end

