-- ==== Sys2Proof/Machine/Lzw.lean ====
section
/-! DEFINITION. The LZW unit (42_lzw.md R260-R269): the meanings of the LZW_CODE instructions. -/

namespace Sys2Proof.Machine

/-- The seeded entries: "`dict[c]` is the one-byte sequence `[c]` for c from 0 to 255. Entries 256 and 257 hold no string"
(42_lzw.md R261). -/
def lzwSeed : List (List Byte) := ((List.range 256).map fun c => [BitVec.ofNat 8 c]) ++ [[], []]

/-- The initial state (42_lzw.md R261). -/
def lzwStart : LzwState := { dict := lzwSeed, dl := 258, w := 9, previous := none, pos := 0, out := [] }

/-- `dict[code]`; "entries 258 to 4095 are empty until inserted" (42_lzw.md R261). -/
def LzwState.entry (st : LzwState) (code : Nat) : List Byte := st.dict.getD code []

/-- `dict[dl] <- entry`. After a CLEAR the old entry at that place is overwritten (42_lzw.md R265). -/
def LzwState.assign (st : LzwState) (entry : List Byte) : List (List Byte) :=
  if st.dl < st.dict.length then st.dict.set st.dl entry else st.dict ++ [entry]

/-- `insert(entry)` and "previous <- code" (42_lzw.md R269, R260). -/
def LzwState.insert (st : LzwState) (entry : List Byte) (code : BitVec 12) : UnitStep LzwState :=
  if st.dl = 4096 then .fail .lzwDictFull 0
  else
    .more
      { st with
        dict := st.assign entry
        dl := st.dl + 1
        w := if st.dl + 1 ≥ 2 ^ st.w - 1 ∧ st.w < 12 then st.w + 1 else st.w
        previous := some code }

/-- A code with an entry: emitted verbatim just after CLEAR or at the start (42_lzw.md R266), else emitted with an insertion
of `dict[previous]` and the first byte of `dict[code]` (R267). -/
def LzwState.known (code : BitVec 12) (st : LzwState) : UnitStep LzwState :=
  let s := { st with out := st.out ++ st.entry code.toNat }
  match st.previous with
  | none => .more { s with previous := some code }
  | some p => s.insert (st.entry p.toNat ++ (st.entry code.toNat).take 1) code

/-- The self-reference (42_lzw.md R268): the entry is `dict[previous]` and its own first byte. Just after CLEAR there is no
such case, and the code is invalid (R266). -/
def LzwState.selfReference (code : BitVec 12) (st : LzwState) : UnitStep LzwState :=
  match st.previous with
  | none => .fail .invalidLzwCode (code.setWidth 32)
  | some p =>
    let entry := st.entry p.toNat ++ (st.entry p.toNat).take 1
    { st with out := st.out ++ entry }.insert entry code

/-- A code of the running LZW unit. -/
def State.onLzw (f : LzwState → UnitStep LzwState) (s : State) : Host.Outcome State Fault Refusal :=
  match s.work with
  | .lzw st => .next (s.settle .lzw (f st))
  | _ => .fault .unitNotRunning

/-- LZW_LITERAL (42_lzw.md R266, R267). -/
def execLzwLiteral (b : Byte) (s : State) : Host.Outcome State Fault Refusal := s.onLzw fun st => st.known (b.setWidth 12)

/-- LZW_CLEAR: "sets `dl <- 258`, `w <- 9` and `previous <- CLEAR`" (42_lzw.md R265). -/
def execLzwClear (s : State) : Host.Outcome State Fault Refusal :=
  s.onLzw fun st => .more { st with dl := 258, w := 9, previous := none }

/-- LZW_STOP: "ends the stage successfully. Its output is `out`" (42_lzw.md R264). -/
def execLzwStop (s : State) : Host.Outcome State Fault Refusal := s.onLzw fun st => .done st.out

/-- LZW_DICT (42_lzw.md R267). -/
def execLzwDict (code : BitVec 12) (s : State) : Host.Outcome State Fault Refusal := s.onLzw fun st => st.known code

/-- LZW_SELF (42_lzw.md R268). -/
def execLzwSelf (code : BitVec 12) (s : State) : Host.Outcome State Fault Refusal := s.onLzw fun st => st.selfReference code

/-- LZW_INVALID: INVALID_LZW_CODE with the code (42_lzw.md R266, R268). -/
def execLzwInvalid (code : BitVec 12) (s : State) : Host.Outcome State Fault Refusal :=
  s.onLzw fun _ => .fail .invalidLzwCode (code.setWidth 32)

end Sys2Proof.Machine
end

