-- ==== Sys2Proof/Machine/Predictor.lean ====
section
/-! DEFINITION. The predictor step of a Flate stage (41_flate.md R190-R194, R223-R229): the meanings of the PRED and PNG_ROW instructions. -/

namespace Sys2Proof.Machine

/-- The row length `Columns + 1`, computed exactly (40_pipeline.md R165). -/
def PngState.rowLength (st : PngState) : Nat := st.cols + 1

/-- The rows are all reconstructed. -/
def PngState.finished (st : PngState) : Bool := st.x.length ≤ st.r * st.rowLength

/-- The filter-type byte of the row at hand: "byte 0 of each row" (30_encoding.md R116). -/
def PngState.filterType (st : PngState) : Byte := st.x.getD (st.r * st.rowLength) 0

/-- The filtered data bytes of the row at hand: `x[r*L + 1 .. r*L + L)` (41_flate.md R223). -/
def PngState.rowData (st : PngState) : List Byte := (st.x.drop (st.r * st.rowLength + 1)).take st.cols

/-- "out <- out ++ y ; prev <- y" and the next row (41_flate.md R223). -/
def PngState.putRow (st : PngState) (y : List Byte) : PngState :=
  { st with r := st.r + 1, prev := y, out := st.out ++ y }

/-- Sub: each byte plus the reconstructed byte on its left, which `left` holds; the first has none (41_flate.md R227).
Addition of bytes is modulo 256. -/
def subRow : (left : Byte) → List Byte → List Byte
  | _, [] => []
  | left, y :: ys => (y + left) :: subRow (y + left) ys

/-- Up: each byte plus the co-positioned byte of the previous reconstructed row (41_flate.md R228). -/
def upRow (prev y : List Byte) : List Byte := y.mapIdx fun i b => b + prev.getD i 0

/-- `PNG_UNPREDICT` up to its rows: `Columns` present, then at least 1, then the row multiple (41_flate.md R194, R223-R225). -/
def State.startPng (s : State) (st : PredictState) : State :=
  match st.columns with
  | none => s.raiseStage .invalidParam 4
  | some c =>
    if c.toInt < 1 then s.raiseStage .invalidParam 5
    else if st.x.length % (c.toNat + 1) ≠ 0 then s.raiseStage .predictorRowLength 0
    else s.withWork (.png { x := st.x, cols := c.toNat, r := 0, prev := List.replicate c.toNat 0, out := [] })

/-- The predictor step of a Flate stage. -/
def State.onPredict (f : State → PredictState → State) (s : State) : Host.Outcome State Fault Refusal :=
  match s.work with
  | .predict st => .next (f s st)
  | _ => .fault .unitNotRunning

/-- A row of the predictor. -/
def State.onPng (f : PngState → UnitStep PngState) (s : State) : Host.Outcome State Fault Refusal :=
  match s.work with
  | .png st => .next (s.settle .png (f st))
  | _ => .fault .unitNotRunning

/-- PRED_NONE: "the stage output is the inflated data x, unchanged. `Columns` is not read" (41_flate.md R191). -/
def execPredNone (s : State) : Host.Outcome State Fault Refusal := s.onPredict fun s st => s.endStage st.x

/-- PRED_PNG10 (41_flate.md R192). -/
def execPredPng10 (s : State) : Host.Outcome State Fault Refusal := s.onPredict State.startPng

/-- PRED_PNG11 (41_flate.md R192). -/
def execPredPng11 (s : State) : Host.Outcome State Fault Refusal := s.onPredict State.startPng

/-- PRED_PNG12 (41_flate.md R192). -/
def execPredPng12 (s : State) : Host.Outcome State Fault Refusal := s.onPredict State.startPng

/-- PRED_PNG13 (41_flate.md R192). -/
def execPredPng13 (s : State) : Host.Outcome State Fault Refusal := s.onPredict State.startPng

/-- PRED_PNG14 (41_flate.md R192). -/
def execPredPng14 (s : State) : Host.Outcome State Fault Refusal := s.onPredict State.startPng

/-- PRED_PNG15 (41_flate.md R192). -/
def execPredPng15 (s : State) : Host.Outcome State Fault Refusal := s.onPredict State.startPng

/-- PRED_UNSUPPORTED: ERR_INFO is the value as a 32-bit word (41_flate.md R193). -/
def execPredUnsupported (value : Word) (s : State) : Host.Outcome State Fault Refusal :=
  s.onPredict fun s _ => s.raiseStage .unsupportedPredictor value

/-- PNG_NONE: "The row's C data bytes are output unchanged" (41_flate.md R226). -/
def execPngNone (s : State) : Host.Outcome State Fault Refusal := s.onPng fun st => .more (st.putRow st.rowData)

/-- PNG_SUB (41_flate.md R227). -/
def execPngSub (s : State) : Host.Outcome State Fault Refusal := s.onPng fun st => .more (st.putRow (subRow 0 st.rowData))

/-- PNG_UP (41_flate.md R228). -/
def execPngUp (s : State) : Host.Outcome State Fault Refusal :=
  s.onPng fun st => .more (st.putRow (upRow st.prev st.rowData))

/-- PNG_UNSUPPORTED: ERR_INFO is the filter-type byte (41_flate.md R229). -/
def execPngUnsupported (ft : Byte) (s : State) : Host.Outcome State Fault Refusal :=
  s.onPng fun _ => .fail .unsupportedPngFilter (ft.setWidth 32)

end Sys2Proof.Machine
end

