-- ==== Sys2Proof/Machine/Stages.lean ====
section
/-! DEFINITION. The meanings of the STAGE instructions (40_pipeline.md R153-R158): a descriptor passes or fails validation, and its unit starts when its stage is dispatched. -/

namespace Sys2Proof.Machine

/-- A descriptor of a known kind: it passes validation (40_pipeline.md R151, R153), and its unit starts at dispatch (R155). -/
def State.onStage (start : State → State) (s : State) : Host.Outcome State Fault Refusal :=
  match s.work with
  | .validate j => .next (s.withWork (.validate (j + 1)))
  | .stage => .next (start s)
  | _ => .fault .unitNotRunning

/-- A descriptor that validation rejects: UNSUPPORTED_FILTER at its own index (40_pipeline.md R153, R154). -/
def State.onBadStage (info : Word) (s : State) : Host.Outcome State Fault Refusal :=
  match s.work with
  | .validate j => .next (s.raise (some j) .unsupportedFilter info)
  | .stage => .next (s.raiseStage .unsupportedFilter info)
  | _ => .fault .unitNotRunning

/-- FLATE: INFLATE begins on the stage input, with the effective parameters latched (41_flate.md R190; 10_state.md R45). -/
def execFlate (predictor columns : Option Word) (s : State) : Host.Outcome State Fault Refusal :=
  s.onStage fun s => s.inflateNext (inflateStart s.cur (effectivePredictor predictor) columns)

/-- AHX (44_asciihex.md R340). -/
def execAhx (s : State) : Host.Outcome State Fault Refusal := s.onStage fun s => s.withWork (.ahx ahxStart)

/-- LZW (42_lzw.md R260). -/
def execLzw (s : State) : Host.Outcome State Fault Refusal := s.onStage fun s => s.withWork (.lzw lzwStart)

/-- A85 (43_ascii85.md R301). -/
def execA85 (s : State) : Host.Outcome State Fault Refusal := s.onStage fun s => s.withWork (.a85 (a85Start s.cur))

/-- CRYPT: `CRYPT(s) = s` (40_pipeline.md R158). -/
def execCrypt (s : State) : Host.Outcome State Fault Refusal := s.onStage fun s => s.endStage s.cur

/-- CRYPT_NAMED: UNSUPPORTED_FILTER(0x05 | CNAME_P << 8 | CTYPE_P << 9) (40_pipeline.md R154). -/
def execCryptNamed (cname ctype : Bool) (s : State) : Host.Outcome State Fault Refusal :=
  s.onBadStage (BitVec.ofNat 32 (5 + 256 * cname.toNat + 512 * ctype.toNat))

/-- KIND_UNKNOWN: UNSUPPORTED_FILTER with the kind, zero-extended (40_pipeline.md R153). -/
def execKindUnknown (kind : BitVec 8) (s : State) : Host.Outcome State Fault Refusal := s.onBadStage (kind.setWidth 32)

end Sys2Proof.Machine
end

