-- ==== Sys2Proof/Machine/Sequencer.lean ====
section
/-! DEFINITION. Where the Core finds its next instruction, how its cursors move past it, and the turns that no instruction takes: a stage list or a row list that is used up, a trailer, the RC4 unit, completion. -/

namespace Sys2Proof.Machine

/-- What the Core's next turn is. -/
inductive Site where
  /-- No command runs (60_exceptions.md R399). -/
  | idle
  /-- An instruction, in this format, at the front of these bits. -/
  | code (f : Format) (bits : List Bool)
  /-- A turn without an instruction. -/
  | auto
  deriving DecidableEq, Repr

/-- Where the inflate unit reads next (41_flate.md R196, R204, R206). -/
def InflateState.site (inp : List Byte) (st : InflateState) : Site :=
  match st.mode with
  | .header => .code .zlibBlock (windowLsb inp st.pos 3)
  | .codeLens cl hlit hdist lens =>
    if lens.length < hlit + hdist then .code (.codeLen cl) (windowLsb inp st.pos 15) else .auto
  | .symbols => .code (.litLen st.litLen) (windowLsb inp st.pos 15)
  | .distance _ => .code (.dist st.dist) (windowLsb inp st.pos 15)
  | .trailer => .auto

/-- Where the ASCII85 unit reads next: at the first whitespace byte as long as there is one (43_ascii85.md R303), then at its
index (R301). -/
def A85State.site (st : A85State) : Site :=
  let f := Format.a85Char (st.i == 0) (st.group != [])
  match st.t.find? isWhitespace with
  | some c => .code f (byteBits c)
  | none => .code f (windowLsb st.t (8 * st.i) 16)

/-- Where the Core finds its next instruction. -/
def State.site (s : State) : Site :=
  match s.work with
  | .none => .idle
  | .command => .code .cmd (wordBits s.op)
  | .validate j => if j < s.nstages.toNat then .code .stage (s.desc j).bits else .auto
  | .stage => if s.k < s.nstages.toNat then .code .stage (s.desc s.k).bits else .auto
  | .inflate st => st.site s.cur
  | .predict st => .code .pred (wordBits st.predictor)
  | .png st => if st.finished then .auto else .code .pngRow (byteBits st.filterType)
  | .lzw st => .code (.lzwCode st.w st.dl st.previous.isNone) (windowMsb s.cur st.pos st.w)
  | .a85 st => st.site
  | .ahx st => .code .ahxChar (windowLsb s.cur (8 * st.i) 8)
  | .rc4 _ => .auto
  | .finish _ => .auto

/-- The cursor moves past an instruction of `n` bits. The other units keep no cursor, or move it in their meanings
(43_ascii85.md R301; 41_flate.md R223). -/
def State.advance (s : State) (n : Nat) : State :=
  match s.work with
  | .inflate st => s.withWork (.inflate { st with pos := st.pos + n })
  | .lzw st => s.withWork (.lzw { st with pos := st.pos + n })
  | .ahx st => s.withWork (.ahx { st with i := st.i + n / 8 })
  | _ => s

/-- The input ends inside a code, or no code word matches: TRUNCATED_LZW_STREAM for the LZW unit (42_lzw.md R263),
INFLATE_ERROR for inflate (41_flate.md R206, R214). No other unit's decoder refuses what it is given. -/
def State.reject (s : State) : State :=
  match s.work with
  | .lzw _ => s.raiseStage .truncatedLzwStream 0
  | _ => s.raiseStage .inflateError 0

/-- The descriptors are valid: `cur <- IN[0..IN_LEN)`, and stage execution begins with `k` = 0 (40_pipeline.md R151;
10_state.md R50). -/
def State.beginStages (s : State) : State := { s.drawn with cur := s.readIn, k := 0, work := .stage }

/-- The chain is used up: the last capacity check, "only reachable with NSTAGES = 0", and the result (40_pipeline.md R151, R157). -/
def State.endChain (s : State) : State :=
  if s.cur.length > s.params.outCap then s.raiseCommand .capacityExceeded 0 else s.finishOk s.cur

/-- A turn without an instruction. -/
def State.auto (s : State) : State :=
  match s.work with
  | .validate _ => s.beginStages
  | .stage => s.endChain
  | .inflate st =>
    match st.mode with
    | .codeLens _ _ _ _ => s.inflateNext st.buildCodes
    | .trailer => s.endInflate st
    | .header | .symbols | .distance _ => s
  | .png st => s.endStage st.out
  | .rc4 st => s.rc4Turn st
  | .finish r => s.complete r
  | .none | .command | .predict _ | .lzw _ | .a85 _ | .ahx _ => s

end Sys2Proof.Machine
end

