-- ==== Sys2Proof/Machine/Place.lean ====
section
/-! DEFINITION. Placing a bare word of the opcode table where the Core's next turn reads it (assumption logs 7 and 8). -/

namespace Sys2Proof.Machine

/-- A command runs and the Core moves next: it does so by itself where no event waits. -/
def State.running (s : State) (w : Work) : State :=
  { s with
    busy := true
    done := false
    phase := .run
    work := w
    inputs := if s.inputs = [] then [] else .core :: s.inputs }

/-- Descriptor 0 of a chain with at least one stage, at dispatch; a kind that validation rejects, at validation. -/
def State.placeStage (s : State) (kind : BitVec 8) : State :=
  let placed := { s with
    stages := { Desc.zero with kind := kind } :: s.stages.drop 1
    nstages := if s.nstages = 0 then 1 else s.nstages
    k := 0 }
  placed.running (if 1 ≤ kind.toNat && kind.toNat ≤ 5 then .stage else .validate 0)

/-- A table word where its format's unit reads next, with operands of zeros: a row of one zero byte, a text of its bytes. -/
def State.placeWord (s : State) (nbits w : Nat) : State :=
  match tableFormat nbits w with
  | some .cmd => { s with op := BitVec.ofNat 32 w }.running .command
  | some .stage => s.placeStage (BitVec.ofNat 8 w)
  | some .pred => s.running (.predict { x := [], predictor := BitVec.ofNat 32 w, columns := none })
  | some .pngRow => s.running (.png { x := [BitVec.ofNat 8 w, 0], cols := 1, r := 0, prev := [0], out := [] })
  | some (.a85Char _ _) => s.running (.a85 (a85Start [BitVec.ofNat 8 w, BitVec.ofNat 8 (w / 256)]))
  | some .ahxChar => { s with cur := [BitVec.ofNat 8 w] }.running (.ahx ahxStart)
  | some (.lzwCode _ _ _) | some .zlibBlock | some (.litLen _) | some (.dist _) | some (.codeLen _) | none => s

end Sys2Proof.Machine
end

