-- ==== Sys2Proof/Machine/Flags.lean ====
section
/-! DEFINITION. The flags: STATUS as a word, ERROR, and the interrupt output (10_state.md R34, R48, R49). The core has no other flag. -/

namespace Sys2Proof.Machine

/-- STATUS.ERROR "reads as 1 exactly when ERR_CODE ≠ 0" (10_state.md R34). -/
def State.errorFlag (s : State) : Bool := s.errCode != 0

/-- STATUS as it reads: BUSY, DONE, ERROR in bits 0, 1, 2, the others zero (10_state.md R34). -/
def State.statusWord (s : State) : Word :=
  BitVec.ofNat 32 (s.busy.toNat + 2 * s.done.toNat + 4 * s.errorFlag.toNat)

/-- "At every instant `irq = STATUS.DONE AND CTRL.IRQ_EN`" (10_state.md R49). -/
def State.irq (s : State) : Bool := s.done && s.irqEn

end Sys2Proof.Machine
end

