-- ==== Sys2Proof/Machine/Port.lean ====
section
/-! DEFINITION. The host port (20_memory.md): the register page, the buffer windows, the responses. -/

namespace Sys2Proof.Machine

/-- The bytes of a width (20_memory.md R83). -/
def Width.bytes : Width → Nat
  | .w1 => 1
  | .w2 => 2
  | .w4 => 4

/-! ## The register page (10_state.md R30) -/

/-- One of a descriptor's four registers as it reads, by its offset in the descriptor (10_state.md R43). -/
def Desc.read (d : Desc) (r : Nat) : Word :=
  if r = 0 then d.kindWord
  else if r = 4 then d.flagsWord
  else if r = 8 then d.predictor
  else d.columns

/-- A write to one of a descriptor's four registers: "stores the written bits of its implemented fields and ignores its
reserved bits" (10_state.md R43, R47). -/
def Desc.write (d : Desc) (r : Nat) (v : Word) : Desc :=
  if r = 0 then { d with kind := v.setWidth 8 }
  else if r = 4 then
    { d with predP := v.getLsbD 0, colsP := v.getLsbD 1, cnameP := v.getLsbD 2, ctypeP := v.getLsbD 3 }
  else if r = 8 then { d with predictor := v }
  else { d with columns := v }

/-- The offset lies in an implemented descriptor (10_state.md R30, R44). -/
def State.isStageOffset (s : State) (off : Nat) : Bool := 0x100 ≤ off && off < 0x100 + 16 * s.params.stageMax

/-- A register as it reads, for an aligned offset of the register page; `none` for an unassigned one (10_state.md R30-R44). -/
def State.regRead (s : State) (off : Nat) : Option Word :=
  if off = 0x000 then some 0x50444643
  else if off = 0x004 then some 0x00000001
  else if off = 0x008 then some (BitVec.ofNat 32 s.params.inCap)
  else if off = 0x00C then some (BitVec.ofNat 32 s.params.outCap)
  else if off = 0x010 then some (BitVec.ofNat 32 s.params.stageMax)
  else if off = 0x020 then some (BitVec.ofNat 32 s.irqEn.toNat)
  else if off = 0x024 then some s.statusWord
  else if off = 0x028 then some 0
  else if off = 0x02C then some s.inLen
  else if off = 0x030 then some s.outLen
  else if off = 0x034 then some s.keyLen
  else if off = 0x038 then some s.nstages
  else if off = 0x040 then some (s.errCode.setWidth 32)
  else if off = 0x044 then some s.errStage
  else if off = 0x048 then some s.errInfo
  else if s.isStageOffset off then some ((s.desc ((off - 0x100) / 16)).read (off % 16))
  else none

/-- An accepted write of `v` to a register; `none` for an unassigned offset (10_state.md R31-R44, R47). Read-only registers
ignore it; CMD starts a command (40_pipeline.md R150). -/
def State.regWrite (s : State) (off : Nat) (v : Word) : Option State :=
  if off = 0x000 || off = 0x004 || off = 0x008 || off = 0x00C || off = 0x010 then some s
  else if off = 0x020 then some { s with irqEn := v.getLsbD 0 }
  else if off = 0x024 then some (s.acknowledge v)
  else if off = 0x028 then some (s.startCommand v)
  else if off = 0x02C then some { s with inLen := v }
  else if off = 0x030 then some s
  else if off = 0x034 then some { s with keyLen := v }
  else if off = 0x038 then some { s with nstages := v }
  else if off = 0x040 || off = 0x044 || off = 0x048 then some s
  else if s.isStageOffset off then
    let k := (off - 0x100) / 16
    some { s with stages := s.stages.set k ((s.desc k).write (off % 16) v) }
  else none

/-! ## The buffers (20_memory.md R80, R86) -/

/-- All `n` bytes from `off` on lie inside the window (20_memory.md R86). -/
def insideWindow (base size off n : Nat) : Bool := base ≤ off && off + n ≤ base + size

/-- The host may write these bytes: naturally aligned, inside KEY_BUF or IN_BUF (20_memory.md R80, R86, R88). -/
def State.writableBuffer (s : State) (off n : Nat) : Bool :=
  off % n == 0 && (insideWindow keyBase 256 off n || insideWindow inBase s.params.inCap off n)

/-- The host may read these bytes: naturally aligned, inside one of the three buffers (20_memory.md R80, R86). -/
def State.readableBuffer (s : State) (off n : Nat) : Bool :=
  s.writableBuffer off n || (off % n == 0 && insideWindow outBase s.params.outCap off n)

/-- Little-endian composition (20_memory.md R87). -/
def natOfLe : List Byte → Nat
  | [] => 0
  | b :: bs => b.toNat + 256 * natOfLe bs

/-- `v[8i+7 : 8i]` for i in 0..n (20_memory.md R87). -/
def leBytes : (n : Nat) → (v : Nat) → List Byte
  | 0, _ => []
  | n + 1, v => BitVec.ofNat 8 v :: leBytes n (v / 256)

/-! ## Accesses -/

/-- `MemRead(off, n)` (20_memory.md R83-R87, R92). A buffer read uses up one draw of free bytes (assumption log 4). -/
def State.memRead (s : State) (off : Nat) (n : Width) : State × Response :=
  if off < 0x1000 then
    if n = .w4 ∧ off % 4 = 0 then
      match s.regRead off with
      | some v => (s, .okayRead v)
      | none => (s, .busError)
    else (s, .busError)
  else if s.readableBuffer off n.bytes then
    ({ s with draw := s.draw + 1 }, .okayRead (BitVec.ofNat 32 (natOfLe (s.bytesAt off n.bytes))))
  else (s, .busError)

/-- `MemWrite(off, n, v)` (20_memory.md R83-R88). "While STATUS.BUSY = 1 ... Writes to CTRL and to STATUS are accepted ...
Every other write gets BUS_ERROR and has no effect" (R92). -/
def State.memWrite (s : State) (off : Nat) (n : Width) (v : Word) : State × Response :=
  if off < 0x1000 then
    if n = .w4 ∧ off % 4 = 0 ∧ (s.busy = false ∨ off = 0x020 ∨ off = 0x024) then
      match s.regWrite off v with
      | some t => (t, .okayWrite)
      | none => (s, .busError)
    else (s, .busError)
  else if s.busy = false ∧ s.writableBuffer off n.bytes then
    ({ s with mem := s.mem.setBytes off (leBytes n.bytes v.toNat) }, .okayWrite)
  else (s, .busError)

/-- The offset of a platform address in the aperture of 4 MiB at `BASE` (20_memory.md R80). -/
def State.apertureOffset (s : State) (addr : Nat) : Option Nat :=
  if s.params.base ≤ addr ∧ addr < s.params.base + 0x400000 then some (addr - s.params.base) else none

/-- A host access on the platform's bus. One outside the aperture does not reach the core: no response (assumption log 14). -/
def State.access (s : State) : Access → State
  | .read addr n =>
    match s.apertureOffset addr with
    | some off => let r := s.memRead off n; { r.1 with resp := some r.2 }
    | none => { s with resp := none }
  | .write addr n v =>
    match s.apertureOffset addr with
    | some off => let r := s.memWrite off n v; { r.1 with resp := some r.2 }
    | none => { s with resp := none }

end Sys2Proof.Machine
end

