-- ==== Sys2Proof/Machine/Dispatch.lean ====
section
/-! DEFINITION. The dispatch: one arm per instruction. -/

namespace Sys2Proof.Machine

/-- The effect of one instruction. -/
def exec (i : Instr) (s : State) : Host.Outcome State Fault Refusal :=
  match i with
  | .decode => Sys2Proof.Machine.execDecode s
  | .flateEncode => Sys2Proof.Machine.execFlateEncode s
  | .rc4 => Sys2Proof.Machine.execRc4 s
  | .illegalCommand w => Sys2Proof.Machine.execIllegalCommand w s
  | .flate predictor columns => Sys2Proof.Machine.execFlate predictor columns s
  | .ahx => Sys2Proof.Machine.execAhx s
  | .lzw => Sys2Proof.Machine.execLzw s
  | .a85 => Sys2Proof.Machine.execA85 s
  | .crypt => Sys2Proof.Machine.execCrypt s
  | .cryptNamed cname ctype => Sys2Proof.Machine.execCryptNamed cname ctype s
  | .kindUnknown kind => Sys2Proof.Machine.execKindUnknown kind s
  | .predNone => Sys2Proof.Machine.execPredNone s
  | .predPng10 => Sys2Proof.Machine.execPredPng10 s
  | .predPng11 => Sys2Proof.Machine.execPredPng11 s
  | .predPng12 => Sys2Proof.Machine.execPredPng12 s
  | .predPng13 => Sys2Proof.Machine.execPredPng13 s
  | .predPng14 => Sys2Proof.Machine.execPredPng14 s
  | .predPng15 => Sys2Proof.Machine.execPredPng15 s
  | .predUnsupported value => Sys2Proof.Machine.execPredUnsupported value s
  | .pngNone => Sys2Proof.Machine.execPngNone s
  | .pngSub => Sys2Proof.Machine.execPngSub s
  | .pngUp => Sys2Proof.Machine.execPngUp s
  | .pngUnsupported ft => Sys2Proof.Machine.execPngUnsupported ft s
  | .lzwLiteral b => Sys2Proof.Machine.execLzwLiteral b s
  | .lzwClear => Sys2Proof.Machine.execLzwClear s
  | .lzwStop => Sys2Proof.Machine.execLzwStop s
  | .lzwDict code => Sys2Proof.Machine.execLzwDict code s
  | .lzwSelf code => Sys2Proof.Machine.execLzwSelf code s
  | .lzwInvalid code => Sys2Proof.Machine.execLzwInvalid code s
  | .a85Begin => Sys2Proof.Machine.execA85Begin s
  | .a85Digit c => Sys2Proof.Machine.execA85Digit c s
  | .a85Z => Sys2Proof.Machine.execA85Z s
  | .a85End => Sys2Proof.Machine.execA85End s
  | .a85Ws c => Sys2Proof.Machine.execA85Ws c s
  | .a85Invalid c => Sys2Proof.Machine.execA85Invalid c s
  | .ahxDigit c => Sys2Proof.Machine.execAhxDigit c s
  | .ahxWs c => Sys2Proof.Machine.execAhxWs c s
  | .ahxEnd => Sys2Proof.Machine.execAhxEnd s
  | .ahxInvalid c => Sys2Proof.Machine.execAhxInvalid c s
  | .zlibStored bfinal => Sys2Proof.Machine.execZlibStored bfinal s
  | .zlibFixed bfinal => Sys2Proof.Machine.execZlibFixed bfinal s
  | .zlibDynamic bfinal => Sys2Proof.Machine.execZlibDynamic bfinal s
  | .zlibReserved bfinal => Sys2Proof.Machine.execZlibReserved bfinal s
  | .defLiteral b => Sys2Proof.Machine.execDefLiteral b s
  | .defEob => Sys2Proof.Machine.execDefEob s
  | .defLength sym => Sys2Proof.Machine.execDefLength sym s
  | .defLenInvalid sym => Sys2Proof.Machine.execDefLenInvalid sym s
  | .defDist sym => Sys2Proof.Machine.execDefDist sym s
  | .defDistInvalid sym => Sys2Proof.Machine.execDefDistInvalid sym s
  | .defClLiteral len => Sys2Proof.Machine.execDefClLiteral len s
  | .defClRepeat => Sys2Proof.Machine.execDefClRepeat s
  | .defClZero3 => Sys2Proof.Machine.execDefClZero3 s
  | .defClZero11 => Sys2Proof.Machine.execDefClZero11 s

end Sys2Proof.Machine
end

