-- ==== Sys2Proof/Machine/Turn.lean ====
section
/-! DEFINITION. One turn of the Core: read, decode, move the cursor, execute. -/

namespace Sys2Proof.Machine

/-- One turn of the Core. While no command runs nothing changes (60_exceptions.md R399). -/
def coreTurn (s : State) : Host.Outcome State Fault Refusal :=
  match s.site with
  | .idle => .next s
  | .auto => .next s.auto
  | .code f bits =>
    match Sys2Proof.decode f bits with
    | .ok (i, n) => exec i (s.advance n)
    | .error _ => .next s.reject

end Sys2Proof.Machine
end

