-- ==== Sys2Proof/Machine/Step.lean ====
section
/-! DEFINITION. One step of the machine: what the outside world does next, or a turn of the Core. -/

namespace Sys2Proof.Machine

/-- One step. The events happen in their order (20_memory.md R93); with none left the Core goes on by itself (R96). -/
def step (s : State) : Host.Outcome State Fault Refusal :=
  match s.inputs with
  | [] => coreTurn s
  | .core :: rest => coreTurn { s with inputs := rest }
  | .access a :: rest => .next ({ s with inputs := rest }.access a)
  | .reset :: rest => .next { s with inputs := rest }.powerReset

/-- `s` with an instruction word of the opcode table placed where `step` reads its next instruction (assumption log 8). -/
def State.withFetchWord (s : State) (nbits w : Nat) : State := s.placeWord nbits w

end Sys2Proof.Machine
end

