-- ==== Sys2Proof/Machine/Reference.lean ====
section
/-! DEFINITION. Every command as one total function "from those inputs to a result" (00_scope.md R10), as the pseudocode writes it. The claims compare the machine's turns with these functions; no step calls them, but for INFLATE in the encoder. -/

namespace Sys2Proof.Machine

/-- What a unit returns: its output, or an error and its payload (00_scope.md R15). -/
abbrev UnitResult := Except (ErrCode × Word) (List Byte)

/-! ## ASCIIHex (44_asciihex.md R340) -/

/-- The loop of AHX over the rest of the input. -/
def ahxLoop : (pend : Option (BitVec 4)) → (out rest : List Byte) → UnitResult
  | pend, out, [] => if pend = none then .ok out else .error (.invalidHexDigitCount, 0)
  | pend, out, c :: cs =>
    if c = 0x3E then (if pend = none then .ok out else .error (.invalidHexDigitCount, 0))
    else if isWhitespace c then ahxLoop pend out cs
    else if isHexDigit c then
      match pend with
      | none => ahxLoop (some (hexValue c)) out cs
      | some h => ahxLoop none (out ++ [h ++ hexValue c]) cs
    else .error (.invalidHexChar, c.setWidth 32)

/-- `AHX(s)`. -/
def ahxDecode (s : List Byte) : UnitResult := ahxLoop none [] s

/-! ## ASCII85 (43_ascii85.md R301) -/

/-- The loop of A85 over the rest of the text without whitespace. -/
def a85Loop : (group : List Nat) → (out rest : List Byte) → UnitResult
  | group, out, [] =>
    match a85Final group with
    | some bs => .ok (out ++ bs)
    | none => .error (.invalidA85Group, 0)
  | group, out, c :: cs =>
    if c = 0x7E ∧ cs.head? = some 0x3E then
      match a85Final group with
      | some bs => .ok (out ++ bs)
      | none => .error (.invalidA85Group, 0)
    else if c = 0x7A ∧ group = [] then a85Loop group (out ++ [0, 0, 0, 0]) cs
    else if c.toNat < 33 ∨ 85 ≤ c.toNat - 33 then .error (.invalidA85Char, c.setWidth 32)
    else
      let group' := group ++ [c.toNat - 33]
      if group'.length = 5 then
        match a85Emit group' with
        | some bs => a85Loop [] (out ++ bs) cs
        | none => .error (.invalidA85Group, 0)
      else a85Loop group' out cs

/-- `A85(s)`. -/
def a85Decode (s : List Byte) : UnitResult :=
  let t := s.filter fun c => !isWhitespace c
  a85Loop [] [] (if t.take 2 = [0x3C, 0x7E] then t.drop 2 else t)

/-! ## LZW (42_lzw.md R260) -/

/-- The loop of LZW. Every turn reads at least 9 bits (R271), so `len(s)` turns are enough. The dictionary is the function
from codes to strings; `dl`, `w`, `previous`, `pos` and `out` are the pseudocode's. -/
def lzwLoop (s : List Byte) : (fuel : Nat) → (dict : Nat → List Byte) → (dl w : Nat) → (previous : Option Nat) → (pos : Nat) →
    (out : List Byte) → UnitResult
  | 0, _, _, _, _, _, _ => .error (.truncatedLzwStream, 0)
  | fuel + 1, dict, dl, w, previous, pos, out =>
    if pos + w > 8 * s.length then .error (.truncatedLzwStream, 0)
    else
      let code := natOfMsb (windowMsb s pos w)
      let invalid : UnitResult := .error (.invalidLzwCode, BitVec.ofNat 32 code)
      let insert (entry : List Byte) (out : List Byte) : UnitResult :=
        if dl = 4096 then .error (.lzwDictFull, 0)
        else
          lzwLoop s fuel (fun c => if c = dl then entry else dict c) (dl + 1)
            (if dl + 1 ≥ 2 ^ w - 1 ∧ w < 12 then w + 1 else w) (some code) (pos + w) out
      if code = 257 then .ok out
      else if code = 256 then lzwLoop s fuel dict 258 9 none (pos + w) out
      else
        match previous with
        | none => if code ≥ dl then invalid else lzwLoop s fuel dict dl w (some code) (pos + w) (out ++ dict code)
        | some p =>
          if code < dl then insert (dict p ++ (dict code).take 1) (out ++ dict code)
          else if code = dl then
            let entry := dict p ++ (dict p).take 1
            insert entry (out ++ entry)
          else invalid

/-- `LZW(s)`. -/
def lzwDecode (s : List Byte) : UnitResult :=
  lzwLoop s (s.length + 1) (fun c => if c < 256 then [BitVec.ofNat 8 c] else []) 258 9 none 0 []

/-! ## The predictor and the Flate stage (41_flate.md R190, R223) -/

/-- The loop over `n` rows of `C + 1` bytes (41_flate.md R223). -/
def pngRows (c : Nat) : (n : Nat) → (prev x out : List Byte) → UnitResult
  | 0, _, _, out => .ok out
  | n + 1, prev, x, out =>
    let ft := x.getD 0 0
    let y := (x.drop 1).take c
    let rest := x.drop (c + 1)
    if ft = 0 then pngRows c n y rest (out ++ y)
    else if ft = 1 then pngRows c n (subRow 0 y) rest (out ++ subRow 0 y)
    else if ft = 2 then pngRows c n (upRow prev y) rest (out ++ upRow prev y)
    else .error (.unsupportedPngFilter, ft.setWidth 32)

/-- `PNG_UNPREDICT(x, C)` (41_flate.md R223). -/
def pngUnpredict (x : List Byte) (columns : Option Word) : UnitResult :=
  match columns with
  | none => .error (.invalidParam, 4)
  | some c =>
    if c.toInt < 1 then .error (.invalidParam, 5)
    else if x.length % (c.toNat + 1) ≠ 0 then .error (.predictorRowLength, 0)
    else pngRows c.toNat (x.length / (c.toNat + 1)) (List.replicate c.toNat 0) x []

/-- `FLATE(s, P, C)` (41_flate.md R190). -/
def flateDecode (s : List Byte) (predictor : Word) (columns : Option Word) : UnitResult :=
  match inflate s with
  | none => .error (.inflateError, 0)
  | some x =>
    if predictor = 1 then .ok x
    else if 10 ≤ predictor.toInt ∧ predictor.toInt ≤ 15 then pngUnpredict x columns
    else .error (.unsupportedPredictor, predictor)

/-! ## RC4 (45_rc4.md R361, R362) -/

/-- `KSA(key)`: the steps `i` of the list, from permutation `S` and index `j`. -/
def rc4Ksa (key : List Byte) (perm : List Byte) (j : BitVec 8) : (is : List Nat) → List Byte
  | [] => perm
  | i :: is =>
    let j := j + permAt perm (BitVec.ofNat 8 i) + key.getD (i % key.length) 0
    rc4Ksa key (permSwap perm (BitVec.ofNat 8 i) j) j is

/-- `PRGA(S, data)`. -/
def rc4Prga (perm : List Byte) (i j : BitVec 8) : (data : List Byte) → List Byte
  | [] => []
  | x :: xs =>
    let i := i + 1
    let j := j + permAt perm i
    let perm := permSwap perm i j
    (x ^^^ permAt perm (permAt perm i + permAt perm j)) :: rc4Prga perm i j xs

/-- `rc4(key, data)`. -/
def rc4Crypt (key data : List Byte) : List Byte := rc4Prga (rc4Ksa key identityPerm 0 (List.range 256)) 0 0 data

/-! ## The commands (40_pipeline.md R151, R160, R163; 45_rc4.md R360) -/

/-- The inputs of a command (20_memory.md R94). -/
structure Snapshot where
  params : Params
  op : Word
  inLen : Nat
  input : List Byte
  keyLen : Nat
  key : List Byte
  nstages : Nat
  descs : List Desc
  deriving DecidableEq, Repr

/-- `validate(k)`: the payload of UNSUPPORTED_FILTER, if it fails (40_pipeline.md R153, R154). -/
def validateDesc (d : Desc) : Option Word :=
  if d.kind = 0 ∨ 5 < d.kind.toNat then some (d.kind.setWidth 32)
  else if d.kind = 5 ∧ (d.cnameP ∨ d.ctypeP) then some (BitVec.ofNat 32 (5 ||| d.cnameP.toNat <<< 8 ||| d.ctypeP.toNat <<< 9))
  else none

/-- The first descriptor that fails validation, from index `k` on. -/
def validateChain : (k : Nat) → List Desc → Option Result
  | _, [] => none
  | k, d :: ds =>
    match validateDesc d with
    | some info => some (.err .unsupportedFilter (some k) info)
    | none => validateChain (k + 1) ds

/-- `run_stage(k, s)` (40_pipeline.md R155). -/
def runStage (d : Desc) (s : List Byte) : UnitResult :=
  if d.kind = 1 then
    flateDecode s (if d.predP then d.predictor else 1) (if d.colsP then some d.columns else none)
  else if d.kind = 2 then ahxDecode s
  else if d.kind = 3 then lzwDecode s
  else if d.kind = 4 then a85Decode s
  else .ok s

/-- The stages from index `k` on (40_pipeline.md R151, R156). -/
def runStages (outCap : Nat) : (k : Nat) → List Desc → (cur : List Byte) → Result
  | _, [], cur => .ok cur
  | k, d :: ds, cur =>
    match runStage d cur with
    | .error (e, info) => .err e (some k) info
    | .ok out => if out.length > outCap then .err .capacityExceeded (some k) 0 else runStages outCap (k + 1) ds out

/-- `DECODE()` (40_pipeline.md R151). -/
def decodeStream (x : Snapshot) : Result :=
  if x.inLen > x.params.inCap then .err .invalidParam none 1
  else if x.nstages > x.params.stageMax then .err .invalidParam none 2
  else
    match validateChain 0 (x.descs.take x.nstages) with
    | some r => r
    | none =>
      match runStages x.params.outCap 0 (x.descs.take x.nstages) x.input with
      | .err e stage info => .err e stage info
      | .ok out => if out.length > x.params.outCap then .err .capacityExceeded none 0 else .ok out

/-- `FLATE_ENCODE()` (40_pipeline.md R160). -/
def flateEncodeResult (x : Snapshot) : Result :=
  if x.inLen > x.params.inCap then .err .invalidParam none 1
  else if (deflateEnc x.input).length > x.params.outCap then .err .capacityExceeded none 0
  else .ok (deflateEnc x.input)

/-- `RC4()` (45_rc4.md R360). -/
def rc4Result (x : Snapshot) : Result :=
  if x.inLen > x.params.inCap then .err .invalidParam none 1
  else if x.keyLen < 1 ∨ x.keyLen > 256 then .err .invalidParam none 3
  else if (rc4Crypt x.key x.input).length > x.params.outCap then .err .capacityExceeded none 0
  else .ok (rc4Crypt x.key x.input)

/-- The result of any command word (30_encoding.md R110, R111). -/
def commandResult (x : Snapshot) : Result :=
  if x.op = 1 then decodeStream x
  else if x.op = 2 then flateEncodeResult x
  else if x.op = 3 then rc4Result x
  else .err .illegalCommand none x.op

/-- The snapshot of a state: its input bytes as a command reads them (20_memory.md R94). -/
def State.snapshot (s : State) : Snapshot :=
  { params := s.params, op := s.op, inLen := s.inLen.toNat, input := s.readIn, keyLen := s.keyLen.toNat, key := s.readKey,
    nstages := s.nstages.toNat, descs := s.stages }

end Sys2Proof.Machine
end

