-- ==== Sys2Proof/Safety.lean ====
section
/-! DEFINITION. What a good state is: the invariants that the rules state (10_state.md R34, R40, R48, R50-R63; 42_lzw.md R270; 45_rc4.md R365), in the terms the claims use; and runs of Core turns. -/

namespace Sys2Proof.Machine

/-- Every listed offset lies in one of the three buffers (20_memory.md R80). -/
def State.memInside (s : State) : Prop :=
  ∀ c ∈ s.mem,
    (keyBase ≤ c.1 ∧ c.1 < keyBase + 256) ∨ (inBase ≤ c.1 ∧ c.1 < inBase + s.params.inCap) ∨
      (outBase ≤ c.1 ∧ c.1 < outBase + s.params.outCap)

/-- Nothing is listed in OUT_BUF: every byte of it is unspecified (20_memory.md R92). -/
def State.outUnspecified (s : State) : Prop := ∀ c ∈ s.mem, c.1 < outBase

/-- The Adler-32 sums are those of the output so far (10_state.md R51), and the code-length sequence does not overrun
(41_flate.md R204). -/
def InflateState.Good (st : InflateState) : Prop :=
  (st.adlerA, st.adlerB) = st.out.foldl adlerUpdate (1, 0) ∧ st.adlerA < 65521 ∧ st.adlerB < 65521 ∧
    match st.mode with
    | .codeLens _ hlit hdist lens => lens.length ≤ hlit + hdist
    | .header | .symbols | .distance _ | .trailer => True

/-- "predictor row length is always `columns + 1` bytes ... before reversal and `columns` bytes after" (10_state.md R59). -/
def PngState.Good (st : PngState) : Prop :=
  1 ≤ st.cols ∧ st.prev.length = st.cols ∧ st.x.length % (st.cols + 1) = 0 ∧ st.r * (st.cols + 1) ≤ st.x.length ∧
    st.out.length = st.r * st.cols

/-- The invariants of 42_lzw.md R270, with the seeded entries of R261 and "Here `dl` = 258" of R266. -/
def LzwState.Good (st : LzwState) : Prop :=
  258 ≤ st.dl ∧ st.dl ≤ 4096 ∧ 9 ≤ st.w ∧ st.w ≤ 12 ∧ (st.w < 12 → st.dl ≤ 2 ^ st.w - 1) ∧
    st.dl ≤ st.dict.length ∧ st.dict.length ≤ 4096 ∧
    (∀ c < 256, st.entry c = [BitVec.ofNat 8 c]) ∧
    (∀ c < st.dl, c ≠ 256 → c ≠ 257 → st.entry c ≠ []) ∧
    (∀ p, st.previous = some p → p.toNat < st.dl ∧ p.toNat ≠ 256 ∧ p.toNat ≠ 257) ∧
    (st.previous = none → st.dl = 258 ∧ st.w = 9)

/-- "a buffer of at most 5 pending base-85 digits (values 0–84)", cleared at the fifth (10_state.md R54). -/
def A85State.Good (st : A85State) : Prop := st.group.length ≤ 4 ∧ ∀ d ∈ st.group, d < 85

/-- "RC4 permutation is a full 0–255 bijection at all times" (45_rc4.md R365), the key's length (R360), and the order of the
two phases (R361, R362). -/
def Rc4State.Good (st : Rc4State) : Prop :=
  st.perm.Perm identityPerm ∧ 1 ≤ st.key.length ∧ st.key.length ≤ 256 ∧ st.scheduled ≤ 256 ∧
    (st.scheduled < 256 → st.i.toNat = st.scheduled ∧ st.out = []) ∧ st.out.length ≤ st.data.length

/-- The checks that DECODE passes before its stages (40_pipeline.md R151). -/
def State.checked (s : State) : Prop := s.inLen.toNat ≤ s.params.inCap ∧ s.nstages.toNat ≤ s.params.stageMax

/-- The chain has passed validation, and stage `k` or the end of the chain is reached (40_pipeline.md R151, R159; 10_state.md
R50); from stage 1 on the data is some stage's output, of at most `OUT_CAP` bytes (R156). -/
def State.inChain (s : State) : Prop :=
  s.checked ∧ s.k ≤ s.nstages.toNat ∧ (∀ j < s.nstages.toNat, validateDesc (s.desc j) = none) ∧
    (1 ≤ s.k → s.cur.length ≤ s.params.outCap)

/-- A stage runs: `k` is its index, below NSTAGES (10_state.md R50). -/
def State.inStage (s : State) : Prop := s.inChain ∧ s.k < s.nstages.toNat

/-- A result the completion can deliver: an output of at most `OUT_CAP` bytes (40_pipeline.md R156). -/
def Result.Good (outCap : Nat) : Result → Prop
  | .ok out => out.length ≤ outCap
  | .err _ _ _ => True

/-- The working state is as the rules of its unit keep it. -/
def State.workGood (s : State) : Prop :=
  match s.work with
  | .none => True
  | .command => True
  | .validate j => s.checked ∧ j ≤ s.nstages.toNat ∧ ∀ i < j, validateDesc (s.desc i) = none
  | .stage => s.inChain
  | .inflate st => s.inStage ∧ st.Good
  | .predict _ => s.inStage
  | .png st => s.inStage ∧ st.Good
  | .lzw st => s.inStage ∧ st.Good
  | .a85 st => s.inStage ∧ st.Good
  | .ahx _ => s.inStage
  | .rc4 st => st.Good
  | .finish r => r.Good s.params.outCap

/-- A good state of the machine. -/
structure State.Good (s : State) : Prop where
  /-- 00_scope.md R7. -/
  params : s.params.wf
  /-- The descriptors 0 to STAGE_MAX - 1 (10_state.md R43). -/
  stages : s.stages.length = s.params.stageMax
  /-- The memory's canonical form. -/
  memWf : s.mem.wf
  memInside : s.memInside
  /-- "BUSY and DONE are never both 1" (10_state.md R34). -/
  notBusyAndDone : ¬(s.busy = true ∧ s.done = true)
  /-- BUSY is 1 exactly in the phase RUN (40_pipeline.md R150, R152). -/
  busyPhase : s.busy = true ↔ s.phase = .run
  /-- Working state exists exactly while a command runs (10_state.md R50, R57, R63). -/
  busyWork : s.busy = true ↔ s.work ≠ .none
  /-- While a command runs no result is visible (20_memory.md R92, R95). -/
  busyClean : s.busy = true → s.outLen = 0 ∧ s.errCode = 0 ∧ s.errStage = 0 ∧ s.errInfo = 0 ∧ s.outUnspecified
  idleClean : s.busy = false → s.op = 0 ∧ s.k = 0 ∧ s.cur = []
  /-- 10_state.md R37; 40_pipeline.md R156. -/
  outLen : s.outLen.toNat ≤ s.params.outCap
  /-- "A command that succeeds leaves" the error record 0; one that fails has a code of 60_exceptions.md R380 and leaves
  OUT_LEN 0 (10_state.md R37, R40-R42). -/
  record : (s.errCode = 0 ∧ s.errStage = 0 ∧ s.errInfo = 0) ∨ (s.outLen = 0 ∧ ∃ e : ErrCode, s.errCode = e.toByte)
  work : s.workGood

/-- The host reads the word `v` from the register at `off`, and the read changes nothing (10_state.md R47). -/
def State.reads (s : State) (off : Nat) (v : Word) : Prop := s.memRead off .w4 = (s, .okayRead v)

/-- The implemented bits of the read/write register at `off`, if it is one that only stores what is written (10_state.md R33,
R36, R38, R39, R43, R47). CMD and STATUS are no such registers. -/
def State.writeMask (s : State) (off : Nat) : Option Word :=
  if off = 0x020 then some 0x00000001
  else if off = 0x02C ∨ off = 0x034 ∨ off = 0x038 then some 0xFFFFFFFF
  else if 0x100 ≤ off ∧ off < 0x100 + 16 * s.params.stageMax ∧ off % 4 = 0 then
    some (if off % 16 = 0 then 0x000000FF else if off % 16 = 4 then 0x0000000F else 0xFFFFFFFF)
  else none

/-- The offset belongs to a register that 10_state.md R30 lists. -/
def State.listed (s : State) (off : Nat) : Prop :=
  off / 4 * 4 ∈ [0x000, 0x004, 0x008, 0x00C, 0x010, 0x020, 0x024, 0x028, 0x02C, 0x030, 0x034, 0x038, 0x040, 0x044, 0x048] ∨
    (0x100 ≤ off ∧ off < 0x100 + 16 * s.params.stageMax)

/-- The offset is unassigned (10_state.md R44; 20_memory.md R80, R85). -/
def State.unassigned (s : State) (off : Nat) : Prop :=
  (off < 0x1000 ∧ ¬s.listed off) ∨
    (0x1000 ≤ off ∧ ¬(0x001000 ≤ off ∧ off < 0x001100) ∧ ¬(0x100000 ≤ off ∧ off < 0x100000 + s.params.inCap) ∧
      ¬(0x200000 ≤ off ∧ off < 0x200000 + s.params.outCap))

/-- `n` bytes from `off` on, naturally aligned, all of them inside the window of `size` bytes at `base` (20_memory.md R86). -/
def insideAligned (base size off n : Nat) : Prop := off % n = 0 ∧ base ≤ off ∧ off + n ≤ base + size

/-- `st'` is `st` after the insertion of `entry` and the step to the code `code`, but for the output (42_lzw.md R269). -/
def LzwState.Inserted (st : LzwState) (entry : List Byte) (code : BitVec 12) (st' : LzwState) : Prop :=
  st'.entry st.dl = entry ∧ (∀ c, c ≠ st.dl → st'.entry c = st.entry c) ∧ st'.dl = st.dl + 1 ∧
    st'.w = (if 2 ^ st.w - 1 ≤ st.dl + 1 ∧ st.w < 12 then st.w + 1 else st.w) ∧ st'.previous = some code ∧ st'.pos = st.pos

/-- What a unit's result makes of the state in which its stage runs (40_pipeline.md R151; 00_scope.md R15). -/
def State.settleResult (s : State) : UnitResult → State
  | .ok out => s.endStage out
  | .error (e, info) => s.raiseStage e info

/-- The Core, with its turns alone, takes `s` to `t`: some number of steps, none of which stops. -/
def Reaches (s t : State) : Prop := ∃ n, Sys2Proof.core.run n s = .next t

end Sys2Proof.Machine
end

