-- ==== Sys2Proof/Certificates/Slice0/Obligations.lean ====
section
/-! DEFINITION. The statements about the core, from the numbered rules of the spec. `{ s with ... }` in a conclusion is the frame: every field that it does not name, the memory among them, is unchanged. -/

open Sys2Proof Sys2Proof.Machine

/-! ## Reset and registers -/

/-- 10_state.md R61, over the table of R30: what the host reads after reset, from whatever state reset came; and a chain that
uses a descriptor nobody wrote fails in validation. -/
def Obligations.ResetValues : Prop :=
  ∀ s t : State, s.params.wf → (t = State.reset ∨ step { s with inputs := .reset :: s.inputs } = .next t) →
    (t.reads 0x000 0x50444643 ∧ t.reads 0x004 0x00000001 ∧ t.reads 0x008 (BitVec.ofNat 32 t.params.inCap) ∧
      t.reads 0x00C (BitVec.ofNat 32 t.params.outCap) ∧ t.reads 0x010 (BitVec.ofNat 32 t.params.stageMax)) ∧
    (∀ off ∈ [0x020, 0x024, 0x02C, 0x030, 0x034, 0x038, 0x040, 0x044, 0x048], t.reads off 0x00000000) ∧
    (∀ k < t.params.stageMax, ∀ r ∈ [0, 4, 8, 12], t.reads (0x100 + 16 * k + r) 0x00000000) ∧
    t.irq = false ∧
    ∀ (u : State) (j : Nat), u.work = .validate j → j < u.nstages.toNat → u.desc j = Desc.zero →
      coreTurn u = .next { u with work := .finish (.err .unsupportedFilter (some j) 0) }

/-- 10_state.md R63 and 70_reset_and_hazards.md R421: reset in any state, a running command's included. The command is gone:
the Core's turns change nothing any more. -/
def Obligations.ResetAbandonsCommand : Prop :=
  ∀ s : State, ∃ t, step { s with inputs := .reset :: s.inputs } = .next t ∧
    t.phase = .idle ∧ t.work = .none ∧ t.busy = false ∧ t.done = false ∧ t.irq = false ∧
    t.outLen = 0 ∧ t.errCode = 0 ∧ t.errStage = 0 ∧ t.errInfo = 0 ∧ (∀ a, t.mem.get a = none) ∧
    coreTurn t = .next t ∧ t.params = s.params ∧ t.inputs = s.inputs

/-- The state after reset is a good state (Safety.lean). -/
def Obligations.ResetIsGood : Prop := State.reset.Good

/-- 10_state.md R31 and R32: the hardwired registers read as constants, and a write changes nothing; it completes normally
exactly while no command runs. -/
def Obligations.HardwiredRegisters : Prop :=
  ∀ s : State,
    (s.reads 0x000 0x50444643 ∧ s.reads 0x004 0x00000001 ∧ s.reads 0x008 (BitVec.ofNat 32 s.params.inCap) ∧
      s.reads 0x00C (BitVec.ofNat 32 s.params.outCap) ∧ s.reads 0x010 (BitVec.ofNat 32 s.params.stageMax)) ∧
    ∀ off ∈ [0x000, 0x004, 0x008, 0x00C, 0x010], ∀ v,
      s.memWrite off .w4 v = (s, if s.busy then .busError else .okayWrite)

/-- 10_state.md R34: the bits of STATUS as read; what a write of `v` does, in any state; BUSY from the accepted CMD write until
completion, DONE from completion until the host or the next CMD write clears it; never both. -/
def Obligations.StatusRegister : Prop :=
  (∀ s : State, ∃ v, s.reads 0x024 v ∧ v.getLsbD 0 = s.busy ∧ v.getLsbD 1 = s.done ∧ (v.getLsbD 2 = true ↔ s.errCode ≠ 0) ∧
    ∀ i, 3 ≤ i → v.getLsbD i = false) ∧
  (∀ (s : State) (v : Word), s.memWrite 0x024 .w4 v = ({ s with done := s.done && !v.getLsbD 1 }, .okayWrite)) ∧
  (∀ (s : State) (w : Word), s.busy = false →
    (s.memWrite 0x028 .w4 w).1.busy = true ∧ (s.memWrite 0x028 .w4 w).1.done = false) ∧
  (∀ (s : State) (r : Result), s.work = .finish r → ∃ t, coreTurn s = .next t ∧ t.busy = false ∧ t.done = true) ∧
  ∀ s t : State, s.Good → step s = .next t → ¬(t.busy = true ∧ t.done = true)

/-- 10_state.md R48: the five events of the table, and no other step changes a flag. -/
def Obligations.FlagEvents : Prop :=
  ∀ s : State, s.Good →
    (∃ t, step { s with inputs := .reset :: s.inputs } = .next t ∧ t.busy = false ∧ t.done = false ∧ t.errorFlag = false) ∧
    (∀ w, s.busy = false → ∃ t, s.memWrite 0x028 .w4 w = (t, .okayWrite) ∧ t.busy = true ∧ t.done = false ∧ t.errorFlag = false) ∧
    (∀ out, s.work = .finish (.ok out) → ∃ t, coreTurn s = .next t ∧ t.busy = false ∧ t.done = true ∧ t.errorFlag = false) ∧
    (∀ e k info, s.work = .finish (.err e k info) →
      ∃ t, coreTurn s = .next t ∧ t.busy = false ∧ t.done = true ∧ t.errorFlag = true) ∧
    (∀ v, v.getLsbD 1 = true → ∃ t, s.memWrite 0x024 .w4 v = (t, .okayWrite) ∧
      t.busy = s.busy ∧ t.done = false ∧ t.errorFlag = s.errorFlag) ∧
    (∀ t, coreTurn s = .next t → (∀ r, s.work ≠ .finish r) →
      t.busy = s.busy ∧ t.done = s.done ∧ t.errCode = s.errCode) ∧
    (∀ off n v, ¬(off = 0x024 ∨ off = 0x028) →
      (s.memWrite off n v).1.busy = s.busy ∧ (s.memWrite off n v).1.done = s.done ∧ (s.memWrite off n v).1.errCode = s.errCode) ∧
    ∀ off n, (s.memRead off n).1.busy = s.busy ∧ (s.memRead off n).1.done = s.done ∧ (s.memRead off n).1.errCode = s.errCode

/-- 10_state.md R49: `irq` is DONE and IRQ_EN as the host reads them; the host lowers it by clearing either, a CMD write lowers
it, and a completion raises it exactly where IRQ_EN is 1. -/
def Obligations.InterruptLine : Prop :=
  ∀ s : State,
    (∀ v c, s.reads 0x024 v → s.reads 0x020 c → s.irq = (v.getLsbD 1 && c.getLsbD 0)) ∧
    (∀ v, v.getLsbD 1 = true → (s.memWrite 0x024 .w4 v).1.irq = false) ∧
    (∀ v, v.getLsbD 0 = false → (s.memWrite 0x020 .w4 v).1.irq = false ∧ (s.memWrite 0x020 .w4 v).1.done = s.done) ∧
    (∀ w, s.busy = false → (s.memWrite 0x028 .w4 w).1.irq = false) ∧
    ∀ r, s.work = .finish r → ∃ t, coreTurn s = .next t ∧ t.irq = s.irqEn

/-- 10_state.md R47: a write to a read/write register stores its implemented bits, as read back, and no other register reads
otherwise than before; a write to a read-only register is ignored; while a command runs, every write but those to CTRL and
STATUS gets BUS_ERROR and changes nothing; no register read changes anything. -/
def Obligations.RegisterWrites : Prop :=
  ∀ s : State, s.params.wf → s.stages.length = s.params.stageMax →
    (∀ off v mask, s.writeMask off = some mask → (s.busy = false ∨ off = 0x020) →
      ∃ t, s.memWrite off .w4 v = (t, .okayWrite) ∧ t.reads off (v &&& mask) ∧
        (∀ off' u, off' ≠ off → s.reads off' u → t.reads off' u) ∧
        t = { s with irqEn := t.irqEn, inLen := t.inLen, keyLen := t.keyLen, nstages := t.nstages, stages := t.stages }) ∧
    (∀ off ∈ [0x000, 0x004, 0x008, 0x00C, 0x010, 0x030, 0x040, 0x044, 0x048], ∀ v, s.busy = false →
      s.memWrite off .w4 v = (s, .okayWrite)) ∧
    (∀ off n v, s.busy = true → ¬(off = 0x020 ∨ off = 0x024) → s.memWrite off n v = (s, .busError)) ∧
    ∀ off n, off < 0x1000 → (s.memRead off n).1 = s

/-! ## The host port -/

/-- 20_memory.md R84 and R85: which accesses reach nothing. -/
def Obligations.RegisterPageAccess : Prop :=
  ∀ (s : State) (off : Nat) (n : Width) (v : Word),
    ((off < 0x1000 ∧ (n ≠ .w4 ∨ off % 4 ≠ 0)) ∨ s.unassigned off) →
      s.memRead off n = (s, .busError) ∧ s.memWrite off n v = (s, .busError)

/-- 20_memory.md R86 and R88: a buffer access is accepted exactly where it is naturally aligned and lies inside one window;
for a write, inside KEY_BUF or IN_BUF and while no command runs (R92). Otherwise it gets BUS_ERROR and changes nothing. -/
def Obligations.BufferAccess : Prop :=
  ∀ (s : State) (off : Nat) (n : Width) (v : Word), s.params.wf → 0x1000 ≤ off →
    let key := insideAligned 0x001000 256 off n.bytes
    let input := insideAligned 0x100000 s.params.inCap off n.bytes
    let output := insideAligned 0x200000 s.params.outCap off n.bytes
    ((key ∨ input ∨ output) → ∃ x, (s.memRead off n).2 = .okayRead x) ∧
    (¬(key ∨ input ∨ output) → s.memRead off n = (s, .busError)) ∧
    (s.busy = false ∧ (key ∨ input) → (s.memWrite off n v).2 = .okayWrite) ∧
    (¬(s.busy = false ∧ (key ∨ input)) → s.memWrite off n v = (s, .busError)) ∧
    (0x200000 ≤ off → s.memWrite off n v = (s, .busError))

/-- 20_memory.md R87: the value an accepted buffer read returns, and the bytes an accepted buffer write sets, least significant
first, whatever the widths; no other byte changes. A register is reached only as a whole word. -/
def Obligations.LittleEndianPort : Prop :=
  (∀ (s : State) (off : Nat) (n : Width), 0x1000 ≤ off →
    (∀ x, (s.memRead off n).2 = .okayRead x →
      x.toNat = ((List.range n.bytes).map fun i => (s.byteAt (off + i)).toNat * 256 ^ i).sum) ∧
    ∀ v t, s.memWrite off n v = (t, .okayWrite) →
      (∀ i < n.bytes, t.mem.get (off + i) = some (v.extractLsb' (8 * i) 8)) ∧
      (∀ a, (a < off ∨ off + n.bytes ≤ a) → t.mem.get a = s.mem.get a) ∧
      t = { s with mem := t.mem }) ∧
  ∀ (s : State) (off : Nat) (n : Width), off < 0x1000 → n ≠ .w4 →
    (s.memRead off n).2 = .busError ∧ ∀ v, (s.memWrite off n v).2 = .busError

/-- 20_memory.md R90: no read has a side effect on the core (only the model's own counter of free bytes moves on, at an
accepted buffer read); repeating an accepted write other than one to CMD has no further effect; an accepted CMD write starts
a command, and one that is repeated at once is refused. -/
def Obligations.RepeatedAccess : Prop :=
  ∀ (s : State) (off : Nat) (n : Width) (v : Word),
    (s.memRead off n).1 = { s with draw := (s.memRead off n).1.draw } ∧
    (∀ t, s.memWrite off n v = (t, .okayWrite) → off ≠ 0x028 → t.memWrite off n v = (t, .okayWrite)) ∧
    ∀ t, s.memWrite 0x028 .w4 v = (t, .okayWrite) → t.work = .command ∧ t.op = v ∧ t.memWrite 0x028 .w4 v = (t, .busError)

/-- 60_exceptions.md R385: an access that gets BUS_ERROR changes no state of the core, so it sets no error code, sets no DONE
and raises no interrupt. -/
def Obligations.BusErrorsChangeNothing : Prop :=
  ∀ (s : State) (off : Nat) (n : Width) (v : Word),
    ((s.memRead off n).2 = .busError → (s.memRead off n).1 = s) ∧
    ((s.memWrite off n v).2 = .busError → (s.memWrite off n v).1 = s)

/-- A host access in the queue is the machine's next step, in the order the host issued it, at the offset that the platform
address has in the aperture; one outside the aperture changes nothing of the core (20_memory.md R80, R83, R93; `resp` is the
model's own field, log 14). -/
def Obligations.HostAccessStep : Prop :=
  ∀ (s : State) (rest : List Event) (addr : Nat) (n : Width) (v : Word),
    (∀ off < 0x400000, addr = s.params.base + off →
      (∃ t x, { s with inputs := rest }.memRead off n = (t, x) ∧
        step { s with inputs := .access (.read addr n) :: rest } = .next { t with resp := some x }) ∧
      ∃ t x, { s with inputs := rest }.memWrite off n v = (t, x) ∧
        step { s with inputs := .access (.write addr n v) :: rest } = .next { t with resp := some x }) ∧
    ((addr < s.params.base ∨ s.params.base + 0x400000 ≤ addr) →
      step { s with inputs := .access (.read addr n) :: rest } = .next { s with inputs := rest, resp := none } ∧
      step { s with inputs := .access (.write addr n v) :: rest } = .next { s with inputs := rest, resp := none })

/-- 20_memory.md R92: host accesses while a command runs. A byte of OUT_BUF that is read is drawn freely. -/
def Obligations.AccessWhileBusy : Prop :=
  ∀ s : State, s.Good → s.busy = true →
    (∀ v, s.memWrite 0x020 .w4 v = ({ s with irqEn := v.getLsbD 0 }, .okayWrite)) ∧
    (∀ v, s.memWrite 0x024 .w4 v = ({ s with done := s.done && !v.getLsbD 1 }, .okayWrite)) ∧
    (∀ off n v, ¬(off = 0x020 ∨ off = 0x024) → s.memWrite off n v = (s, .busError)) ∧
    (s.reads 0x020 (if s.irqEn then 0x00000001 else 0x00000000) ∧ s.reads 0x024 0x00000001 ∧ s.reads 0x028 0x00000000 ∧
      s.reads 0x02C s.inLen ∧ s.reads 0x034 s.keyLen ∧ s.reads 0x038 s.nstages ∧
      (∀ off ∈ [0x030, 0x040, 0x044, 0x048], s.reads off 0x00000000) ∧
      ∀ k d, s.stages[k]? = some d → s.reads (0x100 + 16 * k) (d.kind.setWidth 32) ∧
        (∃ v, s.reads (0x104 + 16 * k) v ∧ v.toNat = d.predP.toNat + 2 * d.colsP.toNat + 4 * d.cnameP.toNat + 8 * d.ctypeP.toNat) ∧
        s.reads (0x108 + 16 * k) d.predictor ∧ s.reads (0x10C + 16 * k) d.columns) ∧
    (∀ a b, s.mem.get a = some b →
      (insideAligned 0x001000 256 a 1 ∨ insideAligned 0x100000 s.params.inCap a 1) ∧
        (s.memRead a .w1).2 = .okayRead (b.setWidth 32)) ∧
    ∀ a, insideAligned 0x200000 s.params.outCap a 1 →
      (s.memRead a .w1).2 = .okayRead ((Config.freeByte s.draw a).setWidth 32)

/-- 20_memory.md R91 and R94, 60_exceptions.md R384: from the accepted CMD write on, no step but a reset changes an input of the
command, up to and with its completion. -/
def Obligations.CommandInputsFrozen : Prop :=
  ∀ s t : State, s.busy = true → s.inputs.head? ≠ some .reset → step s = .next t →
    t.inLen = s.inLen ∧ t.keyLen = s.keyLen ∧ t.nstages = s.nstages ∧ t.stages = s.stages ∧ t.params = s.params ∧
      ∀ a, a < 0x200000 → t.mem.get a = s.mem.get a

/-- 20_memory.md R95, 40_pipeline.md R164: a turn of the Core that does not complete the command changes nothing that the host
can see, and no part of a result is visible before completion. -/
def Obligations.ResultsOnlyAtCompletion : Prop :=
  ∀ s t : State, coreTurn s = .next t → (∀ r, s.work ≠ .finish r) →
    t = { s with work := t.work, k := t.k, cur := t.cur, draw := t.draw } ∧
    (s.Good → s.busy = true →
      t.busy = true ∧ t.done = false ∧ t.outLen = 0 ∧ t.errCode = 0 ∧ t.errStage = 0 ∧ t.errInfo = 0 ∧
        ∀ a, 0x200000 ≤ a → t.mem.get a = none)

/-! ## The command cycle -/

/-- 40_pipeline.md R150: the accepted CMD write, and the refused one. That the listed bytes of OUT_BUF go is the model's deduction
from 70_reset_and_hazards.md R428 ("it makes OUT_BUF unspecified until that command completes"; log 6, DEDUCED). -/
def Obligations.CommandStart : Prop :=
  ∀ (s : State) (w : Word),
    (s.busy = false → ∃ m, s.memWrite 0x028 .w4 w =
        ({ s with done := false, outLen := 0, errCode := 0, errStage := 0, errInfo := 0, busy := true, phase := .run, op := w,
                  work := .command, mem := m }, .okayWrite) ∧
      (∀ a < 0x200000, m.get a = s.mem.get a) ∧ (∀ a, 0x200000 ≤ a → m.get a = none)) ∧
    (s.busy = true → s.memWrite 0x028 .w4 w = (s, .busError)) ∧
    (s.busy = false → (s.memWrite 0x028 .w4 w).1.irq = false)

/-- 40_pipeline.md R152 and 60_exceptions.md R390: the completion step, with what it changes and nothing else, and the numbers of
the fifteen error codes (R380). Two clauses are the model's own: `op`, `k` and `cur`, which R50 of 10_state.md gives the sequencer
only while a command runs, are then 0, 0 and empty (log 15, DESIGN CHOICE); and bytes of OUT_BUF past the output hold no value, as
R427 of 70_reset_and_hazards.md leaves them unspecified (log 6, DEDUCED). -/
def Obligations.Completion : Prop :=
  let codes : List (ErrCode × BitVec 8) :=
    [(.unsupportedFilter, 0x01), (.unsupportedPredictor, 0x02), (.unsupportedPngFilter, 0x03), (.truncatedLzwStream, 0x04),
     (.invalidA85Char, 0x05), (.invalidA85Group, 0x06), (.invalidHexDigitCount, 0x07), (.illegalCommand, 0x10),
     (.invalidParam, 0x11), (.inflateError, 0x12), (.predictorRowLength, 0x13), (.invalidLzwCode, 0x14), (.lzwDictFull, 0x15),
     (.invalidHexChar, 0x16), (.capacityExceeded, 0x17)]
  (∀ e : ErrCode, ∃ n, (e, n) ∈ codes) ∧
  ∀ s : State,
    (∀ out, s.work = .finish (.ok out) → ∃ m, coreTurn s =
        .next { s with outLen := BitVec.ofNat 32 out.length, busy := false, done := true, phase := .idle, mem := m,
                       op := 0, k := 0, cur := [], work := .none } ∧
      (∀ a < 0x200000, m.get a = s.mem.get a) ∧ (∀ i, m.get (0x200000 + i) = out[i]?)) ∧
    ∀ e n stage info, (e, n) ∈ codes → s.work = .finish (.err e stage info) → coreTurn s =
      .next { s with errCode := n, errStage := (match stage with | some k => BitVec.ofNat 32 k | none => 0xFFFFFFFF),
                     errInfo := info, busy := false, done := true, phase := .idle, op := 0, k := 0, cur := [], work := .none }

/-- 60_exceptions.md R391: the return from a completion. An acknowledgement clears DONE and nothing else, the next CMD write
clears it too, and no other step changes the error record while no command runs. -/
def Obligations.Acknowledge : Prop :=
  (∀ s : State, s.memWrite 0x024 .w4 0x00000002 = ({ s with done := false }, .okayWrite)) ∧
  (∀ (s : State) (w : Word), s.busy = false → (s.memWrite 0x028 .w4 w).1.done = false) ∧
  ∀ s t : State, s.Good → s.busy = false → step s = .next t → s.inputs.head? ≠ some .reset →
    (∀ addr n v, s.inputs.head? = some (.access (.write addr n v)) → addr ≠ s.params.base + 0x028) →
      t.errCode = s.errCode ∧ t.errStage = s.errStage ∧ t.errInfo = s.errInfo

/-- When the bits that the running unit reads next decode to an instruction, the Core's turn is that instruction, executed with
the unit's cursor moved past it; and a step with no host event before it is that turn. -/
def Obligations.StepRunsDecodedInstruction : Prop :=
  ∀ (s : State) (f : Format) (bits : List Bool) (i : Instr) (n : Nat),
    s.site = .code f bits → decode f bits = .ok (i, n) →
      (s.inputs = [] → step s = exec i (s.advance n)) ∧
      ∀ rest, step { s with inputs := .core :: rest } = exec i ({ s with inputs := rest }.advance n)

/-- No step of the machine faults or refuses, in any state (93_implementation_defined.md: no behaviour of the core is stuck). -/
def Obligations.StepNeverStops : Prop := ∀ s : State, ∃ t, step s = .next t

/-- Every step keeps a good state good: the memory's form, BUSY and DONE, the bounds of every unit's working state (10_state.md
R50-R59; 42_lzw.md R270; 45_rc4.md R365). -/
def Obligations.StepKeepsGood : Prop := ∀ s t : State, s.Good → step s = .next t → t.Good

/-! ## Decoding -/

/-- The decoder reads every well-formed instruction back from what the encoder writes, in every format that spells it, and takes
exactly its bits (30_encoding.md R110-R121). Only the two-byte marks of ASCII85 look ahead: the digit `<` at the start of the text
is no digit before `~`, and `~` is no invalid character before `>` (R118). -/
def Obligations.DecodeEncode : Prop :=
  ∀ (i : Instr) (f : Format) (rest : List Bool), i.wf = true → f.spells i →
    (∀ pending, f = .a85Char true pending → i = .a85Digit 0x3C → rest.take 8 ≠ byteBits 0x7E) →
    (i = .a85Invalid 0x7E → rest.take 8 ≠ byteBits 0x3E) →
    decode f (encode f i ++ rest) = .ok (i, (encode f i).length)

/-- What the decoder answers is well formed, and it takes no more bits than there are (30_encoding.md R110-R123). -/
def Obligations.DecodedIsWellFormed : Prop :=
  ∀ (f : Format) (bits : List Bool) (i : Instr) (n : Nat), decode f bits = .ok (i, n) →
    (∀ w dl afterClear, f = .lzwCode w dl afterClear → w ≤ 12) → i.wf = true ∧ n ≤ bits.length

/-- Where every word has one meaning, the encoder writes the decoded word back: commands, predictors, filter types, LZW codes,
block headers, deflate symbols (30_encoding.md R110, R115-R117, R120, R121). -/
def Obligations.EncodeDecode : Prop :=
  ∀ (f : Format) (bits : List Bool) (i : Instr) (n : Nat), decode f bits = .ok (i, n) →
    (f = .cmd ∨ f = .pred ∨ f = .pngRow ∨ f = .zlibBlock ∨ (∃ w dl ac, f = .lzwCode w dl ac ∧ 9 ≤ w ∧ w ≤ 12) ∨
      ∃ t, prefixFree t ∧ (f = .litLen t ∨ f = .dist t ∨ f = .codeLen t)) →
    encode f i = bits.take n

/-- A few words written out from the spec's tables decode to what they stand for (30_encoding.md R110-R121). -/
def Obligations.KnownWords : Prop :=
  decode .cmd (wordBits 0x00000001) = .ok (.decode, 32) ∧
  decode .cmd (wordBits 0x00000101) = .ok (.illegalCommand 0x00000101, 32) ∧
  decode .stage (wordBits 0x00000001 ++ wordBits 0x00000003 ++ wordBits 0x0000000C ++ wordBits 0x00000002) =
    .ok (.flate (some 12) (some 2), 128) ∧
  decode .pngRow (byteBits 0x02) = .ok (.pngUp, 8) ∧
  decode (.lzwCode 9 258 false) [true, false, false, false, false, false, false, false, false] = .ok (.lzwClear, 9) ∧
  decode (.a85Char false true) (byteBits 0x7E ++ byteBits 0x3E) = .ok (.a85End, 16) ∧
  decode .ahxChar (byteBits 0x61) = .ok (.ahxDigit 0x61, 8) ∧
  decode .zlibBlock [true, false, true] = .ok (.zlibDynamic true, 3)

/-! ## Commands -/

/-- DECODE up to its stages (40_pipeline.md R151; 60_exceptions.md R382): the two length checks, in their order, then validation
from descriptor 0 on. -/
def Obligations.DecodeCommand : Prop :=
  ∀ s : State, s.work = .command →
    (s.params.inCap < s.inLen.toNat → exec .decode s = .next { s with work := .finish (.err .invalidParam none 1) }) ∧
    (s.inLen.toNat ≤ s.params.inCap → s.params.stageMax < s.nstages.toNat →
      exec .decode s = .next { s with work := .finish (.err .invalidParam none 2) }) ∧
    (s.inLen.toNat ≤ s.params.inCap → s.nstages.toNat ≤ s.params.stageMax →
      exec .decode s = .next { s with work := .validate 0 })

/-- 40_pipeline.md R160: FLATE_ENCODE, for whatever encoder of 41_flate.md R230. -/
def Obligations.FlateEncodeCommand : Prop :=
  ∀ s : State, s.work = .command →
    (s.params.inCap < s.inLen.toNat → exec .flateEncode s = .next { s with work := .finish (.err .invalidParam none 1) }) ∧
    (s.inLen.toNat ≤ s.params.inCap → ∃ z d, inflate z = some (s.bytesAt 0x100000 s.inLen.toNat) ∧
      z = deflateEnc (s.bytesAt 0x100000 s.inLen.toNat) ∧
      (z.length ≤ s.params.outCap → exec .flateEncode s = .next { s with work := .finish (.ok z), draw := d }) ∧
      (s.params.outCap < z.length →
        exec .flateEncode s = .next { s with work := .finish (.err .capacityExceeded none 0), draw := d }))

/-- 45_rc4.md R360: RC4, its checks in their order; and from its key schedule on the Core reaches the result, or the capacity
error. -/
def Obligations.Rc4Command : Prop :=
  ∀ s : State, s.work = .command →
    (s.params.inCap < s.inLen.toNat → exec .rc4 s = .next { s with work := .finish (.err .invalidParam none 1) }) ∧
    (s.inLen.toNat ≤ s.params.inCap → (s.keyLen.toNat = 0 ∨ 256 < s.keyLen.toNat) →
      exec .rc4 s = .next { s with work := .finish (.err .invalidParam none 3) }) ∧
    (s.inLen.toNat ≤ s.params.inCap → 1 ≤ s.keyLen.toNat → s.keyLen.toNat ≤ 256 → ∃ t, exec .rc4 s = .next t ∧
      ∃ d, t = { s with work := t.work, draw := d } ∧
        (s.inputs = [] → Reaches t { s with
          draw := d
          work := .finish (if s.inLen.toNat ≤ s.params.outCap
            then .ok (rc4Crypt (s.bytesAt 0x001000 s.keyLen.toNat) (s.bytesAt 0x100000 s.inLen.toNat))
            else .err .capacityExceeded none 0) }))

/-- 30_encoding.md R111 and 40_pipeline.md R163: every other command word. The accepted write starts a command, which ends with
the error. That two turns of the Core end it is the model's choice (log 1, DESIGN CHOICE): the rules give no number of steps. -/
def Obligations.IllegalCommand : Prop :=
  (∀ (s : State) (w : Word), s.work = .command →
    exec (.illegalCommand w) s = .next { s with work := .finish (.err .illegalCommand none w) }) ∧
  ∀ (s : State) (w : Word), s.busy = false → s.inputs = [] → w ≠ 0x00000001 → w ≠ 0x00000002 → w ≠ 0x00000003 →
    ∃ t u, s.memWrite 0x028 .w4 w = (t, .okayWrite) ∧ Sys2Proof.core.run 2 t = .next u ∧
      u.busy = false ∧ u.done = true ∧ u.errCode = 0x10 ∧ u.errStage = 0xFFFFFFFF ∧ u.errInfo = w ∧ u.outLen = 0

/-! ## Validation and dispatch of stages -/

/-- 40_pipeline.md R153 and R154: validation of descriptor `j`, and the instructions it is made of. A descriptor that passes
leads to the next one, so that the first one that fails is reported. -/
def Obligations.Validation : Prop :=
  (∀ (s : State) (j : Nat), s.work = .validate j →
    (∀ i, (∃ p c, i = .flate p c) ∨ i = .ahx ∨ i = .lzw ∨ i = .a85 ∨ i = .crypt →
      exec i s = .next { s with work := .validate (j + 1) }) ∧
    (∀ kind, exec (.kindUnknown kind) s = .next { s with work := .finish (.err .unsupportedFilter (some j) (kind.setWidth 32)) }) ∧
    ∀ cname ctype, exec (.cryptNamed cname ctype) s =
      .next { s with work := .finish (.err .unsupportedFilter (some j)
        (0x05 ||| (BitVec.ofBool cname).setWidth 32 <<< 8 ||| (BitVec.ofBool ctype).setWidth 32 <<< 9)) }) ∧
  ∀ (s : State) (j : Nat), s.work = .validate j → j < s.nstages.toNat →
    ((s.desc j).kind ∉ [0x01, 0x02, 0x03, 0x04, 0x05] →
      coreTurn s = .next { s with work := .finish (.err .unsupportedFilter (some j) ((s.desc j).kind.setWidth 32)) }) ∧
    ((s.desc j).kind = 0x05 → ((s.desc j).cnameP = true ∨ (s.desc j).ctypeP = true) →
      coreTurn s = .next { s with work := .finish (.err .unsupportedFilter (some j)
        (0x05 ||| (BitVec.ofBool (s.desc j).cnameP).setWidth 32 <<< 8 ||| (BitVec.ofBool (s.desc j).ctypeP).setWidth 32 <<< 9)) }) ∧
    ((s.desc j).kind ∈ [0x01, 0x02, 0x03, 0x04] ∨
        ((s.desc j).kind = 0x05 ∧ (s.desc j).cnameP = false ∧ (s.desc j).ctypeP = false) →
      coreTurn s = .next { s with work := .validate (j + 1) })

/-- 40_pipeline.md R155: each stage's unit starts with fresh working state on the stage's input, whatever ran before. -/
def Obligations.StageDispatch : Prop :=
  ∀ s : State, s.work = .stage →
    exec .ahx s = .next { s with work := .ahx { i := 0, pend := none, out := [] } } ∧
    exec .lzw s = .next { s with work := .lzw { dict := lzwSeed, dl := 258, w := 9, previous := none, pos := 0, out := [] } } ∧
    exec .a85 s = .next { s with work := .a85 { t := s.cur, i := 0, group := [], out := [] } } ∧
    (∀ predictor columns, exec (.flate predictor columns) s =
      if 2 ≤ s.cur.length ∧ zlibHeaderOk (s.cur.getD 0 0) (s.cur.getD 1 0) = true then
        .next { s with work := .inflate { pos := 16, bfinal := false, btype := 0, litLen := [], dist := [], mode := .header,
                                          out := [], adlerA := 1, adlerB := 0, predictor := predictor.getD 1,
                                          columns := columns } }
      else .next { s with work := .finish (.err .inflateError (some s.k) 0) }) ∧
    (s.cur.length ≤ s.params.outCap → exec .crypt s = .next { s with cur := s.cur, k := s.k + 1, work := .stage })

/-- 41_flate.md R197 and R198: the header bytes that INFLATE refuses, and the ones that it accepts. -/
def Obligations.ZlibHeader : Prop :=
  ∀ (s : State) (predictor columns : Option Word) (cmf flg : Byte) (rest : List Byte), s.work = .stage → s.cur = cmf :: flg :: rest →
    (((cmf.toNat * 256 + flg.toNat) % 31 ≠ 0 ∨ cmf.extractLsb' 0 4 ≠ 8 ∨ 7 < (cmf.extractLsb' 4 4).toNat ∨ flg.getLsbD 5 = true) →
      exec (.flate predictor columns) s = .next { s with work := .finish (.err .inflateError (some s.k) 0) }) ∧
    (¬((cmf.toNat * 256 + flg.toNat) % 31 ≠ 0 ∨ cmf.extractLsb' 0 4 ≠ 8 ∨ 7 < (cmf.extractLsb' 4 4).toNat ∨ flg.getLsbD 5 = true) →
      ∃ st, exec (.flate predictor columns) s = .next { s with work := .inflate st } ∧ st.pos = 16 ∧ st.mode = .header ∧ st.out = [])

/-- 10_state.md R50, 40_pipeline.md R166: the stage index only moves on, one stage at a time, and stops at NSTAGES; DECODE sets
it to 0 when the stages begin. -/
def Obligations.StageIndex : Prop :=
  ∀ s t : State, s.Good → coreTurn s = .next t → t.busy = true →
    (t.k = s.k ∨ (t.k = s.k + 1 ∧ t.work = .stage ∧ s.k < s.nstages.toNat) ∨
      (s.work = .validate s.nstages.toNat ∧ t.work = .stage ∧ t.k = 0)) ∧
    (t.work = .stage → t.k ≤ t.nstages.toNat)

/-! ## The predictor -/

/-- 41_flate.md R191 and R193: `Predictor` 1 passes the inflated data on, whatever `Columns` is, under the capacity check of
40_pipeline.md R156; any value but 1 and 10 to 15 is refused with the value. -/
def Obligations.PredictorNoneAndUnsupported : Prop :=
  ∀ (s : State) (st : PredictState), s.work = .predict st →
    (st.x.length ≤ s.params.outCap → exec .predNone s = .next { s with cur := st.x, k := s.k + 1, work := .stage }) ∧
    (s.params.outCap < st.x.length →
      exec .predNone s = .next { s with work := .finish (.err .capacityExceeded (some s.k) 0) }) ∧
    (∀ value, exec (.predUnsupported value) s =
      .next { s with work := .finish (.err .unsupportedPredictor (some s.k) value) }) ∧
    (∀ value : Word, value.toInt ≠ 1 → ¬(10 ≤ value.toInt ∧ value.toInt ≤ 15) → st.predictor = value →
      coreTurn s = .next { s with work := .finish (.err .unsupportedPredictor (some s.k) value) })

/-- 41_flate.md R192, R224 and R225: the six PNG predictors behave identically. `Columns` must be there and at least 1, and the
row length must divide the data; then the rows begin, below an all-zero row. -/
def Obligations.PredictorPng : Prop :=
  ∀ (s : State) (st : PredictState), s.work = .predict st →
    ∀ i ∈ [Instr.predPng10, .predPng11, .predPng12, .predPng13, .predPng14, .predPng15],
      (st.columns = none → exec i s = .next { s with work := .finish (.err .invalidParam (some s.k) 4) }) ∧
      ∀ c : Word, st.columns = some c →
        (c.toInt < 1 → exec i s = .next { s with work := .finish (.err .invalidParam (some s.k) 5) }) ∧
        (1 ≤ c.toInt → ¬(c.toNat + 1 ∣ st.x.length) →
          exec i s = .next { s with work := .finish (.err .predictorRowLength (some s.k) 0) }) ∧
        (1 ≤ c.toInt → c.toNat + 1 ∣ st.x.length →
          exec i s = .next { s with work := .png { x := st.x, cols := c.toNat, r := 0, prev := List.replicate c.toNat 0, out := [] } })

/-- 41_flate.md R226, R227, R228 and R229: the row at hand, by its filter type. The row's C data bytes are those after its
filter-type byte; the rows before it are in `out`. -/
def Obligations.PngRows : Prop :=
  ∀ (s : State) (st : PngState), s.work = .png st → st.Good → (st.r + 1) * (st.cols + 1) ≤ st.x.length →
    let data (i : Nat) : Byte := st.x.getD (st.r * (st.cols + 1) + 1 + i) 0
    let row (y : List Byte) : State := { s with work := .png { st with r := st.r + 1, prev := y, out := st.out ++ y } }
    (∃ y, exec .pngNone s = .next (row y) ∧ y.length = st.cols ∧ ∀ i < st.cols, y.getD i 0 = data i) ∧
    (∃ y, exec .pngSub s = .next (row y) ∧ y.length = st.cols ∧ y.getD 0 0 = data 0 ∧
      ∀ i, i + 1 < st.cols → (y.getD (i + 1) 0).toNat = ((data (i + 1)).toNat + (y.getD i 0).toNat) % 256) ∧
    (∃ y, exec .pngUp s = .next (row y) ∧ y.length = st.cols ∧
      ∀ i < st.cols, (y.getD i 0).toNat = ((data i).toNat + (st.prev.getD i 0).toNat) % 256) ∧
    (∀ ft : Byte, exec (.pngUnsupported ft) s =
      .next { s with work := .finish (.err .unsupportedPngFilter (some s.k) (ft.setWidth 32)) }) ∧
    ∀ ft, st.x[st.r * (st.cols + 1)]? = some ft →
      coreTurn s = exec (if ft = 0 then .pngNone else if ft = 1 then .pngSub else if ft = 2 then .pngUp else .pngUnsupported ft) s

/-! ## LZW -/

/-- 42_lzw.md R262 and R263: a code is the next `w` bits, the first most significant, and the cursor moves past it; where the
input ends before, the stage fails. -/
def Obligations.LzwReadsCode : Prop :=
  ∀ (s : State) (st : LzwState), s.work = .lzw st → st.Good →
    (8 * s.cur.length < st.pos + st.w →
      coreTurn s = .next { s with work := .finish (.err .truncatedLzwStream (some s.k) 0) }) ∧
    (st.pos + st.w ≤ 8 * s.cur.length → ∃ code, code < 2 ^ st.w ∧
      (∀ j < st.w, some (code.testBit (st.w - 1 - j)) =
        (s.cur[(st.pos + j) / 8]?).map fun b => b.getLsbD (7 - (st.pos + j) % 8)) ∧
      coreTurn s = exec (decodeLzwCode st.dl st.previous.isNone code)
        { s with work := .lzw { st with pos := st.pos + st.w } })

/-- 42_lzw.md R266: the first code after CLEAR or at the start. -/
def Obligations.LzwFirstCode : Prop :=
  ∀ (s : State) (st : LzwState), s.work = .lzw st → st.Good → st.previous = none →
    st.dl = 258 ∧
    (∀ code, (code < 256 → decodeLzwCode st.dl true code = .lzwLiteral (BitVec.ofNat 8 code)) ∧
      (258 ≤ code → decodeLzwCode st.dl true code = .lzwInvalid (BitVec.ofNat 12 code))) ∧
    (∀ b, exec (.lzwLiteral b) s =
      .next { s with work := .lzw { st with out := st.out ++ [b], previous := some (b.setWidth 12) } }) ∧
    ∀ code, exec (.lzwInvalid code) s =
      .next { s with work := .finish (.err .invalidLzwCode (some s.k) (code.setWidth 32)) }

/-- 42_lzw.md R267 and R269: a code with an entry, after another code. -/
def Obligations.LzwKnownCode : Prop :=
  ∀ (s : State) (st : LzwState) (i : Instr) (code p : BitVec 12), s.work = .lzw st → st.Good → st.previous = some p →
    (i = .lzwDict code ∨ ∃ b : Byte, i = .lzwLiteral b ∧ code = b.setWidth 12) → code.toNat < st.dl →
    code ≠ 256 → code ≠ 257 →
      (st.dl < 4096 → ∃ st', exec i s = .next { s with work := .lzw st' } ∧ st'.out = st.out ++ st.entry code.toNat ∧
        st.Inserted (st.entry p.toNat ++ (st.entry code.toNat).take 1) code st') ∧
      (st.dl = 4096 → exec i s = .next { s with work := .finish (.err .lzwDictFull (some s.k) 0) })

/-- 42_lzw.md R268: the code equal to `dict_length` after another code, and the code above it. -/
def Obligations.LzwSelfReference : Prop :=
  ∀ (s : State) (st : LzwState) (p : BitVec 12), s.work = .lzw st → st.Good → st.previous = some p →
    (∀ code : BitVec 12, code.toNat = st.dl →
      decodeLzwCode st.dl false code.toNat = .lzwSelf code ∧
      ∃ st', exec (.lzwSelf code) s = .next { s with work := .lzw st' } ∧
        st'.out = st.out ++ (st.entry p.toNat ++ (st.entry p.toNat).take 1) ∧
        st.Inserted (st.entry p.toNat ++ (st.entry p.toNat).take 1) code st') ∧
    ∀ code : BitVec 12, st.dl < code.toNat →
      decodeLzwCode st.dl false code.toNat = .lzwInvalid code ∧
      exec (.lzwInvalid code) s = .next { s with work := .finish (.err .invalidLzwCode (some s.k) (code.setWidth 32)) }

/-- 42_lzw.md R264 and R265: STOP ends the stage with its output, under the capacity check of 40_pipeline.md R156, wherever in
the input it stands; CLEAR erases no entry. -/
def Obligations.LzwStopAndClear : Prop :=
  ∀ (s : State) (st : LzwState), s.work = .lzw st →
    (st.out.length ≤ s.params.outCap → exec .lzwStop s = .next { s with cur := st.out, k := s.k + 1, work := .stage }) ∧
    (s.params.outCap < st.out.length →
      exec .lzwStop s = .next { s with work := .finish (.err .capacityExceeded (some s.k) 0) }) ∧
    exec .lzwClear s = .next { s with work := .lzw { st with dl := 258, w := 9, previous := none } }

/-! ## ASCII85 -/

/-- 43_ascii85.md R302, R303, R304, R305 and R307: the begin mark, whitespace, `z`, the digits, the terminator, and the characters
that are none. That whitespace goes one byte a turn, each an A85_WS, is the model's choice (log 10, DESIGN CHOICE): R303 gives
only its removal before every other test. -/
def Obligations.A85Marks : Prop :=
  ∀ (s : State) (st : A85State), s.work = .a85 st →
    exec .a85Begin s = .next { s with work := .a85 { st with i := 2 } } ∧
    (∀ before c after, st.t = before ++ c :: after → isWhitespace c = true → (∀ b ∈ before, isWhitespace b = false) →
      exec (.a85Ws c) s = .next { s with work := .a85 { st with t := before ++ after } } ∧
      coreTurn s = exec (.a85Ws c) s) ∧
    exec .a85Z s = .next { s with work := .a85 { st with i := st.i + 1, out := st.out ++ [0, 0, 0, 0] } } ∧
    (∀ c, exec (.a85Invalid c) s = .next { s with work := .finish (.err .invalidA85Char (some s.k) (c.setWidth 32)) }) ∧
    ∀ c, (∀ b ∈ st.t, isWhitespace b = false) → st.t[st.i]? = some c →
      coreTurn s = exec (if st.i = 0 ∧ c = 0x3C ∧ st.t[st.i + 1]? = some 0x7E then .a85Begin
        else if c = 0x7E ∧ st.t[st.i + 1]? = some 0x3E then .a85End
        else if c = 0x7A ∧ st.group = [] then .a85Z
        else if 0x21 ≤ c.toNat ∧ c.toNat ≤ 0x75 then .a85Digit c else .a85Invalid c) s

/-- 43_ascii85.md R306: a digit is pending until it is the fifth; the group's value is then checked and emitted, most
significant byte first. -/
def Obligations.A85Digits : Prop :=
  ∀ (s : State) (st : A85State) (c : Byte), s.work = .a85 st → 0x21 ≤ c.toNat → c.toNat ≤ 0x75 →
    (st.group.length < 4 →
      exec (.a85Digit c) s = .next { s with work := .a85 { st with i := st.i + 1, group := st.group ++ [c.toNat - 33] } }) ∧
    ∀ d0 d1 d2 d3, st.group = [d0, d1, d2, d3] →
      let b := d0 * 85 ^ 4 + d1 * 85 ^ 3 + d2 * 85 ^ 2 + d3 * 85 + (c.toNat - 33)
      (b < 2 ^ 32 - 1 → ∃ b3 b2 b1 b0 : Byte, b = ((b3.toNat * 256 + b2.toNat) * 256 + b1.toNat) * 256 + b0.toNat ∧
        exec (.a85Digit c) s =
          .next { s with work := .a85 { st with i := st.i + 1, group := [], out := st.out ++ [b3, b2, b1, b0] } }) ∧
      (2 ^ 32 - 1 ≤ b → exec (.a85Digit c) s = .next { s with work := .finish (.err .invalidA85Group (some s.k) 0) })

/-- 43_ascii85.md R307 and R308: termination at `~>` and at the end of the input; the final partial group of n digits gives the
first n - 1 bytes of the padded group. -/
def Obligations.A85Termination : Prop :=
  ∀ (s : State) (st : A85State), s.work = .a85 st →
    let stop (bytes : List Byte) : State :=
      if (st.out ++ bytes).length ≤ s.params.outCap then { s with cur := st.out ++ bytes, k := s.k + 1, work := .stage }
      else { s with work := .finish (.err .capacityExceeded (some s.k) 0) }
    let bad : State := { s with work := .finish (.err .invalidA85Group (some s.k) 0) }
    ((∀ c ∈ st.t, isWhitespace c = false) →
      (st.t.length ≤ st.i ∨ (st.t[st.i]? = some 0x7E ∧ st.t[st.i + 1]? = some 0x3E)) →
      coreTurn s = exec .a85End s) ∧
    (st.group = [] → exec .a85End s = .next (stop [])) ∧
    (st.group.length = 1 → exec .a85End s = .next bad) ∧
    ∀ d0 d1 d2 d3 d4, 2 ≤ st.group.length → st.group.length ≤ 4 →
      st.group ++ List.replicate (5 - st.group.length) 84 = [d0, d1, d2, d3, d4] →
      let b := d0 * 85 ^ 4 + d1 * 85 ^ 3 + d2 * 85 ^ 2 + d3 * 85 + d4
      (2 ^ 32 - 1 ≤ b → exec .a85End s = .next bad) ∧
      (b < 2 ^ 32 - 1 → ∃ b3 b2 b1 b0 : Byte, b = ((b3.toNat * 256 + b2.toNat) * 256 + b1.toNat) * 256 + b0.toNat ∧
        exec .a85End s = .next (stop ([b3, b2, b1, b0].take (st.group.length - 1))))

/-! ## ASCIIHex -/

/-- 44_asciihex.md R342: the digits' values, and the pair's byte. -/
def Obligations.AhxDigits : Prop :=
  ∀ (s : State) (st : AhxState) (c : Byte) (v : BitVec 4), s.work = .ahx st →
    ((c.toNat = 0x30 + v.toNat ∧ v.toNat ≤ 9) ∨ (c.toNat = 0x41 + (v.toNat - 10) ∧ 10 ≤ v.toNat) ∨
      (c.toNat = 0x61 + (v.toNat - 10) ∧ 10 ≤ v.toNat)) →
    decodeAhxChar c = .ahxDigit c ∧
    (st.pend = none → exec (.ahxDigit c) s = .next { s with work := .ahx { st with pend := some v } }) ∧
    ∀ high, st.pend = some high →
      exec (.ahxDigit c) s =
        .next { s with work := .ahx { st with pend := none, out := st.out ++ [BitVec.ofNat 8 (16 * high.toNat + v.toNat)] } }

/-- 44_asciihex.md R341, R343, R344 and R345: whitespace, termination at `>` and at the end of the input, the odd digit, any
other byte. -/
def Obligations.AhxOtherCharacters : Prop :=
  ∀ (s : State) (st : AhxState), s.work = .ahx st →
    (∀ c, exec (.ahxWs c) s = .next s) ∧
    (s.cur.length ≤ st.i → coreTurn s = exec .ahxEnd s) ∧
    (∀ c, s.cur[st.i]? = some c → coreTurn s =
      exec (if c = 0x3E then .ahxEnd else if isWhitespace c then .ahxWs c else if isHexDigit c then .ahxDigit c else .ahxInvalid c)
        { s with work := .ahx { st with i := st.i + 1 } }) ∧
    (st.pend = none →
      (st.out.length ≤ s.params.outCap → exec .ahxEnd s = .next { s with cur := st.out, k := s.k + 1, work := .stage }) ∧
      (s.params.outCap < st.out.length →
        exec .ahxEnd s = .next { s with work := .finish (.err .capacityExceeded (some s.k) 0) })) ∧
    (st.pend ≠ none → exec .ahxEnd s = .next { s with work := .finish (.err .invalidHexDigitCount (some s.k) 0) }) ∧
    ∀ c, exec (.ahxInvalid c) s = .next { s with work := .finish (.err .invalidHexChar (some s.k) (c.setWidth 32)) }

/-! ## Inflate -/

/-- 41_flate.md R200: a stored block. `bytes` are what `getbits(8)` gives, one after the other. -/
def Obligations.ZlibStoredBlock : Prop :=
  ∀ (s : State) (st : InflateState) (bfinal : Bool), s.work = .inflate st → st.mode = .header →
    let p := (st.pos + 7) / 8 * 8
    (∀ len nlen, getBits s.cur p 16 = some len → getBits s.cur (p + 16) 16 = some nlen → len = nlen ^^^ 0xFFFF →
      p + 32 + 8 * len ≤ 8 * s.cur.length →
      ∃ bytes : List Byte, bytes.length = len ∧
        (∀ t < len, getBits s.cur (p + 32 + 8 * t) 8 = some (bytes.getD t 0).toNat) ∧
        exec (.zlibStored bfinal) s = .next { s with work := .inflate { st with
          pos := p + 32 + 8 * len, bfinal := bfinal, btype := 0, out := st.out ++ bytes
          adlerA := (bytes.foldl adlerUpdate (st.adlerA, st.adlerB)).1
          adlerB := (bytes.foldl adlerUpdate (st.adlerA, st.adlerB)).2
          mode := if bfinal then .trailer else .header } }) ∧
    ((getBits s.cur p 16 = none ∨ getBits s.cur (p + 16) 16 = none ∨
        (∃ len nlen, getBits s.cur p 16 = some len ∧ getBits s.cur (p + 16) 16 = some nlen ∧
          (len ≠ nlen ^^^ 0xFFFF ∨ 8 * s.cur.length < p + 32 + 8 * len))) →
      exec (.zlibStored bfinal) s = .next { s with work := .finish (.err .inflateError (some s.k) 0) })

/-- 41_flate.md R201: a fixed block takes the fixed codes, whose lengths and codes are the rule's; both codes are complete: the
sum of 2^(-len), times 2^15, is 2^15. -/
def Obligations.ZlibFixedBlock : Prop :=
  (∀ (s : State) (st : InflateState) (bfinal : Bool), s.work = .inflate st → st.mode = .header →
    exec (.zlibFixed bfinal) s = .next { s with work := .inflate { st with
      bfinal := bfinal, btype := 1, litLen := fixedLitLen, dist := fixedDist, mode := .symbols } }) ∧
  (∀ sym, codeWord fixedLitLen sym =
    if sym ≤ 143 then some { sym := sym, len := 8, code := 0x30 + sym }
    else if sym ≤ 255 then some { sym := sym, len := 9, code := 0x190 + (sym - 144) }
    else if sym ≤ 279 then some { sym := sym, len := 7, code := sym - 256 }
    else if sym ≤ 287 then some { sym := sym, len := 8, code := 0xC0 + (sym - 280) } else none) ∧
  (∀ sym, codeWord fixedDist sym = if sym ≤ 31 then some { sym := sym, len := 5, code := sym } else none) ∧
  (fixedLitLen.map fun e => 2 ^ (15 - e.len)).sum = 2 ^ 15 ∧ (fixedDist.map fun e => 2 ^ (15 - e.len)).sum = 2 ^ 15

/-- A dynamic block's header (41_flate.md R202), and the reserved block type (R199). The code-length sequence comes next, or
INFLATE_ERROR: where the input ends inside HLIT, HDIST, HCLEN or a code-length code's length (R214), where HLIT or HDIST is too
large, and where build_code refuses the code-length code (R203; Obligations.BuiltCodesArePrefixFree says when). -/
def Obligations.ZlibDynamicAndReserved : Prop :=
  ∀ (s : State) (st : InflateState) (bfinal : Bool), s.work = .inflate st → st.mode = .header →
    let bad : State := { s with work := .finish (.err .inflateError (some s.k) 0) }
    let order : List Nat := [16, 17, 18, 0, 8, 7, 9, 6, 10, 5, 11, 4, 12, 3, 13, 2, 14, 1, 15]
    let holds (lens : List Nat) (c : Nat) : Prop := lens.length = 19 ∧
      ∀ j < 19, if j < c + 4 then getBits s.cur (st.pos + 14 + 3 * j) 3 = some (lens.getD (order.getD j 0) 0)
        else lens.getD (order.getD j 0) 0 = 0
    (∀ l d c lens t, getBits s.cur st.pos 5 = some l → getBits s.cur (st.pos + 5) 5 = some d →
      getBits s.cur (st.pos + 10) 4 = some c → l + 257 ≤ 286 → d + 1 ≤ 30 → holds lens c → buildCode .codeLen lens = some t →
      exec (.zlibDynamic bfinal) s = .next { s with work := .inflate { st with
        pos := st.pos + 14 + 3 * (c + 4), bfinal := bfinal, btype := 2, mode := .codeLens t (l + 257) (d + 1) [] } }) ∧
    ((getBits s.cur st.pos 5 = none ∨ getBits s.cur (st.pos + 5) 5 = none ∨ getBits s.cur (st.pos + 10) 4 = none) →
      exec (.zlibDynamic bfinal) s = .next bad) ∧
    (∀ l, getBits s.cur st.pos 5 = some l → 286 < l + 257 → exec (.zlibDynamic bfinal) s = .next bad) ∧
    (∀ d, getBits s.cur (st.pos + 5) 5 = some d → 30 < d + 1 → exec (.zlibDynamic bfinal) s = .next bad) ∧
    (∀ c, getBits s.cur (st.pos + 10) 4 = some c →
      (∀ j < c + 4, getBits s.cur (st.pos + 14 + 3 * j) 3 = none → exec (.zlibDynamic bfinal) s = .next bad) ∧
      ∀ lens, holds lens c → buildCode .codeLen lens = none → exec (.zlibDynamic bfinal) s = .next bad) ∧
    exec (.zlibReserved bfinal) s = .next bad

/-- 41_flate.md R207: a literal, and the end of a block; after the block with BFINAL = 1 comes the trailer, else the next header
(R199). The Adler-32 sums follow the output (R212). -/
def Obligations.DefLiteralAndEndOfBlock : Prop :=
  ∀ (s : State) (st : InflateState), s.work = .inflate st → st.mode = .symbols →
    (∀ b, exec (.defLiteral b) s = .next { s with work := .inflate { st with
      out := st.out ++ [b]
      adlerA := (st.adlerA + b.toNat) % 65521
      adlerB := (st.adlerB + (st.adlerA + b.toNat) % 65521) % 65521 } }) ∧
    exec .defEob s = .next { s with work := .inflate { st with mode := if st.bfinal then .trailer else .header } }

/-- 41_flate.md R208: a length symbol, by the rule's table, and the invalid ones. -/
def Obligations.DefLengths : Prop :=
  ∀ (s : State) (st : InflateState), s.work = .inflate st → st.mode = .symbols →
    (∀ sym base extra, (sym, base, extra) ∈
        [(257, 3, 0), (258, 4, 0), (259, 5, 0), (260, 6, 0), (261, 7, 0), (262, 8, 0), (263, 9, 0), (264, 10, 0),
         (265, 11, 1), (266, 13, 1), (267, 15, 1), (268, 17, 1), (269, 19, 2), (270, 23, 2)] ++
        [(271, 27, 2), (272, 31, 2), (273, 35, 3), (274, 43, 3), (275, 51, 3), (276, 59, 3), (277, 67, 4), (278, 83, 4),
         (279, 99, 4), (280, 115, 4), (281, 131, 5), (282, 163, 5), (283, 195, 5), (284, 227, 5), (285, 258, 0)] →
      (∀ x, getBits s.cur st.pos extra = some x → exec (.defLength sym) s =
        .next { s with work := .inflate { st with pos := st.pos + extra, mode := .distance (base + x) } }) ∧
      (getBits s.cur st.pos extra = none →
        exec (.defLength sym) s = .next { s with work := .finish (.err .inflateError (some s.k) 0) })) ∧
    ∀ sym, exec (.defLenInvalid sym) s = .next { s with work := .finish (.err .inflateError (some s.k) 0) }

/-- 41_flate.md R209 and R210: a distance symbol, by the rule's table, with its copy, byte by byte: byte `t` of the copy is the
byte `d` before it, of the copy itself where it overlaps. -/
def Obligations.DefDistances : Prop :=
  ∀ (s : State) (st : InflateState) (n : Nat), s.work = .inflate st → st.mode = .distance n →
    (∀ dsym base extra, (dsym, base, extra) ∈
        [(0, 1, 0), (1, 2, 0), (2, 3, 0), (3, 4, 0), (4, 5, 1), (5, 7, 1), (6, 9, 2), (7, 13, 2), (8, 17, 3), (9, 25, 3),
         (10, 33, 4), (11, 49, 4), (12, 65, 5), (13, 97, 5), (14, 129, 6)] ++
        [(15, 193, 6), (16, 257, 7), (17, 385, 7), (18, 513, 8), (19, 769, 8), (20, 1025, 9), (21, 1537, 9), (22, 2049, 10),
         (23, 3073, 10), (24, 4097, 11), (25, 6145, 11), (26, 8193, 12), (27, 12289, 12), (28, 16385, 13), (29, 24577, 13)] →
      (∀ x, getBits s.cur st.pos extra = some x →
        (base + x ≤ st.out.length → ∃ copied : List Byte, copied.length = n ∧
          (∀ t < n, (st.out ++ copied)[st.out.length + t]? = (st.out ++ copied)[st.out.length + t - (base + x)]?) ∧
          exec (.defDist dsym) s = .next { s with work := .inflate { st with
            pos := st.pos + extra, mode := .symbols, out := st.out ++ copied
            adlerA := (copied.foldl adlerUpdate (st.adlerA, st.adlerB)).1
            adlerB := (copied.foldl adlerUpdate (st.adlerA, st.adlerB)).2 } }) ∧
        (st.out.length < base + x →
          exec (.defDist dsym) s = .next { s with work := .finish (.err .inflateError (some s.k) 0) })) ∧
      (getBits s.cur st.pos extra = none →
        exec (.defDist dsym) s = .next { s with work := .finish (.err .inflateError (some s.k) 0) })) ∧
    ∀ dsym, exec (.defDistInvalid dsym) s = .next { s with work := .finish (.err .inflateError (some s.k) 0) }

/-- 41_flate.md R204: the code-length sequence. What is appended must not run over the total. -/
def Obligations.DefCodeLengths : Prop :=
  ∀ (s : State) (st : InflateState) (cl : PrefixCode) (hlit hdist : Nat) (lens : List Nat),
    s.work = .inflate st → st.mode = .codeLens cl hlit hdist lens →
    let appended (pos : Nat) (new : List Nat) : State :=
      if (lens ++ new).length ≤ hlit + hdist then
        { s with work := .inflate { st with pos := pos, mode := .codeLens cl hlit hdist (lens ++ new) } }
      else { s with work := .finish (.err .inflateError (some s.k) 0) }
    let bad : State := { s with work := .finish (.err .inflateError (some s.k) 0) }
    (∀ len, exec (.defClLiteral len) s = .next (appended st.pos [len])) ∧
    (lens = [] → exec .defClRepeat s = .next bad) ∧
    (∀ last x, lens.getLast? = some last → getBits s.cur st.pos 2 = some x →
      exec .defClRepeat s = .next (appended (st.pos + 2) (List.replicate (3 + x) last))) ∧
    (getBits s.cur st.pos 2 = none → exec .defClRepeat s = .next bad) ∧
    (∀ x, getBits s.cur st.pos 3 = some x →
      exec .defClZero3 s = .next (appended (st.pos + 3) (List.replicate (3 + x) 0))) ∧
    (getBits s.cur st.pos 3 = none → exec .defClZero3 s = .next bad) ∧
    (∀ x, getBits s.cur st.pos 7 = some x →
      exec .defClZero11 s = .next (appended (st.pos + 7) (List.replicate (11 + x) 0))) ∧
    (getBits s.cur st.pos 7 = none → exec .defClZero11 s = .next bad)

/-- 41_flate.md R203: when build_code accepts a list of lengths, `kraft` being K times 2^15; the code words that it then assigns,
where `first b` is the first code of length `b`; and that they can be read back, none the front of another (30_encoding.md R123,
"the prefix property"). Then the two codes of a dynamic block, once its code-length sequence is read (R202), with R205's check of
the end-of-block symbol before them. -/
def Obligations.BuiltCodesArePrefixFree : Prop :=
  (∀ (kind : CodeKind) (lens : List Nat), (∀ l ∈ lens, l ≤ 15) →
    let used := lens.filter (· ≠ 0)
    let kraft := (used.map fun l => 2 ^ (15 - l)).sum
    let first (b : Nat) := ((List.range b).map fun j => if j = 0 then 0 else lens.count j * 2 ^ (b - j)).sum
    (2 ^ 15 < kraft → buildCode kind lens = none) ∧
    (kraft = 2 ^ 15 → ∃ t, buildCode kind lens = some t) ∧
    (kraft < 2 ^ 15 → ((∃ t, buildCode kind lens = some t) ↔
      ((kind = .litLen ∨ kind = .dist) ∧ used = [1]) ∨ (kind = .dist ∧ used = []))) ∧
    ∀ t, buildCode kind lens = some t → prefixFree t ∧
      ∀ sym, codeWord t sym = if lens.getD sym 0 = 0 then none else
        some { sym := sym, len := lens.getD sym 0, code := first (lens.getD sym 0) + (lens.take sym).count (lens.getD sym 0) }) ∧
  ∀ (s : State) (st : InflateState) (cl : PrefixCode) (hlit hdist : Nat) (lens : List Nat),
    s.work = .inflate st → st.mode = .codeLens cl hlit hdist lens → lens.length = hlit + hdist →
    let bad : State := { s with work := .finish (.err .inflateError (some s.k) 0) }
    (lens.getD 256 0 = 0 → coreTurn s = .next bad) ∧
    ((buildCode .litLen (lens.take hlit) = none ∨ buildCode .dist (lens.drop hlit) = none) → coreTurn s = .next bad) ∧
    ∀ ll d, lens.getD 256 0 ≠ 0 → buildCode .litLen (lens.take hlit) = some ll → buildCode .dist (lens.drop hlit) = some d →
      coreTurn s = .next { s with work := .inflate { st with litLen := ll, dist := d, mode := .symbols } }

/-- STORED_ENC round-trips and has the length of 41_flate.md R231, and so does every encoder the core may have round-trip: for data
of at most IN_CAP bytes by R230, beyond that by the model's choice (log 5, DESIGN CHOICE). Then 40_pipeline.md R161: where FLATE_ENCODE of `d` succeeds with `z`, DECODE of `z` (which fits IN_BUF) through the chain
of one FLATE stage with PRED_P = 0 gives `d`, provided `d` fits OUT_BUF. -/
def Obligations.EncoderRoundTrip : Prop :=
  (∀ d : List Byte,
    inflate (storedEnc d) = some d ∧
    (storedEnc d).length = 2 + 5 * max 1 ((d.length + 65534) / 65535) + d.length + 4 ∧
    inflate (deflateEnc d) = some d) ∧
  ∀ (x y : Snapshot) (z : List Byte) (desc : Desc),
    x.op = 0x00000002 → commandResult x = .ok z →
    y.op = 0x00000001 → y.input = z → y.inLen = z.length → z.length ≤ y.params.inCap →
    y.nstages = 1 → 1 ≤ y.params.stageMax → y.descs.head? = some desc → desc.kind = 0x01 → desc.predP = false →
    x.input.length ≤ y.params.outCap → commandResult y = .ok x.input

/-- 45_rc4.md R363: RC4 is its own inverse. -/
def Obligations.Rc4SelfInverse : Prop :=
  ∀ key data : List Byte, 1 ≤ key.length → key.length ≤ 256 → rc4Crypt key (rc4Crypt key data) = data

/-! ## Whole runs -/

/-- A stage of the chain, by the Core's turns alone, ends as the pseudocode of its unit says: with its output handed on, with its
error at this stage, or with the capacity error (40_pipeline.md R155, R156; 41_flate.md R190, R196; 42_lzw.md R260;
43_ascii85.md R301; 44_asciihex.md R340). -/
def Obligations.StageRuns : Prop :=
  ∀ s : State, s.inputs = [] → s.work = .stage → s.k < s.nstages.toNat → validateDesc (s.desc s.k) = none →
    Reaches s (s.settleResult (runStage (s.desc s.k) s.cur))

/-- Every command, from its dispatch on and by the Core's turns alone, completes with the result that the pseudocode gives for
the snapshot of its inputs (00_scope.md R10; 20_memory.md R94; 40_pipeline.md R151, R152, R160, R163, R164; 45_rc4.md R360). -/
def Obligations.CommandRuns : Prop :=
  ∀ s : State, s.inputs = [] → s.work = .command → s.stages.length = s.params.stageMax →
    ∃ d, Reaches s ({ s with draw := d }.complete (commandResult s.snapshot))
end

