-- ==== Sys2Proof/Laws/Bits.lean ====
section
/-! SUPPORT. Numbers and bits: reading back what was written, for words, bytes and codes. -/

namespace Sys2Proof.Machine

@[simp] theorem lsbBits_length (n v : Nat) : (lsbBits n v).length = n := by
  induction n generalizing v with
  | zero => rfl
  | succ n ih => simp [lsbBits, ih]

@[simp] theorem msbBits_length (n v : Nat) : (msbBits n v).length = n := by simp [msbBits]

theorem natOfLsb_lsbBits (n v : Nat) : natOfLsb (lsbBits n v) = v % 2 ^ n := by
  induction n generalizing v with
  | zero => simp [lsbBits, natOfLsb, Nat.mod_one]
  | succ n ih =>
    rw [lsbBits, natOfLsb, ih, Nat.pow_succ', Nat.mod_mul, Nat.testBit_zero]
    rcases Nat.mod_two_eq_zero_or_one v with h | h <;> simp [h]

theorem natOfLsb_lt (bs : List Bool) : natOfLsb bs < 2 ^ bs.length := by
  induction bs with
  | nil => simp [natOfLsb]
  | cons b bs ih => rw [natOfLsb, List.length_cons, Nat.pow_succ']; cases b <;> simp <;> omega

theorem lsbBits_natOfLsb (bs : List Bool) (n : Nat) (h : bs.length = n) : bs = lsbBits n (natOfLsb bs) := by
  subst h
  induction bs with
  | nil => rfl
  | cons b bs ih =>
    have h0 : (b.toNat + 2 * natOfLsb bs).testBit 0 = b := by cases b <;> simp
    have h1 : (b.toNat + 2 * natOfLsb bs) / 2 = natOfLsb bs := by cases b <;> (simp; try omega)
    rw [List.length_cons, natOfLsb, lsbBits, h0, h1, ← ih]

theorem natOfMsb_lt (bs : List Bool) : natOfMsb bs < 2 ^ bs.length := by
  simpa [natOfMsb] using natOfLsb_lt bs.reverse

theorem natOfMsb_msbBits (n v : Nat) : natOfMsb (msbBits n v) = v % 2 ^ n := by
  simp [natOfMsb, msbBits, natOfLsb_lsbBits]

theorem take_append_lsb (n v : Nat) (rest : List Bool) : (lsbBits n v ++ rest).take n = lsbBits n v := by
  simp

theorem take_append_msb (n v : Nat) (rest : List Bool) : (msbBits n v ++ rest).take n = msbBits n v := by
  simp

/-- A 32-bit word is read back from its bits. -/
theorem ofNat_natOfLsb_word (w : Word) : BitVec.ofNat 32 (natOfLsb (wordBits w)) = w := by
  rw [wordBits, natOfLsb_lsbBits, Nat.mod_eq_of_lt w.isLt, BitVec.ofNat_toNat, BitVec.setWidth_eq]

/-- A byte is read back from its bits. -/
theorem ofNat_natOfLsb_byte (b : Byte) : BitVec.ofNat 8 (natOfLsb (byteBits b)) = b := by
  rw [byteBits, natOfLsb_lsbBits, Nat.mod_eq_of_lt b.isLt, BitVec.ofNat_toNat, BitVec.setWidth_eq]

@[simp] theorem wordBits_length (w : Word) : (wordBits w).length = 32 := by simp [wordBits]

@[simp] theorem byteBits_length (b : Byte) : (byteBits b).length = 8 := by simp [byteBits]

/-- A window holds at most the bits asked for. -/
theorem windowLsb_length_le (s : List Byte) (pos n : Nat) : (windowLsb s pos n).length ≤ n := by
  induction n generalizing pos with
  | zero => simp [windowLsb]
  | succ n ih =>
    rw [windowLsb]
    split
    · simpa using ih (pos + 1)
    · simp

theorem windowMsb_length_le (s : List Byte) (pos n : Nat) : (windowMsb s pos n).length ≤ n := by
  induction n generalizing pos with
  | zero => simp [windowMsb]
  | succ n ih =>
    rw [windowMsb]
    split
    · simpa using ih (pos + 1)
    · simp

/-- An MSB-first window holds all its bits exactly where the input has them. -/
theorem windowMsb_length (s : List Byte) (pos n : Nat) : (windowMsb s pos n).length = min n (8 * s.length - pos) := by
  induction n generalizing pos with
  | zero => simp [windowMsb]
  | succ n ih =>
    rw [windowMsb]
    by_cases h : pos / 8 < s.length
    · have hb : bitMsb s pos = some ((s[pos / 8]'h).getLsbD (7 - pos % 8)) := by simp [bitMsb, h]
      rw [hb]; simp only [List.length_cons, ih]; omega
    · have hb : bitMsb s pos = none := by simp [bitMsb]; omega
      rw [hb]; simp only [List.length_nil]; omega

/-- An LSB-first window holds all its bits exactly where the input has them. -/
theorem windowLsb_length (s : List Byte) (pos n : Nat) : (windowLsb s pos n).length = min n (8 * s.length - pos) := by
  induction n generalizing pos with
  | zero => simp [windowLsb]
  | succ n ih =>
    rw [windowLsb]
    by_cases h : pos / 8 < s.length
    · have hb : bitLsb s pos = some ((s[pos / 8]'h).getLsbD (pos % 8)) := by simp [bitLsb, h]
      rw [hb]; simp only [List.length_cons, ih]; omega
    · have hb : bitLsb s pos = none := by simp [bitLsb]; omega
      rw [hb]; simp only [List.length_nil]; omega

/-- `getbits(n)` succeeds exactly where the input has the bits (41_flate.md R214). -/
theorem getBits_isSome (s : List Byte) (pos n : Nat) : (getBits s pos n).isSome = decide (n ≤ 8 * s.length - pos) := by
  by_cases h : n ≤ 8 * s.length - pos <;> simp [getBits, windowLsb_length, h]

/-- The eight bits at a byte's boundary are the byte's. -/
theorem windowLsb_byte (s : List Byte) (i : Nat) (h : i < s.length) : windowLsb s (8 * i) 8 = byteBits s[i] := by
  have hb : ∀ r < 8, bitLsb s (8 * i + r) = some (s[i].getLsbD r) := by
    intro r hr
    have h1 : (8 * i + r) / 8 = i := by omega
    have h2 : (8 * i + r) % 8 = r := by omega
    simp [bitLsb, h1, h2, h]
  have e : ∀ b : Byte, byteBits b =
      [b.getLsbD 0, b.getLsbD 1, b.getLsbD 2, b.getLsbD 3, b.getLsbD 4, b.getLsbD 5, b.getLsbD 6, b.getLsbD 7] := by
    decide
  have h0 := hb 0 (by omega)
  simp only [Nat.add_zero] at h0
  simp [windowLsb, h0, hb 1 (by omega), hb 2 (by omega), hb 3 (by omega), hb 4 (by omega), hb 5 (by omega), hb 6 (by omega),
    hb 7 (by omega), e, Nat.add_assoc]

theorem windowLsb_end (s : List Byte) (pos n : Nat) (h : 8 * s.length ≤ pos) : windowLsb s pos n = [] := by
  have := windowLsb_length s pos n
  apply List.eq_nil_of_length_eq_zero; omega

/-- A window of `m + n` bits is one of `m` and one of `n`, where the first is whole. -/
theorem windowLsb_add (s : List Byte) (pos m n : Nat) (h : (windowLsb s pos m).length = m) :
    windowLsb s pos (m + n) = windowLsb s pos m ++ windowLsb s (pos + m) n := by
  induction m generalizing pos with
  | zero => simp [windowLsb]
  | succ m ih =>
    rw [Nat.succ_add, windowLsb] at *
    rw [windowLsb]
    cases hb : bitLsb s pos with
    | none => simp [hb] at h
    | some b =>
      simp [hb] at h
      simp only [List.cons_append]
      rw [ih (pos + 1) h]
      congr 3; omega

end Sys2Proof.Machine
end

