-- ==== Sys2Proof/Laws/Codes.lean ====
section
/-! SUPPORT. Prefix codes: a code word is read back from its bits; and each format's decoder on what the encoder writes. -/

namespace Sys2Proof

open Machine

namespace Machine

theorem lsbBits_succ (n v : Nat) : lsbBits (n + 1) v = lsbBits n v ++ [v.testBit n] := by
  induction n generalizing v with
  | zero => simp [lsbBits]
  | succ n ih => rw [lsbBits, ih, lsbBits]; simp [Nat.testBit_succ]

theorem msbBits_succ (n v : Nat) : msbBits (n + 1) v = v.testBit n :: msbBits n v := by
  simp [msbBits, lsbBits_succ]

theorem shift_in_bit (v m : Nat) : 2 * (v / 2 ^ (m + 1)) + (v.testBit m).toNat = v / 2 ^ m := by
  have h : v / 2 ^ (m + 1) = v / 2 ^ m / 2 := by rw [Nat.pow_succ, Nat.div_div_eq_div_mul]
  rw [h, Nat.testBit_eq_decide_div_mod_eq]
  rcases Nat.mod_two_eq_zero_or_one (v / 2 ^ m) with h | h <;> simp [h] <;> omega

/-- Two code words of a prefix code: none is the front of the other. -/
theorem prefixFree_entries {t : PrefixCode} (h : prefixFree t) {e f : CodeEntry} (he : e ∈ t) (hf : f ∈ t) (hne : e ≠ f) :
    f.len ≤ e.len → e.code / 2 ^ (e.len - f.len) ≠ f.code := by
  have hs : ∀ {x y : CodeEntry},
      (x.sym ≠ y.sym ∧ (x.len ≤ y.len → y.code / 2 ^ (y.len - x.len) ≠ x.code) ∧
        (y.len ≤ x.len → x.code / 2 ^ (x.len - y.len) ≠ y.code)) →
      (y.sym ≠ x.sym ∧ (y.len ≤ x.len → x.code / 2 ^ (x.len - y.len) ≠ y.code) ∧
        (x.len ≤ y.len → y.code / 2 ^ (y.len - x.len) ≠ x.code)) :=
    fun hxy => ⟨hxy.1.symm, hxy.2.2, hxy.2.1⟩
  have := List.Pairwise.forall_of_forall_of_flip (R := fun x y : CodeEntry => x ≠ y →
      (x.sym ≠ y.sym ∧ (x.len ≤ y.len → y.code / 2 ^ (y.len - x.len) ≠ x.code) ∧
        (y.len ≤ x.len → x.code / 2 ^ (x.len - y.len) ≠ y.code))) (l := t)
    (fun x _ hx => absurd rfl hx) (by refine List.Pairwise.imp ?_ h.2; intro _ _ hxy _; exact hxy)
    (by refine List.Pairwise.imp ?_ h.2; intro _ _ hxy _; exact hs hxy)
  exact (this he hf hne).2.2

theorem lookupCode_eq_none {t : PrefixCode} {len code : Nat} (h : ∀ e ∈ t, ¬(e.len = len ∧ e.code = code)) :
    lookupCode t len code = none := by
  rw [lookupCode, Option.map_eq_none_iff, List.find?_eq_none]
  intro e he; simpa using h e he

theorem lookupCode_eq_some {t : PrefixCode} (h : prefixFree t) {e : CodeEntry} (he : e ∈ t) :
    lookupCode t e.len e.code = some e.sym := by
  rw [lookupCode]
  cases hf : t.find? (fun x => x.len = e.len && x.code = e.code) with
  | none => simpa using List.find?_eq_none.mp hf e he
  | some f =>
    have hp := List.find?_some hf
    have hm := List.mem_of_find?_eq_some hf
    simp only [Bool.and_eq_true, decide_eq_true_eq] at hp
    by_cases hne : e = f
    · subst hne; rfl
    · exact absurd (by rw [hp.1]; simp [hp.2]) (prefixFree_entries h he hm hne (by omega))

/-- From any point inside a code word the walk reads the rest of it. -/
theorem walkCode_msbBits {t : PrefixCode} (h : prefixFree t) {e : CodeEntry} (he : e ∈ t) (rest : List Bool) :
    ∀ m, 1 ≤ m → m ≤ e.len →
      walkCode t (e.code / 2 ^ m) (e.len - m) (msbBits m e.code ++ rest) = .ok (e.sym, e.len) := by
  intro m
  induction m with
  | zero => intro h; omega
  | succ m ih =>
    intro _ hm
    rw [msbBits_succ, List.cons_append, walkCode, shift_in_bit]
    by_cases h0 : m = 0
    · subst h0
      have : e.len - 1 + 1 = e.len := by omega
      simp [this, lookupCode_eq_some h he]
    · have hl : lookupCode t (e.len - (m + 1) + 1) (e.code / 2 ^ m) = none := by
        apply lookupCode_eq_none
        rintro f hf ⟨h1, h2⟩
        have hne : e ≠ f := by rintro rfl; omega
        refine prefixFree_entries h he hf hne (by omega) ?_
        rw [h2, h1]; congr 2; omega
      simp only [hl]
      have := ih (by omega) (by omega)
      rwa [show e.len - (m + 1) + 1 = e.len - m by omega]

theorem codeWord_mem {t : PrefixCode} {sym : Nat} {e : CodeEntry} (h : codeWord t sym = some e) : e ∈ t ∧ e.sym = sym :=
  ⟨List.mem_of_find?_eq_some h, by simpa using List.find?_some h⟩

/-- A symbol is read back from its code word. -/
theorem readSymbol_encodeSymbol {t : PrefixCode} (h : prefixFree t) {sym : Nat} (hs : (codeWord t sym).isSome)
    (rest : List Bool) : readSymbol t (encodeSymbol t sym ++ rest) = .ok (sym, (encodeSymbol t sym).length) := by
  obtain ⟨e, he⟩ := Option.isSome_iff_exists.mp hs
  obtain ⟨hm, rfl⟩ := codeWord_mem he
  obtain ⟨h1, h15, hlt⟩ := h.1 e hm
  have hw := walkCode_msbBits h hm (rest.take (15 - e.len)) e.len h1 (Nat.le_refl _)
  simp only [Nat.sub_self, Nat.div_eq_of_lt hlt] at hw
  simp only [encodeSymbol, he, msbBits_length, readSymbol]
  rw [List.take_append, List.take_of_length_le (by simpa using h15)]
  simpa using hw

end Machine

/-! ## The decoders on the encoder's bits -/

theorem decode_cmd (w : Word) (rest : List Bool) : decode .cmd (wordBits w ++ rest) = .ok (decodeCmd w, 32) := by
  have : ¬(wordBits w ++ rest).length < 32 := by simp
  rw [decode, if_neg this, wordBits, take_append_lsb, ← wordBits, ofNat_natOfLsb_word]

theorem decode_pred (w : Word) (rest : List Bool) : decode .pred (wordBits w ++ rest) = .ok (decodePred w, 32) := by
  have : ¬(wordBits w ++ rest).length < 32 := by simp
  rw [decode, if_neg this, wordBits, take_append_lsb, ← wordBits, ofNat_natOfLsb_word]

theorem decode_pngRow (b : Byte) (rest : List Bool) : decode .pngRow (byteBits b ++ rest) = .ok (decodePngRow b, 8) := by
  have : ¬(byteBits b ++ rest).length < 8 := by simp
  rw [decode, if_neg this, byteBits, take_append_lsb, ← byteBits, ofNat_natOfLsb_byte]

theorem decode_ahxChar (b : Byte) (rest : List Bool) : decode .ahxChar (byteBits b ++ rest) = .ok (decodeAhxChar b, 8) := by
  have h0 : ¬byteBits b ++ rest = [] := by intro h; simpa using congrArg List.length h
  have : ¬(byteBits b ++ rest).length < 8 := by simp
  rw [decode, if_neg h0, if_neg this, byteBits, take_append_lsb, ← byteBits, ofNat_natOfLsb_byte]

theorem decode_lzwCode {w code : Nat} (dl : Nat) (afterClear : Bool) (h : code < 2 ^ w) (rest : List Bool) :
    decode (.lzwCode w dl afterClear) (msbBits w code ++ rest) = .ok (decodeLzwCode dl afterClear code, w) := by
  have : ¬(msbBits w code ++ rest).length < w := by simp
  rw [decode, if_neg this, take_append_msb, natOfMsb_msbBits, Nat.mod_eq_of_lt h]

@[simp] theorem encodeStage_length (kind : BitVec 8) (p c n t : Bool) (pred cols : Word) :
    (encodeStage kind p c n t pred cols).length = 128 := by simp [encodeStage]

theorem decode_stage_words (a b c d : Word) (rest : List Bool) :
    decode .stage (wordBits a ++ wordBits b ++ wordBits c ++ wordBits d ++ rest) = .ok (decodeStage a b c d, 128) := by
  have hl : ¬(wordBits a ++ wordBits b ++ wordBits c ++ wordBits d ++ rest).length < 128 := by simp; omega
  have drop32 : ∀ (x : Word) (l : List Bool) (k : Nat), (wordBits x ++ l).drop (32 * (k + 1)) = l.drop (32 * k) := by
    intro x l k
    rw [List.drop_append, List.drop_of_length_le (by simp), List.nil_append, wordBits_length]
    congr 1
  have take32 : ∀ (x : Word) (l : List Bool), (wordBits x ++ l).take 32 = wordBits x := by
    intro x l; rw [wordBits, take_append_lsb]
  rw [decode, if_neg hl]
  simp only [List.append_assoc, drop32 _ _ 0, drop32 _ _ 1, drop32 _ _ 2, Nat.mul_zero, List.drop_zero, take32,
    ofNat_natOfLsb_word, show (32 * 1 : Nat) = 32 * (0 + 1) from rfl, show (32 * 2 : Nat) = 32 * (1 + 1) from rfl,
    show (32 * 3 : Nat) = 32 * (2 + 1) from rfl]

theorem decode_stage (kind : BitVec 8) (p c n t : Bool) (pred cols : Word) (rest : List Bool) :
    decode .stage (encodeStage kind p c n t pred cols ++ rest) =
      .ok (decodeStage (kind.setWidth 32) (BitVec.ofNat 32 (natOfLsb [p, c, n, t])) pred cols, 128) := by
  have hf : lsbBits 32 (natOfLsb [p, c, n, t]) = wordBits (BitVec.ofNat 32 (natOfLsb [p, c, n, t])) := by
    rw [wordBits, BitVec.toNat_ofNat, Nat.mod_eq_of_lt]
    have := natOfLsb_lt [p, c, n, t]; simp only [List.length_cons, List.length_nil] at this; omega
  rw [encodeStage, hf, decode_stage_words]

theorem decodeSymbol_encodeSymbol {t : PrefixCode} {classify : Nat → Option Instr} {sym : Nat} {i : Instr} (h : prefixFree t)
    (hs : (codeWord t sym).isSome) (hc : classify sym = some i) (rest : List Bool) :
    decodeSymbol t classify (encodeSymbol t sym ++ rest) = .ok (i, (encodeSymbol t sym).length) := by
  simp only [decodeSymbol, readSymbol_encodeSymbol h hs, hc]

end Sys2Proof
end

