-- ==== Sys2Proof/Laws/DynamicCodes.lean ====
section
/-! SUPPORT. The codes of a dynamic block: what build_code assigns (41_flate.md R203), and what the loop over ORDER reads (R202). -/

namespace Sys2Proof.Machine

/-! ## build_code -/

theorem assignCodes_sym_ge : ∀ (lens : List Nat) (sym : Nat) (next : List Nat),
    ∀ e ∈ assignCodes sym next lens, sym ≤ e.sym := by
  intro lens
  induction lens with
  | nil => intro sym next e he; simp [assignCodes] at he
  | cons l ls ih =>
    intro sym next e he
    rw [assignCodes] at he
    split at he
    · exact Nat.le_of_succ_le (ih _ _ e he)
    · rcases List.mem_cons.mp he with rfl | he
      · exact Nat.le_refl _
      · exact Nat.le_of_succ_le (ih _ _ e he)

/-- The assignment loop: a symbol of length `l` has the code `next[l]`, moved on by the symbols of that length before it. -/
theorem codeWord_assignCodes : ∀ (lens : List Nat) (sym : Nat) (next : List Nat), next.length = 16 → (∀ l ∈ lens, l ≤ 15) →
    ∀ i, codeWord (assignCodes sym next lens) (sym + i) = if lens.getD i 0 = 0 then none else
      some { sym := sym + i, len := lens.getD i 0
             code := next.getD (lens.getD i 0) 0 + (lens.take i).count (lens.getD i 0) } := by
  intro lens
  induction lens with
  | nil => intro sym next _ _ i; simp [assignCodes, codeWord]
  | cons l ls ih =>
    intro sym next hn hl i
    have hl' : ∀ x ∈ ls, x ≤ 15 := fun x hx => hl x (List.mem_cons_of_mem _ hx)
    have none_here : ∀ next', codeWord (assignCodes (sym + 1) next' ls) sym = none := by
      intro next'
      rw [codeWord, List.find?_eq_none]
      intro e he
      have := assignCodes_sym_ge ls (sym + 1) next' e he
      simp; omega
    rw [assignCodes]
    by_cases h0 : l = 0
    · rw [if_pos h0]
      cases i with
      | zero => simpa [h0] using none_here next
      | succ i =>
        have := ih (sym + 1) next hn hl' i
        rw [show sym + (i + 1) = sym + 1 + i by omega, this]
        simp only [List.getD_cons_succ, List.take_succ_cons]
        by_cases hz : ls.getD i 0 = 0
        · rw [if_pos hz, if_pos hz]
        · rw [if_neg hz, if_neg hz, List.count_cons_of_ne (by rw [h0]; exact Ne.symm hz)]
    · rw [if_neg h0]
      cases i with
      | zero => simp [codeWord, h0]
      | succ i =>
        have := ih (sym + 1) (next.set l (next.getD l 0 + 1)) (by simp [hn]) hl' i
        rw [codeWord] at this ⊢
        rw [List.find?_cons_of_neg (by simp)]
        rw [show sym + (i + 1) = sym + 1 + i by omega, this]
        simp only [List.getD_cons_succ, List.take_succ_cons]
        by_cases hz : ls.getD i 0 = 0
        · rw [if_pos hz, if_pos hz]
        · rw [if_neg hz, if_neg hz]
          have hl15 := hl l (by simp)
          by_cases hll : ls.getD i 0 = l
          · rw [hll, List.count_cons_self]
            have : (next.set l (next.getD l 0 + 1)).getD l 0 = next.getD l 0 + 1 := by
              simp [List.getD, hn, show l < 16 by omega]
            rw [this]; congr 2; omega
          · rw [List.count_cons_of_ne (Ne.symm hll)]
            have : (next.set l (next.getD l 0 + 1)).getD (ls.getD i 0) 0 = next.getD (ls.getD i 0) 0 := by
              simp only [List.getD, List.getElem?_set]; rw [if_neg (fun h => hll h.symm)]
            rw [this]

/-- The first code of length `b`, as a sum over the shorter lengths. -/
theorem firstCode_eq (lens : List Nat) (b : Nat) : firstCode lens b =
    ((List.range b).map fun j => if j = 0 then 0 else lens.count j * 2 ^ (b - j)).sum := by
  induction b with
  | zero => simp [firstCode]
  | succ b ih =>
    rw [firstCode, ih, List.range_succ, List.map_append, List.sum_append]
    have : ((List.range b).map fun j => if j = 0 then 0 else lens.count j * 2 ^ (b + 1 - j)) =
        (List.range b).map fun j => (if j = 0 then 0 else lens.count j * 2 ^ (b - j)) * 2 := by
      apply List.map_congr_left
      intro j hj
      have : j < b := by simpa using hj
      by_cases h : j = 0
      · simp [h]
      · rw [if_neg h, if_neg h, show b + 1 - j = (b - j) + 1 by omega, Nat.pow_succ, Nat.mul_assoc]
    rw [this]
    have hs : ∀ L : List Nat, ∀ f : Nat → Nat, (L.map fun j => f j * 2).sum = (L.map f).sum * 2 := by
      intro L f; induction L with
      | nil => rfl
      | cons x xs ih => simp [ih, Nat.add_mul]
    rw [hs, codeCount]
    by_cases h : b = 0
    · subst h; simp
    · simp [h, Nat.add_mul]

/-- The codes of length `l` lie below those of a greater length `m`: no code of length `m` begins with one of them. -/
theorem firstCode_step (lens : List Nat) {l m : Nat} (h : l < m) :
    (firstCode lens l + codeCount lens l) * 2 ^ (m - l) ≤ firstCode lens m := by
  induction m with
  | zero => omega
  | succ m ih =>
    by_cases hlm : l = m
    · subst hlm; simp [firstCode]
    · have := ih (by omega)
      rw [firstCode, show m + 1 - l = (m - l) + 1 by omega, Nat.pow_succ, ← Nat.mul_assoc]
      omega

/-- The codes of length 15 end at the Kraft sum times 2^15. -/
theorem firstCode_kraftSum (lens : List Nat) : (∀ l ∈ lens, l ≤ 15) →
    firstCode lens 15 + codeCount lens 15 = kraftSum lens := by
  induction lens with
  | nil => intro _; rfl
  | cons l ls ih =>
    intro h
    have h0 := ih (fun x hx => h x (List.mem_cons_of_mem _ hx))
    have hl : l ≤ 15 := h l (by simp)
    have hc : ∀ b, codeCount (l :: ls) b = codeCount ls b + if b ≠ 0 ∧ l = b then 1 else 0 := by
      intro b; simp only [codeCount, List.count_cons]
      by_cases hb : b = 0 <;> simp [hb]
    have hk : kraftSum (l :: ls) = kraftSum ls + if l = 0 then 0 else 2 ^ (15 - l) := by
      by_cases hz : l = 0 <;> simp [kraftSum, hz, Nat.add_comm]
    rw [hk, ← h0]
    simp only [firstCode, hc]
    interval_cases l <;> simp <;> omega

/-- The code words stand in the order of their symbols. -/
theorem assignCodes_sorted : ∀ (lens : List Nat) (sym : Nat) (next : List Nat),
    (assignCodes sym next lens).Pairwise fun e f => e.sym < f.sym := by
  intro lens
  induction lens with
  | nil => intro sym next; simp [assignCodes]
  | cons l ls ih =>
    intro sym next
    rw [assignCodes]
    split
    · exact ih _ _
    · refine List.pairwise_cons.mpr ⟨fun f hf => ?_, ih _ _⟩
      exact assignCodes_sym_ge ls _ _ f hf

theorem codeWord_of_mem {t : PrefixCode} (h : t.Pairwise fun e f => e.sym < f.sym) {e : CodeEntry} (he : e ∈ t) :
    codeWord t e.sym = some e := by
  rw [codeWord]
  induction t with
  | nil => cases he
  | cons x xs ih =>
    obtain ⟨h1, h2⟩ := List.pairwise_cons.mp h
    rcases List.mem_cons.mp he with rfl | he
    · simp
    · have := h1 e he
      rw [List.find?_cons_of_neg (by simp; omega)]
      exact ih h2 he

/-- A later prefix of a list holds a place's value more often than the prefix before that place. -/
theorem count_take_lt {lens : List Nat} {i : Nat} (hi : i < lens.length) :
    ∀ n, i < n → (lens.take i).count lens[i] < (lens.take n).count lens[i] := by
  intro n hn
  have hp : (lens.take (i + 1)).count lens[i] = (lens.take i).count lens[i] + 1 := by
    rw [List.take_succ_eq_append_getElem hi, List.count_append]; simp
  have hs : (lens.take (i + 1)).Sublist (lens.take n) := by
    have : lens.take (i + 1) = (lens.take n).take (i + 1) := by rw [List.take_take]; congr 1; omega
    rw [this]; exact List.take_sublist _ _
  have := hs.count_le lens[i]
  omega

/-- Where a code word of the canonical code comes from. -/
theorem canonicalCode_entry {lens : List Nat} (hl : ∀ l ∈ lens, l ≤ 15) {e : CodeEntry} (he : e ∈ canonicalCode lens) :
    ∃ h : e.sym < lens.length, e.len = lens[e.sym] ∧ e.len ≠ 0 ∧
      e.code = firstCode lens e.len + (lens.take e.sym).count e.len := by
  have h1 := codeWord_of_mem (assignCodes_sorted lens 0 _) he
  have h2 := codeWord_assignCodes lens 0 ((List.range 16).map (firstCode lens)) (by simp) hl e.sym
  rw [Nat.zero_add, h1] at h2
  by_cases hs : e.sym < lens.length
  · have hg : lens.getD e.sym 0 = lens[e.sym] := by simp [List.getD, hs]
    rw [hg] at h2
    split at h2
    · cases h2
    · next hz =>
      have he := Option.some.inj h2
      have hlen : e.len = lens[e.sym] := congrArg CodeEntry.len he
      have hcode := congrArg CodeEntry.code he
      simp only [] at hcode
      have h15 := hl _ (List.getElem_mem hs)
      rw [List.getD, List.getElem?_map, List.getElem?_range (by omega)] at hcode
      exact ⟨hs, hlen, by rw [hlen]; exact hz, by rw [hlen]; exact hcode⟩
  · rw [if_pos (by simp [List.getD, List.getElem?_eq_none (Nat.le_of_not_lt hs)])] at h2
    cases h2

/-! ## The loop over ORDER -/

/-- The loop over ORDER sets the places of `order` to the lengths read and leaves the others. -/
theorem readCodeLenLengths_eq (inp : List Byte) : ∀ (order : List Nat) (pos : Nat) (cl lens : List Nat),
    order.Nodup → cl.length = lens.length → (∀ o ∈ order, o < lens.length) →
    (∀ j < order.length, getBits inp (pos + 3 * j) 3 = some (lens.getD (order.getD j 0) 0)) →
    (∀ i < lens.length, i ∉ order → cl.getD i 0 = lens.getD i 0) →
    readCodeLenLengths inp pos order cl = some lens := by
  intro order
  induction order with
  | nil =>
    intro pos cl lens _ hl _ _ h
    simp only [readCodeLenLengths]
    congr 1
    apply List.ext_getElem hl
    intro i h1 h2
    have := h i h2 (by simp)
    simpa [List.getD, h1, h2] using this
  | cons o os ih =>
    intro pos cl lens hn hl hb hg h
    have h0 := hg 0 (by simp)
    simp only [Nat.mul_zero, Nat.add_zero, List.getD_cons_zero] at h0
    simp only [readCodeLenLengths, h0]
    refine ih _ _ _ (List.nodup_cons.mp hn).2 (by simp [hl]) (fun x hx => hb x (by simp [hx])) ?_ ?_
    · intro j hj
      have := hg (j + 1) (by simpa using hj)
      simpa [Nat.mul_add, Nat.add_assoc, Nat.add_comm 3] using this
    · intro i hi hio
      by_cases hoi : o = i
      · subst hoi
        have := hb o (by simp)
        simp [List.getD, hl, this]
      · have := h i hi (by simp [hio, Ne.symm hoi])
        simpa [List.getD, hoi] using this

/-- The loop over ORDER fails where one of its lengths is cut off. -/
theorem readCodeLenLengths_none (inp : List Byte) : ∀ (order : List Nat) (pos : Nat) (cl : List Nat) (j : Nat), j < order.length →
    getBits inp (pos + 3 * j) 3 = none → readCodeLenLengths inp pos order cl = none := by
  intro order
  induction order with
  | nil => intro pos cl j hj; simp at hj
  | cons o os ih =>
    intro pos cl j hj h
    rw [readCodeLenLengths]
    cases j with
    | zero => rw [Nat.mul_zero, Nat.add_zero] at h; rw [h]
    | succ j =>
      cases getBits inp pos 3 with
      | none => rfl
      | some v => exact ih _ _ j (by simpa using hj) (by rw [← h]; congr 1; omega)

end Sys2Proof.Machine
end

