-- ==== Sys2Proof/Laws/State.lean ====
section
/-! SUPPORT. One lemma per field and per named update of State, true by definition, so that no later proof unfolds an update; and the raises as updates of the working state. -/

namespace Sys2Proof.Machine

/-! ## withWork -/

@[simp] theorem State.withWork_params (s : State) (w : Work) : (s.withWork w).params = s.params := rfl
@[simp] theorem State.withWork_irqEn (s : State) (w : Work) : (s.withWork w).irqEn = s.irqEn := rfl
@[simp] theorem State.withWork_busy (s : State) (w : Work) : (s.withWork w).busy = s.busy := rfl
@[simp] theorem State.withWork_done (s : State) (w : Work) : (s.withWork w).done = s.done := rfl
@[simp] theorem State.withWork_inLen (s : State) (w : Work) : (s.withWork w).inLen = s.inLen := rfl
@[simp] theorem State.withWork_outLen (s : State) (w : Work) : (s.withWork w).outLen = s.outLen := rfl
@[simp] theorem State.withWork_keyLen (s : State) (w : Work) : (s.withWork w).keyLen = s.keyLen := rfl
@[simp] theorem State.withWork_nstages (s : State) (w : Work) : (s.withWork w).nstages = s.nstages := rfl
@[simp] theorem State.withWork_errCode (s : State) (w : Work) : (s.withWork w).errCode = s.errCode := rfl
@[simp] theorem State.withWork_errStage (s : State) (w : Work) : (s.withWork w).errStage = s.errStage := rfl
@[simp] theorem State.withWork_errInfo (s : State) (w : Work) : (s.withWork w).errInfo = s.errInfo := rfl
@[simp] theorem State.withWork_stages (s : State) (w : Work) : (s.withWork w).stages = s.stages := rfl
@[simp] theorem State.withWork_mem (s : State) (w : Work) : (s.withWork w).mem = s.mem := rfl
@[simp] theorem State.withWork_phase (s : State) (w : Work) : (s.withWork w).phase = s.phase := rfl
@[simp] theorem State.withWork_op (s : State) (w : Work) : (s.withWork w).op = s.op := rfl
@[simp] theorem State.withWork_k (s : State) (w : Work) : (s.withWork w).k = s.k := rfl
@[simp] theorem State.withWork_cur (s : State) (w : Work) : (s.withWork w).cur = s.cur := rfl
@[simp] theorem State.withWork_work (s : State) (w : Work) : (s.withWork w).work = w := rfl
@[simp] theorem State.withWork_inputs (s : State) (w : Work) : (s.withWork w).inputs = s.inputs := rfl
@[simp] theorem State.withWork_resp (s : State) (w : Work) : (s.withWork w).resp = s.resp := rfl
@[simp] theorem State.withWork_draw (s : State) (w : Work) : (s.withWork w).draw = s.draw := rfl

/-! ## The raises and the result are working states -/

@[simp] theorem State.raise_eq (s : State) (stage : Option Nat) (e : ErrCode) (info : Word) :
    s.raise stage e info = s.withWork (.finish (.err e stage info)) := rfl
@[simp] theorem State.raiseStage_eq (s : State) (e : ErrCode) (info : Word) :
    s.raiseStage e info = s.withWork (.finish (.err e (some s.k) info)) := rfl
@[simp] theorem State.raiseCommand_eq (s : State) (e : ErrCode) (info : Word) :
    s.raiseCommand e info = s.withWork (.finish (.err e none info)) := rfl
@[simp] theorem State.finishOk_eq (s : State) (out : List Byte) : s.finishOk out = s.withWork (.finish (.ok out)) := rfl
@[simp] theorem State.withWork_withWork (s : State) (v w : Work) : (s.withWork v).withWork w = s.withWork w := rfl

/-! ## startCommand -/

@[simp] theorem State.startCommand_params (s : State) (w : Word) : (s.startCommand w).params = s.params := rfl
@[simp] theorem State.startCommand_irqEn (s : State) (w : Word) : (s.startCommand w).irqEn = s.irqEn := rfl
@[simp] theorem State.startCommand_busy (s : State) (w : Word) : (s.startCommand w).busy = true := rfl
@[simp] theorem State.startCommand_done (s : State) (w : Word) : (s.startCommand w).done = false := rfl
@[simp] theorem State.startCommand_inLen (s : State) (w : Word) : (s.startCommand w).inLen = s.inLen := rfl
@[simp] theorem State.startCommand_outLen (s : State) (w : Word) : (s.startCommand w).outLen = 0 := rfl
@[simp] theorem State.startCommand_keyLen (s : State) (w : Word) : (s.startCommand w).keyLen = s.keyLen := rfl
@[simp] theorem State.startCommand_nstages (s : State) (w : Word) : (s.startCommand w).nstages = s.nstages := rfl
@[simp] theorem State.startCommand_errCode (s : State) (w : Word) : (s.startCommand w).errCode = 0 := rfl
@[simp] theorem State.startCommand_errStage (s : State) (w : Word) : (s.startCommand w).errStage = 0 := rfl
@[simp] theorem State.startCommand_errInfo (s : State) (w : Word) : (s.startCommand w).errInfo = 0 := rfl
@[simp] theorem State.startCommand_stages (s : State) (w : Word) : (s.startCommand w).stages = s.stages := rfl
@[simp] theorem State.startCommand_mem (s : State) (w : Word) : (s.startCommand w).mem = s.mem.clearOut := rfl
@[simp] theorem State.startCommand_phase (s : State) (w : Word) : (s.startCommand w).phase = .run := rfl
@[simp] theorem State.startCommand_op (s : State) (w : Word) : (s.startCommand w).op = w := rfl
@[simp] theorem State.startCommand_k (s : State) (w : Word) : (s.startCommand w).k = s.k := rfl
@[simp] theorem State.startCommand_cur (s : State) (w : Word) : (s.startCommand w).cur = s.cur := rfl
@[simp] theorem State.startCommand_work (s : State) (w : Word) : (s.startCommand w).work = .command := rfl
@[simp] theorem State.startCommand_inputs (s : State) (w : Word) : (s.startCommand w).inputs = s.inputs := rfl
@[simp] theorem State.startCommand_resp (s : State) (w : Word) : (s.startCommand w).resp = s.resp := rfl
@[simp] theorem State.startCommand_draw (s : State) (w : Word) : (s.startCommand w).draw = s.draw := rfl

/-! ## endCommand -/

@[simp] theorem State.endCommand_params (s : State) : (s.endCommand).params = s.params := rfl
@[simp] theorem State.endCommand_irqEn (s : State) : (s.endCommand).irqEn = s.irqEn := rfl
@[simp] theorem State.endCommand_busy (s : State) : (s.endCommand).busy = false := rfl
@[simp] theorem State.endCommand_done (s : State) : (s.endCommand).done = true := rfl
@[simp] theorem State.endCommand_inLen (s : State) : (s.endCommand).inLen = s.inLen := rfl
@[simp] theorem State.endCommand_outLen (s : State) : (s.endCommand).outLen = s.outLen := rfl
@[simp] theorem State.endCommand_keyLen (s : State) : (s.endCommand).keyLen = s.keyLen := rfl
@[simp] theorem State.endCommand_nstages (s : State) : (s.endCommand).nstages = s.nstages := rfl
@[simp] theorem State.endCommand_errCode (s : State) : (s.endCommand).errCode = s.errCode := rfl
@[simp] theorem State.endCommand_errStage (s : State) : (s.endCommand).errStage = s.errStage := rfl
@[simp] theorem State.endCommand_errInfo (s : State) : (s.endCommand).errInfo = s.errInfo := rfl
@[simp] theorem State.endCommand_stages (s : State) : (s.endCommand).stages = s.stages := rfl
@[simp] theorem State.endCommand_mem (s : State) : (s.endCommand).mem = s.mem := rfl
@[simp] theorem State.endCommand_phase (s : State) : (s.endCommand).phase = .idle := rfl
@[simp] theorem State.endCommand_op (s : State) : (s.endCommand).op = 0 := rfl
@[simp] theorem State.endCommand_k (s : State) : (s.endCommand).k = 0 := rfl
@[simp] theorem State.endCommand_cur (s : State) : (s.endCommand).cur = [] := rfl
@[simp] theorem State.endCommand_work (s : State) : (s.endCommand).work = .none := rfl
@[simp] theorem State.endCommand_inputs (s : State) : (s.endCommand).inputs = s.inputs := rfl
@[simp] theorem State.endCommand_resp (s : State) : (s.endCommand).resp = s.resp := rfl
@[simp] theorem State.endCommand_draw (s : State) : (s.endCommand).draw = s.draw := rfl

/-! ## drawn -/

@[simp] theorem State.drawn_params (s : State) : (s.drawn).params = s.params := rfl
@[simp] theorem State.drawn_irqEn (s : State) : (s.drawn).irqEn = s.irqEn := rfl
@[simp] theorem State.drawn_busy (s : State) : (s.drawn).busy = s.busy := rfl
@[simp] theorem State.drawn_done (s : State) : (s.drawn).done = s.done := rfl
@[simp] theorem State.drawn_inLen (s : State) : (s.drawn).inLen = s.inLen := rfl
@[simp] theorem State.drawn_outLen (s : State) : (s.drawn).outLen = s.outLen := rfl
@[simp] theorem State.drawn_keyLen (s : State) : (s.drawn).keyLen = s.keyLen := rfl
@[simp] theorem State.drawn_nstages (s : State) : (s.drawn).nstages = s.nstages := rfl
@[simp] theorem State.drawn_errCode (s : State) : (s.drawn).errCode = s.errCode := rfl
@[simp] theorem State.drawn_errStage (s : State) : (s.drawn).errStage = s.errStage := rfl
@[simp] theorem State.drawn_errInfo (s : State) : (s.drawn).errInfo = s.errInfo := rfl
@[simp] theorem State.drawn_stages (s : State) : (s.drawn).stages = s.stages := rfl
@[simp] theorem State.drawn_mem (s : State) : (s.drawn).mem = s.mem := rfl
@[simp] theorem State.drawn_phase (s : State) : (s.drawn).phase = s.phase := rfl
@[simp] theorem State.drawn_op (s : State) : (s.drawn).op = s.op := rfl
@[simp] theorem State.drawn_k (s : State) : (s.drawn).k = s.k := rfl
@[simp] theorem State.drawn_cur (s : State) : (s.drawn).cur = s.cur := rfl
@[simp] theorem State.drawn_work (s : State) : (s.drawn).work = s.work := rfl
@[simp] theorem State.drawn_inputs (s : State) : (s.drawn).inputs = s.inputs := rfl
@[simp] theorem State.drawn_resp (s : State) : (s.drawn).resp = s.resp := rfl
@[simp] theorem State.drawn_draw (s : State) : (s.drawn).draw = s.draw + 1 := rfl

/-! ## beginStages -/

@[simp] theorem State.beginStages_params (s : State) : (s.beginStages).params = s.params := rfl
@[simp] theorem State.beginStages_irqEn (s : State) : (s.beginStages).irqEn = s.irqEn := rfl
@[simp] theorem State.beginStages_busy (s : State) : (s.beginStages).busy = s.busy := rfl
@[simp] theorem State.beginStages_done (s : State) : (s.beginStages).done = s.done := rfl
@[simp] theorem State.beginStages_inLen (s : State) : (s.beginStages).inLen = s.inLen := rfl
@[simp] theorem State.beginStages_outLen (s : State) : (s.beginStages).outLen = s.outLen := rfl
@[simp] theorem State.beginStages_keyLen (s : State) : (s.beginStages).keyLen = s.keyLen := rfl
@[simp] theorem State.beginStages_nstages (s : State) : (s.beginStages).nstages = s.nstages := rfl
@[simp] theorem State.beginStages_errCode (s : State) : (s.beginStages).errCode = s.errCode := rfl
@[simp] theorem State.beginStages_errStage (s : State) : (s.beginStages).errStage = s.errStage := rfl
@[simp] theorem State.beginStages_errInfo (s : State) : (s.beginStages).errInfo = s.errInfo := rfl
@[simp] theorem State.beginStages_stages (s : State) : (s.beginStages).stages = s.stages := rfl
@[simp] theorem State.beginStages_mem (s : State) : (s.beginStages).mem = s.mem := rfl
@[simp] theorem State.beginStages_phase (s : State) : (s.beginStages).phase = s.phase := rfl
@[simp] theorem State.beginStages_op (s : State) : (s.beginStages).op = s.op := rfl
@[simp] theorem State.beginStages_k (s : State) : (s.beginStages).k = 0 := rfl
@[simp] theorem State.beginStages_cur (s : State) : (s.beginStages).cur = s.readIn := rfl
@[simp] theorem State.beginStages_work (s : State) : (s.beginStages).work = .stage := rfl
@[simp] theorem State.beginStages_inputs (s : State) : (s.beginStages).inputs = s.inputs := rfl
@[simp] theorem State.beginStages_resp (s : State) : (s.beginStages).resp = s.resp := rfl
@[simp] theorem State.beginStages_draw (s : State) : (s.beginStages).draw = s.draw + 1 := rfl

/-! ## powerReset -/

@[simp] theorem State.powerReset_params (s : State) : (s.powerReset).params = s.params := rfl
@[simp] theorem State.powerReset_irqEn (s : State) : (s.powerReset).irqEn = false := rfl
@[simp] theorem State.powerReset_busy (s : State) : (s.powerReset).busy = false := rfl
@[simp] theorem State.powerReset_done (s : State) : (s.powerReset).done = false := rfl
@[simp] theorem State.powerReset_inLen (s : State) : (s.powerReset).inLen = 0 := rfl
@[simp] theorem State.powerReset_outLen (s : State) : (s.powerReset).outLen = 0 := rfl
@[simp] theorem State.powerReset_keyLen (s : State) : (s.powerReset).keyLen = 0 := rfl
@[simp] theorem State.powerReset_nstages (s : State) : (s.powerReset).nstages = 0 := rfl
@[simp] theorem State.powerReset_errCode (s : State) : (s.powerReset).errCode = 0 := rfl
@[simp] theorem State.powerReset_errStage (s : State) : (s.powerReset).errStage = 0 := rfl
@[simp] theorem State.powerReset_errInfo (s : State) : (s.powerReset).errInfo = 0 := rfl
@[simp] theorem State.powerReset_stages (s : State) : (s.powerReset).stages = List.replicate s.params.stageMax Desc.zero := rfl
@[simp] theorem State.powerReset_mem (s : State) : (s.powerReset).mem = [] := rfl
@[simp] theorem State.powerReset_phase (s : State) : (s.powerReset).phase = .idle := rfl
@[simp] theorem State.powerReset_op (s : State) : (s.powerReset).op = 0 := rfl
@[simp] theorem State.powerReset_k (s : State) : (s.powerReset).k = 0 := rfl
@[simp] theorem State.powerReset_cur (s : State) : (s.powerReset).cur = [] := rfl
@[simp] theorem State.powerReset_work (s : State) : (s.powerReset).work = .none := rfl
@[simp] theorem State.powerReset_inputs (s : State) : (s.powerReset).inputs = s.inputs := rfl
@[simp] theorem State.powerReset_resp (s : State) : (s.powerReset).resp = none := rfl
@[simp] theorem State.powerReset_draw (s : State) : (s.powerReset).draw = s.draw + 1 := rfl

end Sys2Proof.Machine
end

