-- ==== Sys2Proof/Laws/Exec.lean ====
section
/-! SUPPORT. What each shared operation of the meanings does, once: the instructions of a running unit, a unit's step put into the state, the end of a stage, and the turns of the Core. -/

namespace Sys2Proof.Machine

variable {s t : State}

/-! ## An instruction of a running unit answers a next state -/

theorem onCommand_eq (f : State → State) (h : s.work = .command) : State.onCommand f s = .next (f s) := by
  simp [State.onCommand, h]

theorem onStage_validate (start : State → State) {j : Nat} (h : s.work = .validate j) :
    State.onStage start s = .next { s with work := .validate (j + 1) } := by simp [State.onStage, h, State.withWork]

theorem onStage_stage (start : State → State) (h : s.work = .stage) : State.onStage start s = .next (start s) := by
  simp [State.onStage, h]

theorem onBadStage_validate (info : Word) {j : Nat} (h : s.work = .validate j) :
    State.onBadStage info s = .next { s with work := .finish (.err .unsupportedFilter (some j) info) } := by
  simp [State.onBadStage, h, State.withWork]

theorem onPredict_eq (f : State → PredictState → State) {st : PredictState} (h : s.work = .predict st) :
    State.onPredict f s = .next (f s st) := by simp [State.onPredict, h]

theorem onPng_eq (f : PngState → UnitStep PngState) {st : PngState} (h : s.work = .png st) :
    State.onPng f s = .next (s.settle .png (f st)) := by simp [State.onPng, h]

theorem onLzw_eq (f : LzwState → UnitStep LzwState) {st : LzwState} (h : s.work = .lzw st) :
    State.onLzw f s = .next (s.settle .lzw (f st)) := by simp [State.onLzw, h]

theorem onA85_eq (f : A85State → UnitStep A85State) {st : A85State} (h : s.work = .a85 st) :
    State.onA85 f s = .next (s.settle .a85 (f st)) := by simp [State.onA85, h]

theorem onAhx_eq (f : AhxState → UnitStep AhxState) {st : AhxState} (h : s.work = .ahx st) :
    State.onAhx f s = .next (s.settle .ahx (f st)) := by simp [State.onAhx, h]

theorem onInflate_eq {place : InflateMode → Bool} (f : InflateState → Option InflateState) {st : InflateState}
    (h : s.work = .inflate st) (hp : place st.mode = true) : State.onInflate place f s = .next (s.inflateNext (f st)) := by
  simp [State.onInflate, h, hp]

/-! ## A unit's step, and the end of a stage -/

theorem settle_more {σ : Type} (wrap : σ → Work) (st : σ) : s.settle wrap (.more st) = { s with work := wrap st } := rfl

theorem settle_fail {σ : Type} (wrap : σ → Work) (e : ErrCode) (info : Word) :
    s.settle wrap (.fail e info) = { s with work := .finish (.err e (some s.k) info) } := rfl

theorem settle_done {σ : Type} (wrap : σ → Work) (out : List Byte) : s.settle wrap (.done out) = s.endStage out := rfl

theorem endStage_of_le {out : List Byte} (h : out.length ≤ s.params.outCap) :
    s.endStage out = { s with cur := out, k := s.k + 1, work := .stage } := by
  rw [State.endStage, if_neg (by omega)]

theorem endStage_of_lt {out : List Byte} (h : s.params.outCap < out.length) :
    s.endStage out = { s with work := .finish (.err .capacityExceeded (some s.k) 0) } := by
  rw [State.endStage, if_pos h]; rfl

theorem inflateNext_some (st : InflateState) : s.inflateNext (some st) = { s with work := .inflate st } := rfl

theorem inflateNext_none : s.inflateNext none = { s with work := .finish (.err .inflateError (some s.k) 0) } := rfl

/-- Everything that the end of a stage can do (40_pipeline.md R156). -/
theorem endStage_cases (s : State) (out : List Byte) :
    (out.length ≤ s.params.outCap ∧ s.endStage out = { s with cur := out, k := s.k + 1, work := .stage }) ∨
    (s.params.outCap < out.length ∧ s.endStage out = { s with work := .finish (.err .capacityExceeded (some s.k) 0) }) := by
  by_cases h : out.length ≤ s.params.outCap
  · exact .inl ⟨h, endStage_of_le h⟩
  · exact .inr ⟨by omega, endStage_of_lt (by omega)⟩

theorem settle_setCur_comm {σ : Type} (wrap : σ → Work) (r : UnitStep σ) (w : Work) :
    (s.withWork w).settle wrap r = s.settle wrap r := by
  cases r <;> rfl

theorem endStage_withWork (w : Work) (out : List Byte) : (s.withWork w).endStage out = s.endStage out := rfl

/-! ## The Core's turns -/

theorem coreTurn_idle (h : s.work = .none) : coreTurn s = .next s := by simp [coreTurn, State.site, h]

theorem coreTurn_finish {r : Result} (h : s.work = .finish r) : coreTurn s = .next (s.complete r) := by
  simp [coreTurn, State.site, State.auto, h]

theorem coreTurn_auto (h : s.site = .auto) : coreTurn s = .next s.auto := by simp [coreTurn, h]

theorem coreTurn_code {f : Format} {bits : List Bool} {i : Instr} {n : Nat} (h : s.site = .code f bits)
    (hd : Sys2Proof.decode f bits = .ok (i, n)) : coreTurn s = exec i (s.advance n) := by simp [coreTurn, h, hd]

theorem coreTurn_reject {f : Format} {bits : List Bool} {r : Reject} (h : s.site = .code f bits)
    (hd : Sys2Proof.decode f bits = .error r) : coreTurn s = .next s.reject := by simp [coreTurn, h, hd]

/-- The instruction that a descriptor is (30_encoding.md R112, R114; 10_state.md R45). -/
theorem decode_desc (d : Desc) : Sys2Proof.decode .stage d.bits =
    .ok (if d.kind = 1 then .flate (if d.predP then some d.predictor else none) (if d.colsP then some d.columns else none)
      else if d.kind = 2 then .ahx
      else if d.kind = 3 then .lzw
      else if d.kind = 4 then .a85
      else if d.kind = 5 then (if d.cnameP || d.ctypeP then .cryptNamed d.cnameP d.ctypeP else .crypt)
      else .kindUnknown d.kind, 128) := by
  have h := decode_stage_words d.kindWord d.flagsWord d.predictor d.columns []
  rw [List.append_nil] at h
  have hk : (d.kindWord.setWidth 8 : BitVec 8) = d.kind := by simp [Desc.kindWord]
  have hf : ∀ i, d.flagsWord.getLsbD i =
      if i = 0 then d.predP else if i = 1 then d.colsP else if i = 2 then d.cnameP else if i = 3 then d.ctypeP else false := by
    intro i
    by_cases hi : i < 32
    · simp only [Desc.flagsWord]
      generalize d.predP = a; generalize d.colsP = b; generalize d.cnameP = c; generalize d.ctypeP = e
      revert a b c e i; decide
    · rw [BitVec.getLsbD_of_ge _ _ (by omega)]; repeat (rw [if_neg (by omega)])
  rw [Desc.bits, h, decodeStage, hk]
  simp only [hf]
  rfl

theorem withWork_self (s : State) : s.withWork s.work = s := rfl

theorem step_core (h : s.inputs = []) : step s = coreTurn s := by simp [step, h]

end Sys2Proof.Machine
end

