-- ==== Sys2Proof/Laws/Memory.lean ====
section
/-! SUPPORT. The laws of the memory: reading after writing, and that every operation keeps the canonical form. -/

namespace Sys2Proof.Machine

@[simp] theorem Memory.get_set_self (m : Memory) (a : Nat) (b : Byte) : (Memory.set m a b).get a = some b := by
  induction m with
  | nil => simp [Memory.set, Memory.get]
  | cons c m ih =>
    obtain ⟨k, v⟩ := c
    simp only [Memory.set]
    split
    · simp [Memory.get]
    · split
      · simp [Memory.get]
      · next h => simp only [Memory.get]; rw [if_neg (Ne.symm h), ih]

theorem Memory.get_set_ne (m : Memory) {a x : Nat} (b : Byte) (h : x ≠ a) : (Memory.set m a b).get x = Memory.get m x := by
  induction m with
  | nil => simp [Memory.set, Memory.get, Ne.symm h]
  | cons c m ih =>
    obtain ⟨k, v⟩ := c
    simp only [Memory.set]
    split
    · simp [Memory.get, Ne.symm h]
    · split
      · next hk => subst hk; simp [Memory.get, Ne.symm h]
      · simp [Memory.get, ih]

theorem Memory.mem_set {m : Memory} {a : Nat} {b : Byte} {c : Host.Cell} (h : c ∈ Memory.set m a b) : c = (a, b) ∨ c ∈ m := by
  induction m with
  | nil => simpa [Memory.set] using h
  | cons d m ih =>
    obtain ⟨k, v⟩ := d
    simp only [Memory.set] at h
    split at h
    · simpa using h
    · split at h
      · rcases List.mem_cons.mp h with h | h
        · exact .inl h
        · exact .inr (List.mem_cons_of_mem _ h)
      · rcases List.mem_cons.mp h with h | h
        · exact .inr (h ▸ List.mem_cons_self)
        · exact (ih h).imp_right (List.mem_cons_of_mem _)

theorem Memory.wf_set {m : Memory} (a : Nat) (b : Byte) (h : Memory.wf m) : Memory.wf (Memory.set m a b) := by
  induction m with
  | nil => simp [Memory.set, Memory.wf]
  | cons c m ih =>
    obtain ⟨k, v⟩ := c
    obtain ⟨hk, hm⟩ := List.pairwise_cons.mp h
    simp only [Memory.set]
    split
    · next hlt =>
      refine List.pairwise_cons.mpr ⟨fun c hc => ?_, h⟩
      rcases List.mem_cons.mp hc with rfl | hc
      · exact hlt
      · exact Nat.lt_trans hlt (hk c hc)
    · split
      · next heq => subst heq; exact List.pairwise_cons.mpr ⟨hk, hm⟩
      · next h1 h2 =>
        refine List.pairwise_cons.mpr ⟨fun c hc => ?_, ih hm⟩
        rcases Memory.mem_set hc with rfl | hc
        · simp only; omega
        · exact hk c hc

theorem Memory.wf_setBytes {m : Memory} (a : Nat) (bs : List Byte) (h : Memory.wf m) : Memory.wf (Memory.setBytes m a bs) := by
  induction bs generalizing m a with
  | nil => exact h
  | cons b bs ih => exact ih (a + 1) (Memory.wf_set a b h)

theorem Memory.mem_setBytes {m : Memory} {a : Nat} {bs : List Byte} {c : Host.Cell} (h : c ∈ Memory.setBytes m a bs) :
    (a ≤ c.1 ∧ c.1 < a + bs.length) ∨ c ∈ m := by
  induction bs generalizing m a with
  | nil => exact .inr h
  | cons b bs ih =>
    rcases ih h with h | h
    · exact .inl (by simp only [List.length_cons]; omega)
    · rcases Memory.mem_set h with rfl | h
      · exact .inl (by simp)
      · exact .inr h

/-- Outside the bytes written, a write of bytes leaves every byte as it was. -/
theorem Memory.get_setBytes_outside (m : Memory) (a : Nat) (bs : List Byte) (x : Nat) (h : x < a ∨ a + bs.length ≤ x) :
    (Memory.setBytes m a bs).get x = Memory.get m x := by
  induction bs generalizing m a with
  | nil => rfl
  | cons b bs ih =>
    simp only [List.length_cons] at h
    rw [Memory.setBytes, ih _ _ (by omega), Memory.get_set_ne _ _ (by omega)]

/-- The bytes written are read back. -/
theorem Memory.get_setBytes_inside (m : Memory) (a : Nat) (bs : List Byte) (i : Nat) (h : i < bs.length) :
    (Memory.setBytes m a bs).get (a + i) = some bs[i] := by
  induction bs generalizing m a i with
  | nil => simp at h
  | cons b bs ih =>
    cases i with
    | zero => rw [Memory.setBytes, Nat.add_zero, Memory.get_setBytes_outside _ _ _ _ (by omega)]; simp
    | succ i =>
      rw [Memory.setBytes, show a + (i + 1) = a + 1 + i by omega, ih _ _ _ (by simpa using h)]; simp

theorem Memory.get_append (m n : Memory) (a : Nat) : Memory.get (m ++ n) a = (Memory.get m a).or (Memory.get n a) := by
  induction m with
  | nil => simp [Memory.get]
  | cons c m ih =>
    obtain ⟨k, v⟩ := c
    simp only [List.cons_append, Memory.get]
    split <;> simp [ih]

theorem Memory.get_clearOut (m : Memory) (a : Nat) :
    (Memory.clearOut m).get a = if a < outBase then Memory.get m a else none := by
  induction m with
  | nil => simp [Memory.clearOut, Memory.get]
  | cons c m ih =>
    obtain ⟨k, v⟩ := c
    simp only [Memory.clearOut, List.filter_cons, Memory.get] at *
    by_cases h : k < outBase
    · simp only [h, decide_true, if_true, Memory.get, ih]
      by_cases hk : k = a
      · subst hk; simp [h]
      · simp [hk]
    · simp only [h, decide_false]
      by_cases hk : k = a
      · subst hk; simp [h, ih]
      · simp [hk, ih]

theorem Memory.get_cellsFrom (a x : Nat) (bs : List Byte) :
    Memory.get (cellsFrom a bs) x = if a ≤ x then bs[x - a]? else none := by
  induction bs generalizing a with
  | nil => simp [cellsFrom, Memory.get]
  | cons b bs ih =>
    rw [cellsFrom, Memory.get, ih]
    by_cases h : a = x
    · subst h; simp
    · rw [if_neg h]
      by_cases h2 : a ≤ x
      · rw [if_pos (by omega), if_pos h2, show x - a = (x - (a + 1)) + 1 by omega, List.getElem?_cons_succ]
      · rw [if_neg (by omega), if_neg h2]

/-- After a result is stored, OUT_BUF holds it from its first byte on, nothing else is listed there, and the other buffers
are as they were. -/
theorem Memory.get_storeOut (m : Memory) (s : List Byte) (a : Nat) :
    (Memory.storeOut m s).get a = if a < outBase then Memory.get m a else s[a - outBase]? := by
  rw [Memory.storeOut, Memory.get_append, Memory.get_clearOut, Memory.get_cellsFrom]
  by_cases h : a < outBase
  · rw [if_pos h, if_neg (by omega), if_pos h]; simp
  · rw [if_neg h, if_pos (by omega), if_neg h]; simp

theorem Memory.mem_clearOut {m : Memory} {c : Host.Cell} : c ∈ Memory.clearOut m ↔ c ∈ m ∧ c.1 < outBase := by
  simp [Memory.clearOut]

theorem Memory.mem_cellsFrom {a : Nat} {bs : List Byte} {c : Host.Cell} (h : c ∈ cellsFrom a bs) :
    a ≤ c.1 ∧ c.1 < a + bs.length := by
  induction bs generalizing a with
  | nil => simp [cellsFrom] at h
  | cons b bs ih =>
    rcases List.mem_cons.mp h with rfl | h
    · simp
    · have := ih h; simp only [List.length_cons]; omega

theorem Memory.wf_clearOut {m : Memory} (h : Memory.wf m) : Memory.wf (Memory.clearOut m) := List.Pairwise.filter _ h

theorem Memory.wf_cellsFrom (a : Nat) (bs : List Byte) : Memory.wf (cellsFrom a bs) := by
  induction bs generalizing a with
  | nil => simp [cellsFrom, Memory.wf]
  | cons b bs ih =>
    refine List.pairwise_cons.mpr ⟨fun c hc => ?_, ih (a + 1)⟩
    have := Memory.mem_cellsFrom hc
    simp only; omega

theorem Memory.wf_storeOut {m : Memory} (s : List Byte) (h : Memory.wf m) : Memory.wf (Memory.storeOut m s) := by
  refine List.pairwise_append.mpr ⟨Memory.wf_clearOut h, Memory.wf_cellsFrom _ _, fun x hx y hy => ?_⟩
  have h1 := (Memory.mem_clearOut.mp hx).2
  have h2 := (Memory.mem_cellsFrom hy).1
  omega

end Sys2Proof.Machine
end

