-- ==== Sys2Proof/Laws/Port.lean ====
section
/-! SUPPORT. What an access to the host port does, once for each kind of register and for the buffers. -/

namespace Sys2Proof.Machine

variable {s : State} {off : Nat} {n : Width} {v : Word}

theorem Width.bytes_pos (n : Width) : 1 ≤ n.bytes := by cases n <;> decide

theorem Width.bytes_le (n : Width) : n.bytes ≤ 4 := by cases n <;> decide

/-! ## The register page -/

theorem memRead_reg (h : off < 0x1000) (ha : off % 4 = 0) (hr : s.regRead off = some v) : s.memRead off .w4 = (s, .okayRead v) := by
  rw [State.memRead, if_pos h, if_pos ⟨rfl, ha⟩, hr]

theorem memRead_reg_none (h : off < 0x1000) (hr : s.regRead off = none) : s.memRead off n = (s, .busError) := by
  rw [State.memRead, if_pos h, hr]; split <;> rfl

theorem memRead_reg_bad (h : off < 0x1000) (ha : n ≠ .w4 ∨ off % 4 ≠ 0) : s.memRead off n = (s, .busError) := by
  rw [State.memRead, if_pos h, if_neg]; rintro ⟨rfl, h4⟩; rcases ha with ha | ha <;> exact ha (by first | rfl | exact h4)

theorem memWrite_reg {t : State} (h : off < 0x1000) (ha : off % 4 = 0) (hb : s.busy = false ∨ off = 0x020 ∨ off = 0x024)
    (hw : s.regWrite off v = some t) : s.memWrite off .w4 v = (t, .okayWrite) := by
  rw [State.memWrite, if_pos h, if_pos ⟨rfl, ha, hb⟩, hw]

theorem memWrite_reg_none (h : off < 0x1000) (hw : s.regWrite off v = none) : s.memWrite off n v = (s, .busError) := by
  rw [State.memWrite, if_pos h, hw]; split <;> rfl

theorem memWrite_reg_bad (h : off < 0x1000) (ha : n ≠ .w4 ∨ off % 4 ≠ 0) : s.memWrite off n v = (s, .busError) := by
  rw [State.memWrite, if_pos h, if_neg]; rintro ⟨rfl, h4, -⟩; rcases ha with ha | ha <;> exact ha (by first | rfl | exact h4)

/-- While a command runs, only CTRL and STATUS take a write (20_memory.md R92). -/
theorem memWrite_busy (hb : s.busy = true) (ho : ¬(off = 0x020 ∨ off = 0x024)) : s.memWrite off n v = (s, .busError) := by
  rw [State.memWrite]
  split
  · rw [if_neg]; rintro ⟨-, -, h | h⟩
    · simp [hb] at h
    · exact ho h
  · rw [if_neg]; simp [hb]

/-- The registers at fixed offsets, and the four of every descriptor. -/
theorem regRead_stage {k r : Nat} (hk : k < s.params.stageMax) (hr : r < 16) :
    s.regRead (0x100 + 16 * k + r) = some ((s.desc k).read r) := by
  have h : ∀ c, c < 0x100 → ¬(0x100 + 16 * k + r = c) := by intro c hc; omega
  rw [State.regRead]
  simp only [if_neg (h _ (by decide : 0x000 < 0x100)), if_neg (h _ (by decide : 0x004 < 0x100)),
    if_neg (h _ (by decide : 0x008 < 0x100)), if_neg (h _ (by decide : 0x00C < 0x100)), if_neg (h _ (by decide : 0x010 < 0x100)),
    if_neg (h _ (by decide : 0x020 < 0x100)), if_neg (h _ (by decide : 0x024 < 0x100)), if_neg (h _ (by decide : 0x028 < 0x100)),
    if_neg (h _ (by decide : 0x02C < 0x100)), if_neg (h _ (by decide : 0x030 < 0x100)), if_neg (h _ (by decide : 0x034 < 0x100)),
    if_neg (h _ (by decide : 0x038 < 0x100)), if_neg (h _ (by decide : 0x040 < 0x100)), if_neg (h _ (by decide : 0x044 < 0x100)),
    if_neg (h _ (by decide : 0x048 < 0x100))]
  rw [if_pos (by simp [State.isStageOffset]; omega), show (0x100 + 16 * k + r - 0x100) / 16 = k by omega,
    show (0x100 + 16 * k + r) % 16 = r by omega]

theorem regWrite_stage {k r : Nat} (hk : k < s.params.stageMax) (hr : r < 16) :
    s.regWrite (0x100 + 16 * k + r) v = some { s with stages := s.stages.set k ((s.desc k).write r v) } := by
  have h : ∀ c, c < 0x100 → ¬(0x100 + 16 * k + r = c) := by intro c hc; omega
  rw [State.regWrite]
  rw [if_neg (by simp; omega)]
  simp only [if_neg (h _ (by decide : 0x020 < 0x100)), if_neg (h _ (by decide : 0x024 < 0x100)), if_neg (h _ (by decide : 0x028 < 0x100)),
    if_neg (h _ (by decide : 0x02C < 0x100)), if_neg (h _ (by decide : 0x030 < 0x100)), if_neg (h _ (by decide : 0x034 < 0x100)),
    if_neg (h _ (by decide : 0x038 < 0x100))]
  rw [if_neg (by simp; omega), if_pos (by simp [State.isStageOffset]; omega), show (0x100 + 16 * k + r - 0x100) / 16 = k by omega,
    show (0x100 + 16 * k + r) % 16 = r by omega]

/-- The offsets of the registers outside the descriptors (10_state.md R30). -/
theorem regRead_none (h : off ∉ [0x000, 0x004, 0x008, 0x00C, 0x010, 0x020, 0x024, 0x028, 0x02C, 0x030, 0x034, 0x038, 0x040, 0x044, 0x048])
    (hs : s.isStageOffset off = false) : s.regRead off = none := by
  simp only [List.mem_cons, List.not_mem_nil, or_false, not_or] at h
  simp only [State.regRead, h, if_false, hs, Bool.false_eq_true]

theorem regWrite_none (h : off ∉ [0x000, 0x004, 0x008, 0x00C, 0x010, 0x020, 0x024, 0x028, 0x02C, 0x030, 0x034, 0x038, 0x040, 0x044, 0x048])
    (hs : s.isStageOffset off = false) : s.regWrite off v = none := by
  simp only [List.mem_cons, List.not_mem_nil, or_false, not_or] at h
  simp only [State.regWrite, h, if_false, hs, Bool.false_eq_true, decide_false, Bool.or_false]

/-! ## The buffers -/

theorem insideWindow_iff {base size : Nat} : insideWindow base size off n.bytes = true ∧ off % n.bytes = 0 ↔
    insideAligned base size off n.bytes := by
  simp [insideWindow, insideAligned]; tauto

theorem writableBuffer_iff : s.writableBuffer off n.bytes = true ↔
    insideAligned 0x001000 256 off n.bytes ∨ insideAligned 0x100000 s.params.inCap off n.bytes := by
  rw [← insideWindow_iff, ← insideWindow_iff, State.writableBuffer]; simp; tauto

theorem readableBuffer_iff : s.readableBuffer off n.bytes = true ↔
    insideAligned 0x001000 256 off n.bytes ∨ insideAligned 0x100000 s.params.inCap off n.bytes ∨
      insideAligned 0x200000 s.params.outCap off n.bytes := by
  rw [State.readableBuffer, Bool.or_eq_true, writableBuffer_iff, ← insideWindow_iff (base := 0x200000)]; simp; tauto

theorem memRead_buffer (h : 0x1000 ≤ off) (hr : s.readableBuffer off n.bytes = true) :
    s.memRead off n = ({ s with draw := s.draw + 1 }, .okayRead (BitVec.ofNat 32 (natOfLe (s.bytesAt off n.bytes)))) := by
  rw [State.memRead, if_neg (by omega), if_pos hr]

theorem memRead_buffer_bad (h : 0x1000 ≤ off) (hr : s.readableBuffer off n.bytes = false) : s.memRead off n = (s, .busError) := by
  rw [State.memRead, if_neg (by omega), if_neg (by simp [hr])]

theorem memWrite_buffer (h : 0x1000 ≤ off) (hb : s.busy = false) (hr : s.writableBuffer off n.bytes = true) :
    s.memWrite off n v = ({ s with mem := s.mem.setBytes off (leBytes n.bytes v.toNat) }, .okayWrite) := by
  rw [State.memWrite, if_neg (by omega), if_pos ⟨hb, hr⟩]

theorem memWrite_buffer_bad (h : 0x1000 ≤ off) (hr : ¬(s.busy = false ∧ s.writableBuffer off n.bytes = true)) :
    s.memWrite off n v = (s, .busError) := by
  rw [State.memWrite, if_neg (by omega), if_neg hr]

/-! ## Byte order -/

@[simp] theorem leBytes_length (n v : Nat) : (leBytes n v).length = n := by
  induction n generalizing v with
  | zero => rfl
  | succ n ih => simp [leBytes, ih]

theorem leBytes_getElem (n v i : Nat) (h : i < n) : (leBytes n v)[i]'(by simpa using h) = BitVec.ofNat 8 (v / 256 ^ i) := by
  induction n generalizing v i with
  | zero => omega
  | succ n ih =>
    cases i with
    | zero => simp [leBytes]
    | succ i =>
      simp only [leBytes, List.getElem_cons_succ]
      rw [ih _ _ (by omega), Nat.pow_succ', Nat.div_div_eq_div_mul]

theorem natOfLe_eq_sum (bs : List Byte) : natOfLe bs = ((List.range bs.length).map fun i => (bs.getD i 0).toNat * 256 ^ i).sum := by
  induction bs with
  | nil => rfl
  | cons b bs ih =>
    rw [natOfLe, ih, List.length_cons, List.range_succ_eq_map, List.map_cons, List.sum_cons, List.map_map]
    simp only [List.getD_cons_zero, Nat.pow_zero, Nat.mul_one, Nat.add_left_cancel_iff]
    rw [← List.sum_map_mul_left]
    congr 1
    apply List.map_congr_left
    intro i _
    simp only [Function.comp, List.getD_cons_succ, Nat.succ_eq_add_one, Nat.pow_succ']
    ring

theorem natOfLe_lt (bs : List Byte) : natOfLe bs < 256 ^ bs.length := by
  induction bs with
  | nil => simp [natOfLe]
  | cons b bs ih => rw [natOfLe, List.length_cons, Nat.pow_succ']; have := b.isLt; omega

end Sys2Proof.Machine
end

