-- ==== Sys2Proof/Laws/PerInstr.lean ====
section
/-! SUPPORT. The family Encoding: what is true of each instruction as syntax. The decoder reads a well-formed instruction back from the bits that the encoder writes, in every format that spells it. -/

namespace Sys2Proof.Laws.Encoding

open Sys2Proof Machine

/-- What may follow an instruction in its window. Only the two-byte marks of ASCII85 look ahead (30_encoding.md R118): `~` may
not follow the digit `<` at the start of the text, and `>` may not follow the invalid character `~`. -/
def Follows (f : Format) (i : Instr) (rest : List Bool) : Prop :=
  (∀ pending, f = .a85Char true pending → i = .a85Digit 0x3C → rest.take 8 ≠ byteBits 0x7E) ∧
    (i = .a85Invalid 0x7E → rest.take 8 ≠ byteBits 0x3E)

/-- The decoder reads the instruction back, and takes exactly the bits that the encoder wrote. -/
def Statement (i : Instr) : Prop :=
  ∀ (f : Format) (rest : List Bool), i.wf = true → f.spells i → Follows f i rest →
    decode f (encode f i ++ rest) = .ok (i, (encode f i).length)

theorem lzwWith_elim {f : Format} {p : Nat → Nat → Bool → Prop} (h : f.lzwWith p) :
    ∃ w dl afterClear, f = .lzwCode w dl afterClear ∧ 9 ≤ w ∧ w ≤ 12 ∧ p w dl afterClear := by
  cases f with
  | lzwCode w dl afterClear => exact ⟨_, _, _, rfl, h⟩
  | _ => exact h.elim

theorem a85With_elim {f : Format} {p : Bool → Bool → Prop} (h : f.a85With p) :
    ∃ atStart pending, f = .a85Char atStart pending ∧ p atStart pending := by
  cases f with
  | a85Char atStart pending => exact ⟨_, _, rfl, h⟩
  | _ => exact h.elim

theorem litLenWith_elim {f : Format} {sym : Nat} (h : f.litLenWith sym) : ∃ t, f = .litLen t ∧ t.spells sym := by
  cases f with
  | litLen t => exact ⟨_, rfl, h⟩
  | _ => exact h.elim

theorem distWith_elim {f : Format} {sym : Nat} (h : f.distWith sym) : ∃ t, f = .dist t ∧ t.spells sym := by
  cases f with
  | dist t => exact ⟨_, rfl, h⟩
  | _ => exact h.elim

theorem codeLenWith_elim {f : Format} {sym : Nat} (h : f.codeLenWith sym) : ∃ t, f = .codeLen t ∧ t.spells sym := by
  cases f with
  | codeLen t => exact ⟨_, rfl, h⟩
  | _ => exact h.elim

/-- The byte that the ASCII85 decoder sees after an instruction of one byte is the one that the window holds there. -/
theorem a85_next (atStart pending : Bool) (b : Byte) (rest : List Bool) :
    ∃ next, (∀ c : Byte, next = some c → rest.take 8 = byteBits c) ∧
      decode (.a85Char atStart pending) (byteBits b ++ rest) = .ok (decodeA85Char atStart pending b next) := by
  have h0 : ¬byteBits b ++ rest = [] := by intro h; simpa using congrArg List.length h
  have h8 : ¬(byteBits b ++ rest).length < 8 := by simp
  have ht : (byteBits b ++ rest).take 8 = byteBits b := by rw [byteBits, take_append_lsb]
  have hd : (byteBits b ++ rest).drop 8 = rest := by
    rw [List.drop_append, List.drop_of_length_le (by simp), byteBits_length, List.nil_append, Nat.sub_self, List.drop_zero]
  by_cases h16 : (byteBits b ++ rest).length < 16
  · exact ⟨none, by simp, by rw [decode, if_neg h0, if_neg h8, ht, ofNat_natOfLsb_byte, if_pos h16]⟩
  · have hl : (rest.take 8).length = 8 := by simp only [List.length_append, byteBits_length] at h16; simp; omega
    refine ⟨some (BitVec.ofNat 8 (natOfLsb (rest.take 8))), ?_, ?_⟩
    · rintro _ ⟨⟩
      have := natOfLsb_lt (rest.take 8)
      rw [hl] at this
      rw [byteBits, BitVec.toNat_ofNat, Nat.mod_eq_of_lt this, ← lsbBits_natOfLsb (rest.take 8) 8 hl]
    · rw [decode, if_neg h0, if_neg h8, ht, hd, ofNat_natOfLsb_byte, if_neg h16]

/-- The two-byte marks of ASCII85. -/
theorem a85_pair (atStart pending : Bool) (b c : Byte) (rest : List Bool) :
    decode (.a85Char atStart pending) ((byteBits b ++ byteBits c) ++ rest) = .ok (decodeA85Char atStart pending b (some c)) := by
  have h0 : ¬(byteBits b ++ byteBits c) ++ rest = [] := by intro h; simpa using congrArg List.length h
  have h8 : ¬((byteBits b ++ byteBits c) ++ rest).length < 8 := by simp
  have h16 : ¬((byteBits b ++ byteBits c) ++ rest).length < 16 := by simp; omega
  have ht : ((byteBits b ++ byteBits c) ++ rest).take 8 = byteBits b := by rw [List.append_assoc, byteBits, take_append_lsb]
  have hd : (((byteBits b ++ byteBits c) ++ rest).drop 8).take 8 = byteBits c := by
    rw [List.append_assoc, List.drop_append, List.drop_of_length_le (by simp), byteBits_length, List.nil_append, Nat.sub_self,
      List.drop_zero, byteBits, take_append_lsb]
  rw [decode, if_neg h0, if_neg h8, ht, hd, ofNat_natOfLsb_byte, if_neg h16, ofNat_natOfLsb_byte]

theorem decode : Statement .decode := by
  rintro f rest hw h0 -
  rw [show f = _ from h0]
  rw [encode, decode_cmd]
  simp [decodeCmd]

theorem flateEncode : Statement .flateEncode := by
  rintro f rest hw h0 -
  rw [show f = _ from h0]
  rw [encode, decode_cmd]
  simp [decodeCmd]

theorem rc4 : Statement .rc4 := by
  rintro f rest hw h0 -
  rw [show f = _ from h0]
  rw [encode, decode_cmd]
  simp [decodeCmd]

theorem illegalCommand (w : Word) : Statement (.illegalCommand w) := by
  rintro f rest hw h0 -
  rw [show f = _ from h0]
  rw [encode, decode_cmd]
  simp [Instr.wf] at hw
  simp [decodeCmd, hw]

theorem flate (p : Option Word) (c : Option Word) : Statement (.flate p c) := by
  rintro f rest hw h0 -
  rw [show f = _ from h0]
  rw [encode, decode_stage, encodeStage_length]
  cases p <;> cases c <;> simp [decodeStage, natOfLsb, BitVec.getLsbD] <;> decide

theorem ahx : Statement .ahx := by
  rintro f rest hw h0 -
  rw [show f = _ from h0]
  rw [encode, decode_stage, encodeStage_length]
  rfl

theorem lzw : Statement .lzw := by
  rintro f rest hw h0 -
  rw [show f = _ from h0]
  rw [encode, decode_stage, encodeStage_length]
  rfl

theorem a85 : Statement .a85 := by
  rintro f rest hw h0 -
  rw [show f = _ from h0]
  rw [encode, decode_stage, encodeStage_length]
  rfl

theorem crypt : Statement .crypt := by
  rintro f rest hw h0 -
  rw [show f = _ from h0]
  rw [encode, decode_stage, encodeStage_length]
  rfl

theorem cryptNamed (cname : Bool) (ctype : Bool) : Statement (.cryptNamed cname ctype) := by
  rintro f rest hw h0 -
  rw [show f = _ from h0]
  rw [encode, decode_stage, encodeStage_length]
  cases cname <;> cases ctype <;> first | rfl | cases hw

theorem kindUnknown (kind : BitVec 8) : Statement (.kindUnknown kind) := by
  rintro f rest hw h0 -
  rw [show f = _ from h0]
  rw [encode, decode_stage, encodeStage_length]
  have h : (kind.setWidth 32).setWidth 8 = kind := by simp
  simp only [decodeStage, h]
  simp only [Instr.wf, Bool.or_eq_true, beq_iff_eq, decide_eq_true_eq] at hw
  have ne : ∀ k : BitVec 8, 1 ≤ k.toNat → k.toNat ≤ 5 → kind ≠ k := by
    rintro k h1 h5 rfl; rcases hw with rfl | h <;> simp_all
    omega
  rw [if_neg (ne 1 (by decide) (by decide)), if_neg (ne 2 (by decide) (by decide)), if_neg (ne 3 (by decide) (by decide)),
    if_neg (ne 4 (by decide) (by decide)), if_neg (ne 5 (by decide) (by decide))]

theorem predNone : Statement .predNone := by
  rintro f rest hw h0 -
  rw [show f = _ from h0]
  rw [encode, decode_pred]
  simp [decodePred]

theorem predPng10 : Statement .predPng10 := by
  rintro f rest hw h0 -
  rw [show f = _ from h0]
  rw [encode, decode_pred]
  simp [decodePred]

theorem predPng11 : Statement .predPng11 := by
  rintro f rest hw h0 -
  rw [show f = _ from h0]
  rw [encode, decode_pred]
  simp [decodePred]

theorem predPng12 : Statement .predPng12 := by
  rintro f rest hw h0 -
  rw [show f = _ from h0]
  rw [encode, decode_pred]
  simp [decodePred]

theorem predPng13 : Statement .predPng13 := by
  rintro f rest hw h0 -
  rw [show f = _ from h0]
  rw [encode, decode_pred]
  simp [decodePred]

theorem predPng14 : Statement .predPng14 := by
  rintro f rest hw h0 -
  rw [show f = _ from h0]
  rw [encode, decode_pred]
  simp [decodePred]

theorem predPng15 : Statement .predPng15 := by
  rintro f rest hw h0 -
  rw [show f = _ from h0]
  rw [encode, decode_pred]
  simp [decodePred]

theorem predUnsupported (value : Word) : Statement (.predUnsupported value) := by
  rintro f rest hw h0 -
  rw [show f = _ from h0]
  rw [encode, decode_pred]
  simp only [Instr.wf, Bool.and_eq_true, bne_iff_ne, ne_eq, Bool.not_eq_true', Bool.and_eq_false_iff, decide_eq_false_iff_not] at hw
  have ne : ∀ k : Word, 10 ≤ k.toNat → k.toNat ≤ 15 → value ≠ k := by
    rintro k h1 h5 rfl; rcases hw.2 with h | h <;> exact h (by assumption)
  rw [decodePred, if_neg hw.1, if_neg (ne 10 (by decide) (by decide)), if_neg (ne 11 (by decide) (by decide)),
    if_neg (ne 12 (by decide) (by decide)), if_neg (ne 13 (by decide) (by decide)), if_neg (ne 14 (by decide) (by decide)),
    if_neg (ne 15 (by decide) (by decide)), wordBits_length]

theorem pngNone : Statement .pngNone := by
  rintro f rest hw h0 -
  rw [show f = _ from h0]
  rw [encode, decode_pngRow]
  simp [decodePngRow]

theorem pngSub : Statement .pngSub := by
  rintro f rest hw h0 -
  rw [show f = _ from h0]
  rw [encode, decode_pngRow]
  simp [decodePngRow]

theorem pngUp : Statement .pngUp := by
  rintro f rest hw h0 -
  rw [show f = _ from h0]
  rw [encode, decode_pngRow]
  simp [decodePngRow]

theorem pngUnsupported (ft : Byte) : Statement (.pngUnsupported ft) := by
  rintro f rest hw h0 -
  rw [show f = _ from h0]
  rw [encode, decode_pngRow]
  simp only [Instr.wf, decide_eq_true_eq] at hw
  have ne : ∀ k : Byte, k.toNat < 3 → ft ≠ k := by rintro k h rfl; omega
  rw [decodePngRow, if_neg (ne 0 (by decide)), if_neg (ne 1 (by decide)), if_neg (ne 2 (by decide)), byteBits_length]

theorem lzwLiteral (b : Byte) : Statement (.lzwLiteral b) := by
  rintro f rest hw h0 -
  obtain ⟨w, dl, afterClear, rfl, hs⟩ := lzwWith_elim h0
  have h9 := Nat.pow_le_pow_right (n := 2) (by omega) hs.1
  have hb := b.isLt
  rw [encode, encodeLzw, decode_lzwCode _ _ (by omega), msbBits_length]
  simp only [decodeLzwCode, if_pos hb, BitVec.ofNat_toNat, BitVec.setWidth_eq]

theorem lzwClear : Statement .lzwClear := by
  rintro f rest hw h0 -
  obtain ⟨w, dl, afterClear, rfl, hs⟩ := lzwWith_elim h0
  have h9 := Nat.pow_le_pow_right (n := 2) (by omega) hs.1
  rw [encode, encodeLzw, decode_lzwCode _ _ (by omega), msbBits_length]
  rfl

theorem lzwStop : Statement .lzwStop := by
  rintro f rest hw h0 -
  obtain ⟨w, dl, afterClear, rfl, hs⟩ := lzwWith_elim h0
  have h9 := Nat.pow_le_pow_right (n := 2) (by omega) hs.1
  rw [encode, encodeLzw, decode_lzwCode _ _ (by omega), msbBits_length]
  rfl

theorem lzwDict (code : BitVec 12) : Statement (.lzwDict code) := by
  rintro f rest hw h0 -
  obtain ⟨w, dl, afterClear, rfl, hs⟩ := lzwWith_elim h0
  simp only [Instr.wf, decide_eq_true_eq] at hw
  have h1 : ¬code.toNat < 256 := by omega
  have h2 : ¬code.toNat = 256 := by omega
  have h3 : ¬code.toNat = 257 := by omega
  rw [encode, encodeLzw, decode_lzwCode _ _ hs.2.2.1, msbBits_length]
  simp only [decodeLzwCode, if_neg h1, if_neg h2, if_neg h3, if_pos hs.2.2.2, BitVec.ofNat_toNat, BitVec.setWidth_eq]

theorem lzwSelf (code : BitVec 12) : Statement (.lzwSelf code) := by
  rintro f rest hw h0 -
  obtain ⟨w, dl, afterClear, rfl, hs⟩ := lzwWith_elim h0
  simp only [Instr.wf, decide_eq_true_eq] at hw
  have h1 : ¬code.toNat < 256 := by omega
  have h2 : ¬code.toNat = 256 := by omega
  have h3 : ¬code.toNat = 257 := by omega
  rw [encode, encodeLzw, decode_lzwCode _ _ hs.2.2.1, msbBits_length]
  obtain ⟨-, -, -, rfl, rfl⟩ := hs
  simp only [decodeLzwCode, if_neg h1, if_neg h2, if_neg h3, Nat.lt_irrefl, if_false, decide_true, Bool.not_false,
    Bool.and_self, if_true, BitVec.ofNat_toNat, BitVec.setWidth_eq]

theorem lzwInvalid (code : BitVec 12) : Statement (.lzwInvalid code) := by
  rintro f rest hw h0 -
  obtain ⟨w, dl, afterClear, rfl, hs⟩ := lzwWith_elim h0
  simp only [Instr.wf, decide_eq_true_eq] at hw
  have h1 : ¬code.toNat < 256 := by omega
  have h2 : ¬code.toNat = 256 := by omega
  have h3 : ¬code.toNat = 257 := by omega
  rw [encode, encodeLzw, decode_lzwCode _ _ hs.2.2.1, msbBits_length]
  have h4 : ¬code.toNat < dl := fun h => by rcases hs.2.2.2 with h' | h' <;> omega
  simp only [decodeLzwCode, if_neg h1, if_neg h2, if_neg h3, if_neg h4, BitVec.ofNat_toNat, BitVec.setWidth_eq]
  rcases hs.2.2.2 with h | h
  · rw [if_neg (by simp; omega)]
  · rw [if_neg (by simp [h.2])]

theorem a85Begin : Statement .a85Begin := by
  rintro f rest hw h0 -
  obtain ⟨atStart, pending, rfl, hs⟩ := a85With_elim h0
  subst hs
  rw [encode, a85_pair]
  rfl

theorem a85Digit (c : Byte) : Statement (.a85Digit c) := by
  rintro f rest hw h0 hf
  obtain ⟨atStart, pending, rfl, hs⟩ := a85With_elim h0
  obtain ⟨next, hn, hd⟩ := a85_next atStart pending c rest
  rw [encode, hd]
  obtain ⟨hl, hu⟩ : 33 ≤ c.toNat ∧ c.toNat ≤ 117 := by simpa [Instr.wf, isA85Digit] using hw
  have hws : isWhitespace c = false := by simp [isWhitespace]; omega
  have hz : c ≠ 0x7A := by rintro rfl; simp at hu
  have ht : c ≠ 0x7E := by rintro rfl; simp at hu
  have hb : ¬((atStart = true ∧ c = 0x3C) ∧ next = some 0x7E) := by
    rintro ⟨⟨rfl, rfl⟩, h⟩; exact hf.1 pending rfl rfl (hn _ h)
  simp only [Instr.wf] at hw
  rw [decodeA85Char, if_neg (by simp [hws]), if_neg (by simpa only [Bool.and_eq_true, decide_eq_true_eq] using hb),
    if_neg (by simp only [Bool.and_eq_true, decide_eq_true_eq]; exact fun h => ht h.1),
    if_neg (by simp only [Bool.and_eq_true, decide_eq_true_eq]; exact fun h => hz h.1), if_pos hw, byteBits_length]

theorem a85Z : Statement .a85Z := by
  rintro f rest hw h0 -
  obtain ⟨atStart, pending, rfl, hs⟩ := a85With_elim h0
  subst hs
  obtain ⟨next, -, hd⟩ := a85_next atStart false 0x7A rest
  rw [encode, hd]
  simp [decodeA85Char, isWhitespace]

theorem a85End : Statement .a85End := by
  rintro f rest hw h0 -
  obtain ⟨atStart, pending, rfl, hs⟩ := a85With_elim h0
  rw [encode, a85_pair]
  simp [decodeA85Char, isWhitespace]

theorem a85Ws (c : Byte) : Statement (.a85Ws c) := by
  rintro f rest hw h0 -
  obtain ⟨atStart, pending, rfl, hs⟩ := a85With_elim h0
  obtain ⟨next, -, hd⟩ := a85_next atStart pending c rest
  rw [encode, hd]
  simp only [Instr.wf] at hw
  simp [decodeA85Char, hw]

theorem a85Invalid (c : Byte) : Statement (.a85Invalid c) := by
  rintro f rest hw h0 hf
  obtain ⟨atStart, pending, rfl, hs⟩ := a85With_elim h0
  obtain ⟨next, hn, hd⟩ := a85_next atStart pending c rest
  rw [encode, hd]
  simp only [Instr.wf, Bool.and_eq_true, Bool.not_eq_true'] at hw
  have hz : ¬(c = 0x7A ∧ (!pending) = true) := by rintro ⟨rfl, hp⟩; rcases hs with hs | rfl <;> simp_all
  have hb : c ≠ 0x3C := by rintro rfl; exact absurd hw.2 (by decide)
  have ht : ¬(c = 0x7E ∧ next = some 0x3E) := by rintro ⟨rfl, h⟩; exact hf.2 rfl (hn _ h)
  rw [decodeA85Char, if_neg (by simp [hw.1]), if_neg (by simp only [Bool.and_eq_true, decide_eq_true_eq]; exact fun h => hb h.1.2),
    if_neg (by simpa only [Bool.and_eq_true, decide_eq_true_eq] using ht),
    if_neg (by simpa only [Bool.and_eq_true, decide_eq_true_eq] using hz), if_neg (by simp [hw.2]), byteBits_length]

theorem ahxDigit (c : Byte) : Statement (.ahxDigit c) := by
  rintro f rest hw h0 -
  rw [show f = _ from h0]
  rw [encode, decode_ahxChar]
  simp only [Instr.wf] at hw
  have h3 : ¬c = 0x3E := by rintro rfl; revert hw; decide
  have h1 : isWhitespace c = false := by simp [isHexDigit] at hw; simp [isWhitespace]; omega
  rw [decodeAhxChar, if_neg h3, if_neg (by simp [h1]), if_pos hw, byteBits_length]

theorem ahxWs (c : Byte) : Statement (.ahxWs c) := by
  rintro f rest hw h0 -
  rw [show f = _ from h0]
  rw [encode, decode_ahxChar]
  simp only [Instr.wf] at hw
  have h3 : ¬c = 0x3E := by rintro rfl; revert hw; decide
  rw [decodeAhxChar, if_neg h3, if_pos hw, byteBits_length]

theorem ahxEnd : Statement .ahxEnd := by
  rintro f rest hw h0 -
  rw [show f = _ from h0]
  rw [encode, decode_ahxChar]
  simp [decodeAhxChar]

theorem ahxInvalid (c : Byte) : Statement (.ahxInvalid c) := by
  rintro f rest hw h0 -
  rw [show f = _ from h0]
  rw [encode, decode_ahxChar]
  simp only [Instr.wf, Bool.and_eq_true, Bool.not_eq_true', bne_iff_ne] at hw
  rw [decodeAhxChar, if_neg hw.2, if_neg (by simp [hw.1.2]), if_neg (by simp [hw.1.1]), byteBits_length]

theorem zlibStored (bfinal : Bool) : Statement (.zlibStored bfinal) := by
  rintro f rest hw h0 -
  rw [show f = _ from h0]
  rfl

theorem zlibFixed (bfinal : Bool) : Statement (.zlibFixed bfinal) := by
  rintro f rest hw h0 -
  rw [show f = _ from h0]
  rfl

theorem zlibDynamic (bfinal : Bool) : Statement (.zlibDynamic bfinal) := by
  rintro f rest hw h0 -
  rw [show f = _ from h0]
  rfl

theorem zlibReserved (bfinal : Bool) : Statement (.zlibReserved bfinal) := by
  rintro f rest hw h0 -
  rw [show f = _ from h0]
  rfl

theorem defLiteral (b : Byte) : Statement (.defLiteral b) := by
  rintro f rest hw h0 -
  obtain ⟨t, rfl, hs⟩ := litLenWith_elim h0
  rw [encode, encodeDeflate, Sys2Proof.decode]
  exact decodeSymbol_encodeSymbol hs.1 hs.2 (by rw [classifyLitLen, if_pos b.isLt, BitVec.ofNat_toNat, BitVec.setWidth_eq]) rest

theorem defEob : Statement .defEob := by
  rintro f rest hw h0 -
  obtain ⟨t, rfl, hs⟩ := litLenWith_elim h0
  rw [encode, encodeDeflate, Sys2Proof.decode]
  exact decodeSymbol_encodeSymbol hs.1 hs.2 rfl rest

theorem defLength (sym : Nat) : Statement (.defLength sym) := by
  rintro f rest hw h0 -
  obtain ⟨t, rfl, hs⟩ := litLenWith_elim h0
  rw [encode, encodeDeflate, Sys2Proof.decode]
  exact decodeSymbol_encodeSymbol hs.1 hs.2 (by
    simp only [Instr.wf, Bool.and_eq_true, decide_eq_true_eq] at hw
    rw [classifyLitLen, if_neg (by omega), if_neg (by omega), if_pos hw.2]) rest

theorem defLenInvalid (sym : Nat) : Statement (.defLenInvalid sym) := by
  rintro f rest hw h0 -
  obtain ⟨t, rfl, hs⟩ := litLenWith_elim h0
  rw [encode, encodeDeflate, Sys2Proof.decode]
  exact decodeSymbol_encodeSymbol hs.1 hs.2 (by simp [Instr.wf] at hw; rcases hw with rfl | rfl <;> rfl) rest

theorem defDist (sym : Nat) : Statement (.defDist sym) := by
  rintro f rest hw h0 -
  obtain ⟨t, rfl, hs⟩ := distWith_elim h0
  rw [encode, encodeDeflate, Sys2Proof.decode]
  exact decodeSymbol_encodeSymbol hs.1 hs.2 (by simp [Instr.wf] at hw; simp [classifyDist, hw]) rest

theorem defDistInvalid (sym : Nat) : Statement (.defDistInvalid sym) := by
  rintro f rest hw h0 -
  obtain ⟨t, rfl, hs⟩ := distWith_elim h0
  rw [encode, encodeDeflate, Sys2Proof.decode]
  exact decodeSymbol_encodeSymbol hs.1 hs.2 (by simp [Instr.wf] at hw; rcases hw with rfl | rfl <;> rfl) rest

theorem defClLiteral (len : Nat) : Statement (.defClLiteral len) := by
  rintro f rest hw h0 -
  obtain ⟨t, rfl, hs⟩ := codeLenWith_elim h0
  rw [encode, encodeDeflate, Sys2Proof.decode]
  exact decodeSymbol_encodeSymbol hs.1 hs.2 (by simp [Instr.wf] at hw; simp [classifyCodeLen, hw]) rest

theorem defClRepeat : Statement .defClRepeat := by
  rintro f rest hw h0 -
  obtain ⟨t, rfl, hs⟩ := codeLenWith_elim h0
  rw [encode, encodeDeflate, Sys2Proof.decode]
  exact decodeSymbol_encodeSymbol hs.1 hs.2 rfl rest

theorem defClZero3 : Statement .defClZero3 := by
  rintro f rest hw h0 -
  obtain ⟨t, rfl, hs⟩ := codeLenWith_elim h0
  rw [encode, encodeDeflate, Sys2Proof.decode]
  exact decodeSymbol_encodeSymbol hs.1 hs.2 rfl rest

theorem defClZero11 : Statement .defClZero11 := by
  rintro f rest hw h0 -
  obtain ⟨t, rfl, hs⟩ := codeLenWith_elim h0
  rw [encode, encodeDeflate, Sys2Proof.decode]
  exact decodeSymbol_encodeSymbol hs.1 hs.2 rfl rest

end Sys2Proof.Laws.Encoding
end

