-- ==== Sys2Proof/Laws/Turns.lean ====
section
/-! SUPPORT. One lemma per kind of turn: what the Core does next, from the working state alone, with reading, decoding and execution taken together. Every claim about runs cites these and never the decoder. -/

namespace Sys2Proof.Machine

variable {s : State}

/-! ## Commands, validation, dispatch -/

theorem coreTurn_command (h : s.work = .command) :
    coreTurn s = if s.op = 1 then execDecode s else if s.op = 2 then execFlateEncode s else if s.op = 3 then execRc4 s
      else execIllegalCommand s.op s := by
  have hs : s.site = .code .cmd (wordBits s.op) := by simp [State.site, h]
  have hd := decode_cmd s.op []
  rw [List.append_nil] at hd
  have ha : s.advance 32 = s := by simp [State.advance, h]
  rw [coreTurn_code hs hd, ha, decodeCmd]
  split_ifs <;> rfl

theorem validateDesc_eq (d : Desc) : validateDesc d =
    if d.kind = 1 ∨ d.kind = 2 ∨ d.kind = 3 ∨ d.kind = 4 then none
    else if d.kind = 5 then
      (if d.cnameP || d.ctypeP then some (BitVec.ofNat 32 (5 + 256 * d.cnameP.toNat + 512 * d.ctypeP.toNat)) else none)
    else some (d.kind.setWidth 32) := by
  have h : ∀ k : BitVec 8, (k = 0 ∨ 5 < k.toNat) ↔ ¬(k = 1 ∨ k = 2 ∨ k = 3 ∨ k = 4 ∨ k = 5) := by decide
  rw [validateDesc]
  simp only [h]
  by_cases h5 : d.kind = 5
  · simp only [h5]
    cases d.cnameP <;> cases d.ctypeP <;> simp
  · by_cases h4 : d.kind = 1 ∨ d.kind = 2 ∨ d.kind = 3 ∨ d.kind = 4
    · rw [if_pos h4, if_neg (by tauto), if_neg (by tauto)]
    · rw [if_neg h4, if_pos (by tauto), if_neg h5]

theorem coreTurn_validate {j : Nat} (h : s.work = .validate j) (hj : j < s.nstages.toNat) :
    coreTurn s = .next (match validateDesc (s.desc j) with
      | some info => { s with work := .finish (.err .unsupportedFilter (some j) info) }
      | none => { s with work := .validate (j + 1) }) := by
  have hs : s.site = .code .stage (s.desc j).bits := by simp [State.site, h, hj]
  have ha : s.advance 128 = s := by simp [State.advance, h]
  rw [coreTurn_code hs (decode_desc _), ha, validateDesc_eq]
  generalize s.desc j = d
  by_cases h1 : d.kind = 1
  · simp only [h1, true_or, if_true]; simp only [exec]; exact onStage_validate _ h
  by_cases h2 : d.kind = 2
  · simp [h2]; simp only [exec]; exact onStage_validate _ h
  by_cases h3 : d.kind = 3
  · simp [h3]; simp only [exec]; exact onStage_validate _ h
  by_cases h4 : d.kind = 4
  · simp [h4]; simp only [exec]; exact onStage_validate _ h
  by_cases h5 : d.kind = 5
  · rw [if_neg h1, if_neg h2, if_neg h3, if_neg h4, if_pos h5, if_neg (show ¬(d.kind = 1 ∨ d.kind = 2 ∨ d.kind = 3 ∨ d.kind = 4) by tauto), if_pos h5]
    cases hc : (d.cnameP || d.ctypeP)
    · simp only [Bool.false_eq_true, if_false]; simp only [exec]; exact onStage_validate _ h
    · simp only [if_true]; simp only [exec]; exact onBadStage_validate _ h
  · rw [if_neg h1, if_neg h2, if_neg h3, if_neg h4, if_neg h5, if_neg (show ¬(d.kind = 1 ∨ d.kind = 2 ∨ d.kind = 3 ∨ d.kind = 4) by tauto), if_neg h5]
    simp only [exec]; exact onBadStage_validate _ h

theorem coreTurn_validate_end {j : Nat} (h : s.work = .validate j) (hj : s.nstages.toNat ≤ j) :
    coreTurn s = .next s.beginStages := by
  rw [coreTurn_auto (by simp [State.site, h]; omega)]; simp [State.auto, h]

theorem coreTurn_stage_end (h : s.work = .stage) (hk : s.nstages.toNat ≤ s.k) : coreTurn s = .next s.endChain := by
  rw [coreTurn_auto (by simp [State.site, h]; omega)]; simp [State.auto, h]

/-- What the dispatch of a stage does (40_pipeline.md R155). -/
def State.startUnit (s : State) (d : Desc) : State :=
  if d.kind = 1 then
    s.inflateNext (inflateStart s.cur (if d.predP then d.predictor else 1) (if d.colsP then some d.columns else none))
  else if d.kind = 2 then s.withWork (.ahx ahxStart)
  else if d.kind = 3 then s.withWork (.lzw lzwStart)
  else if d.kind = 4 then s.withWork (.a85 (a85Start s.cur))
  else s.endStage s.cur

theorem coreTurn_stage (h : s.work = .stage) (hk : s.k < s.nstages.toNat) :
    coreTurn s = .next (match validateDesc (s.desc s.k) with
      | some info => s.raiseStage .unsupportedFilter info
      | none => s.startUnit (s.desc s.k)) := by
  have hs : s.site = .code .stage (s.desc s.k).bits := by simp [State.site, h, hk]
  have ha : s.advance 128 = s := by simp [State.advance, h]
  rw [coreTurn_code hs (decode_desc _), ha, validateDesc_eq]
  generalize s.desc s.k = d
  by_cases h1 : d.kind = 1
  · simp only [h1, true_or, if_true, State.startUnit]
    have : effectivePredictor (if d.predP = true then some d.predictor else none) = if d.predP then d.predictor else 1 := by
      cases d.predP <;> rfl
    rw [← this]; simp only [exec]; exact onStage_stage _ h
  by_cases h2 : d.kind = 2
  · simp [h2, State.startUnit]; simp only [exec]; exact onStage_stage _ h
  by_cases h3 : d.kind = 3
  · simp [h3, State.startUnit]; simp only [exec]; exact onStage_stage _ h
  by_cases h4 : d.kind = 4
  · simp [h4, State.startUnit]; simp only [exec]; exact onStage_stage _ h
  by_cases h5 : d.kind = 5
  · rw [if_neg h1, if_neg h2, if_neg h3, if_neg h4, if_pos h5, if_neg (show ¬(d.kind = 1 ∨ d.kind = 2 ∨ d.kind = 3 ∨ d.kind = 4) by tauto), if_pos h5]
    cases hc : (d.cnameP || d.ctypeP)
    · simp [h5, State.startUnit]; simp only [exec]; exact onStage_stage _ h
    · simp only [if_true]; simp [exec, execCryptNamed, State.onBadStage, h]
  · rw [if_neg h1, if_neg h2, if_neg h3, if_neg h4, if_neg h5, if_neg (show ¬(d.kind = 1 ∨ d.kind = 2 ∨ d.kind = 3 ∨ d.kind = 4) by tauto), if_neg h5]
    simp [exec, execKindUnknown, State.onBadStage, h]

/-! ## The predictor -/

theorem toInt_range (v : Word) : (10 ≤ v.toInt ∧ v.toInt ≤ 15) ↔ v = 10 ∨ v = 11 ∨ v = 12 ∨ v = 13 ∨ v = 14 ∨ v = 15 := by
  have hv := v.isLt
  constructor
  · rintro ⟨h1, h2⟩
    rw [BitVec.toInt_eq_toNat_cond] at h1 h2
    have : v.toNat = 10 ∨ v.toNat = 11 ∨ v.toNat = 12 ∨ v.toNat = 13 ∨ v.toNat = 14 ∨ v.toNat = 15 := by
      split_ifs at h1 h2 <;> omega
    rcases this with h | h | h | h | h | h
    · exact .inl (BitVec.eq_of_toNat_eq h)
    · exact .inr (.inl (BitVec.eq_of_toNat_eq h))
    · exact .inr (.inr (.inl (BitVec.eq_of_toNat_eq h)))
    · exact .inr (.inr (.inr (.inl (BitVec.eq_of_toNat_eq h))))
    · exact .inr (.inr (.inr (.inr (.inl (BitVec.eq_of_toNat_eq h)))))
    · exact .inr (.inr (.inr (.inr (.inr (BitVec.eq_of_toNat_eq h)))))
  · rintro (rfl | rfl | rfl | rfl | rfl | rfl) <;> decide

theorem coreTurn_predict {st : PredictState} (h : s.work = .predict st) :
    coreTurn s = .next (if st.predictor = 1 then s.endStage st.x
      else if 10 ≤ st.predictor.toInt ∧ st.predictor.toInt ≤ 15 then s.startPng st
      else s.raiseStage .unsupportedPredictor st.predictor) := by
  have hs : s.site = .code .pred (wordBits st.predictor) := by simp [State.site, h]
  have hd := decode_pred st.predictor []
  rw [List.append_nil] at hd
  have ha : s.advance 32 = s := by simp [State.advance, h]
  rw [coreTurn_code hs hd, ha]
  simp only [toInt_range, decodePred]
  generalize st.predictor = v
  split_ifs <;> first | tauto | (simp only [exec]; exact onPredict_eq _ h)

theorem coreTurn_png_end {st : PngState} (h : s.work = .png st) (hf : st.finished = true) : coreTurn s = .next (s.endStage st.out) := by
  rw [coreTurn_auto (by simp [State.site, h, hf])]; simp [State.auto, h]

theorem coreTurn_png {st : PngState} (h : s.work = .png st) (hf : st.finished = false) :
    coreTurn s = .next (s.settle .png (if st.filterType = 0 then .more (st.putRow st.rowData)
      else if st.filterType = 1 then .more (st.putRow (subRow 0 st.rowData))
      else if st.filterType = 2 then .more (st.putRow (upRow st.prev st.rowData))
      else .fail .unsupportedPngFilter (st.filterType.setWidth 32))) := by
  have hs : s.site = .code .pngRow (byteBits st.filterType) := by simp [State.site, h, hf]
  have hd := decode_pngRow st.filterType []
  rw [List.append_nil] at hd
  have ha : s.advance 8 = s := by simp [State.advance, h]
  rw [coreTurn_code hs hd, ha, decodePngRow]
  split_ifs <;> (simp only [exec]; exact onPng_eq _ h)

/-! ## LZW -/

/-- What the LZW unit does with a code that it has read (42_lzw.md R260). -/
def LzwState.take (st : LzwState) (code : Nat) : UnitStep LzwState :=
  if code = 256 then .more { st with dl := 258, w := 9, previous := none }
  else if code = 257 then .done st.out
  else if code < 256 ∨ code < st.dl then st.known (BitVec.ofNat 12 code)
  else if code = st.dl ∧ st.previous.isNone = false then st.selfReference (BitVec.ofNat 12 code)
  else .fail .invalidLzwCode ((BitVec.ofNat 12 code).setWidth 32)

theorem coreTurn_lzw_truncated {st : LzwState} (h : s.work = .lzw st) (hw : 1 ≤ st.w) (ht : 8 * s.cur.length < st.pos + st.w) :
    coreTurn s = .next { s with work := .finish (.err .truncatedLzwStream (some s.k) 0) } := by
  have hs : s.site = .code (.lzwCode st.w st.dl st.previous.isNone) (windowMsb s.cur st.pos st.w) := by simp [State.site, h]
  rw [coreTurn_reject hs (r := .truncated)]
  · simp [State.reject, h]; rfl
  · rw [Sys2Proof.decode, if_pos (by rw [windowMsb_length]; omega)]

theorem coreTurn_lzw_code {st : LzwState} (h : s.work = .lzw st) (ht : st.pos + st.w ≤ 8 * s.cur.length) :
    coreTurn s = exec (decodeLzwCode st.dl st.previous.isNone (natOfMsb (windowMsb s.cur st.pos st.w)))
      { s with work := .lzw { st with pos := st.pos + st.w } } := by
  have hs : s.site = .code (.lzwCode st.w st.dl st.previous.isNone) (windowMsb s.cur st.pos st.w) := by simp [State.site, h]
  have hl : (windowMsb s.cur st.pos st.w).length = st.w := by rw [windowMsb_length]; omega
  rw [coreTurn_code hs (by rw [Sys2Proof.decode, if_neg (by omega), List.take_of_length_le (by omega)])]
  simp only [State.advance, h]; rfl

theorem ofNat8_setWidth12 {code : Nat} (h : code < 256) : (BitVec.ofNat 8 code).setWidth 12 = BitVec.ofNat 12 code := by
  apply BitVec.eq_of_toNat_eq; simp; omega

theorem coreTurn_lzw {st : LzwState} (h : s.work = .lzw st) (ht : st.pos + st.w ≤ 8 * s.cur.length) :
    coreTurn s = .next (s.settle .lzw
      (({ st with pos := st.pos + st.w } : LzwState).take (natOfMsb (windowMsb s.cur st.pos st.w)))) := by
  rw [coreTurn_lzw_code h ht]
  generalize natOfMsb (windowMsb s.cur st.pos st.w) = code
  have hw : ({ s with work := .lzw { st with pos := st.pos + st.w } } : State).work = .lzw { st with pos := st.pos + st.w } := rfl
  have hset : ∀ r : UnitStep LzwState, ({ s with work := .lzw { st with pos := st.pos + st.w } } : State).settle .lzw r = s.settle .lzw r := by
    intro r; cases r <;> rfl
  have known : ∀ i, exec i ({ s with work := .lzw { st with pos := st.pos + st.w } } : State) =
      State.onLzw (fun st => st.known (BitVec.ofNat 12 code)) { s with work := .lzw { st with pos := st.pos + st.w } } →
      (code < 256 ∨ code < st.dl) → code ≠ 256 → code ≠ 257 →
      exec i ({ s with work := .lzw { st with pos := st.pos + st.w } } : State) =
        .next (s.settle .lzw (LzwState.take { st with pos := st.pos + st.w } code)) := by
    intro i hi h1 h2 h3
    rw [hi, onLzw_eq _ hw, hset, LzwState.take, if_neg h2, if_neg h3, if_pos h1]
  by_cases h1 : code < 256
  · have hd : decodeLzwCode st.dl st.previous.isNone code = .lzwLiteral (BitVec.ofNat 8 code) := by rw [decodeLzwCode, if_pos h1]
    rw [hd]
    refine known _ ?_ (.inl h1) (by omega) (by omega)
    rw [← ofNat8_setWidth12 h1]; simp only [exec, execLzwLiteral]
  by_cases h2 : code = 256
  · subst h2; rw [← hset]; simp only [decodeLzwCode, exec]; exact onLzw_eq _ hw
  by_cases h3 : code = 257
  · subst h3; rw [← hset]; simp only [decodeLzwCode, exec]; exact onLzw_eq _ hw
  by_cases h4 : code < st.dl
  · have hd : decodeLzwCode st.dl st.previous.isNone code = .lzwDict (BitVec.ofNat 12 code) := by
      rw [decodeLzwCode, if_neg h1, if_neg h2, if_neg h3, if_pos h4]
    rw [hd]
    exact known _ (by simp only [exec, execLzwDict]) (.inr h4) h2 h3
  by_cases h5 : code = st.dl ∧ st.previous.isNone = false
  · have hd : decodeLzwCode st.dl st.previous.isNone code = .lzwSelf (BitVec.ofNat 12 code) := by
      rw [decodeLzwCode, if_neg h1, if_neg h2, if_neg h3, if_neg h4, if_pos (by simp [h5.1, h5.2])]
    rw [hd]
    simp only [exec]
    rw [execLzwSelf, onLzw_eq _ hw, hset, LzwState.take, if_neg h2, if_neg h3, if_neg (not_or.mpr ⟨h1, h4⟩), if_pos h5]
  · have hd : decodeLzwCode st.dl st.previous.isNone code = .lzwInvalid (BitVec.ofNat 12 code) := by
      rw [decodeLzwCode, if_neg h1, if_neg h2, if_neg h3, if_neg h4, if_neg (by simpa using h5)]
    rw [hd]
    simp only [exec]
    rw [execLzwInvalid, onLzw_eq _ hw, hset, LzwState.take, if_neg h2, if_neg h3, if_neg (not_or.mpr ⟨h1, h4⟩), if_neg h5]

/-! ## ASCIIHex -/

theorem windowLsb_at (bs : List Byte) (i : Nat) : windowLsb bs (8 * i) 8 = match bs[i]? with | some c => byteBits c | none => [] := by
  by_cases h : i < bs.length
  · rw [List.getElem?_eq_getElem h, windowLsb_byte _ _ h]
  · rw [List.getElem?_eq_none (by omega), windowLsb_end _ _ _ (by omega)]

theorem coreTurn_ahx_end {st : AhxState} (h : s.work = .ahx st) (hi : s.cur.length ≤ st.i) : coreTurn s = exec .ahxEnd s := by
  have hs : s.site = .code .ahxChar [] := by
    simp only [State.site, h]; rw [windowLsb_end _ _ _ (by omega)]
  have ha : s.advance 0 = s := by simp only [State.advance, h]; rw [show (0 / 8 : Nat) = 0 from rfl, Nat.add_zero]; rw [← h]; rfl
  rw [coreTurn_code hs (n := 0) (i := .ahxEnd) rfl, ha]

theorem coreTurn_ahx_char {st : AhxState} {c : Byte} (h : s.work = .ahx st) (hi : s.cur[st.i]? = some c) :
    coreTurn s = exec (decodeAhxChar c) { s with work := .ahx { st with i := st.i + 1 } } := by
  have hs : s.site = .code .ahxChar (byteBits c) := by
    simp only [State.site, h]; rw [windowLsb_at, hi]
  have hd := decode_ahxChar c []
  rw [List.append_nil] at hd
  rw [coreTurn_code hs hd]
  simp only [State.advance, h]; rfl

/-- What the ASCIIHex unit does with a character (44_asciihex.md R340). -/
def AhxState.take (st : AhxState) (c : Byte) : UnitStep AhxState :=
  if c = 0x3E then (match st.pend with | none => .done st.out | some _ => .fail .invalidHexDigitCount 0)
  else if isWhitespace c then .more st
  else if isHexDigit c then .more (st.digit (hexValue c))
  else .fail .invalidHexChar (c.setWidth 32)

theorem coreTurn_ahx {st : AhxState} {c : Byte} (h : s.work = .ahx st) (hi : s.cur[st.i]? = some c) :
    coreTurn s = .next (s.settle .ahx (({ st with i := st.i + 1 } : AhxState).take c)) := by
  rw [coreTurn_ahx_char h hi]
  have hw : ({ s with work := .ahx { st with i := st.i + 1 } } : State).work = .ahx { st with i := st.i + 1 } := rfl
  have hset : ∀ r : UnitStep AhxState, ({ s with work := .ahx { st with i := st.i + 1 } } : State).settle .ahx r = s.settle .ahx r := by
    intro r; cases r <;> rfl
  rw [decodeAhxChar, AhxState.take]
  split_ifs
  · rw [← hset]
    simp only [exec]
    exact (onAhx_eq (st := { st with i := st.i + 1 }) _ hw).trans (by cases st.pend <;> rfl)
  · rw [← hset]; simp only [exec]; exact onAhx_eq (st := { st with i := st.i + 1 }) _ hw
  · rw [← hset]; simp only [exec]; exact onAhx_eq (st := { st with i := st.i + 1 }) _ hw
  · rw [← hset]; simp only [exec]; exact onAhx_eq (st := { st with i := st.i + 1 }) _ hw

/-! ## ASCII85 -/

theorem coreTurn_a85_ws {st : A85State} {c : Byte} (h : s.work = .a85 st) (hc : st.t.find? isWhitespace = some c) :
    coreTurn s = exec (.a85Ws c) s := by
  have hs : s.site = .code (.a85Char (st.i == 0) (st.group != [])) (byteBits c) := by simp [State.site, h, A85State.site, hc]
  have hw : isWhitespace c = true := List.find?_some hc
  obtain ⟨next, -, hd⟩ := Laws.Encoding.a85_next (st.i == 0) (st.group != []) c []
  rw [List.append_nil] at hd
  have ha : s.advance 8 = s := by simp [State.advance, h]
  rw [decodeA85Char, if_pos hw] at hd
  rw [coreTurn_code hs hd, ha]

theorem coreTurn_a85_end {st : A85State} (h : s.work = .a85 st) (hc : st.t.find? isWhitespace = none) (hi : st.t.length ≤ st.i) :
    coreTurn s = exec .a85End s := by
  have hs : s.site = .code (.a85Char (st.i == 0) (st.group != [])) [] := by
    simp only [State.site, h, A85State.site, hc]; rw [windowLsb_end _ _ _ (by omega)]
  rw [coreTurn_code hs (n := 0) (i := .a85End) rfl]
  simp [State.advance, h]

theorem coreTurn_a85_char {st : A85State} {c : Byte} (h : s.work = .a85 st) (hc : st.t.find? isWhitespace = none)
    (hi : st.t[st.i]? = some c) :
    coreTurn s = exec (decodeA85Char (st.i == 0) (st.group != []) c (st.t[st.i + 1]?)).1 s := by
  have hs : s.site = .code (.a85Char (st.i == 0) (st.group != [])) (windowLsb st.t (8 * st.i) 16) := by
    simp only [State.site, h, A85State.site, hc]
  have h8 := windowLsb_at st.t st.i
  rw [hi] at h8
  have hl : (windowLsb st.t (8 * st.i) 8).length = 8 := by rw [h8]; simp
  have hwin : windowLsb st.t (8 * st.i) 16 = byteBits c ++ windowLsb st.t (8 * (st.i + 1)) 8 := by
    rw [show 16 = 8 + 8 from rfl, windowLsb_add _ _ _ _ hl, h8, Nat.mul_add]
  have ha : ∀ n, s.advance n = s := by intro n; simp [State.advance, h]
  rw [windowLsb_at] at hwin
  cases hn : st.t[st.i + 1]? with
  | none =>
    rw [hn] at hwin
    have hd : Sys2Proof.decode (.a85Char (st.i == 0) (st.group != [])) (byteBits c) =
        .ok (decodeA85Char (st.i == 0) (st.group != []) c none) := by
      have h0 : ¬byteBits c = [] := by intro h; simpa using congrArg List.length h
      have ht : (byteBits c).take 8 = byteBits c := List.take_of_length_le (by simp)
      rw [Sys2Proof.decode, if_neg h0, if_neg (by simp), ht, ofNat_natOfLsb_byte, if_pos (by simp)]
    rw [List.append_nil] at hwin
    rw [hwin] at hs
    rw [coreTurn_code hs (by rw [hd]), ha]
  | some c' =>
    rw [hn] at hwin
    have hd := Laws.Encoding.a85_pair (st.i == 0) (st.group != []) c c' []
    rw [List.append_nil] at hd
    rw [hwin] at hs
    rw [coreTurn_code hs (by rw [hd]), ha]

/-- What the ASCII85 unit does at a character of text without whitespace (43_ascii85.md R301). -/
def A85State.take (st : A85State) (c : Byte) (next : Option Byte) : UnitStep A85State :=
  if st.i = 0 ∧ c = 0x3C ∧ next = some 0x7E then .more { st with i := 2 }
  else if c = 0x7E ∧ next = some 0x3E then
    (match a85Final st.group with | some bs => .done (st.out ++ bs) | none => .fail .invalidA85Group 0)
  else if c = 0x7A ∧ st.group = [] then .more { st with i := st.i + 1, out := st.out ++ [0, 0, 0, 0] }
  else if isA85Digit c then st.digit c
  else .fail .invalidA85Char (c.setWidth 32)

theorem decodeA85Char_eq (st : A85State) {c : Byte} (next : Option Byte) (hw : isWhitespace c = false) :
    (decodeA85Char (st.i == 0) (st.group != []) c next).1 =
      (if st.i = 0 ∧ c = 0x3C ∧ next = some 0x7E then .a85Begin
       else if c = 0x7E ∧ next = some 0x3E then .a85End
       else if c = 0x7A ∧ st.group = [] then .a85Z
       else if isA85Digit c then .a85Digit c else .a85Invalid c) := by
  rw [decodeA85Char, if_neg (by simp [hw])]
  by_cases h1 : st.i = 0 ∧ c = 0x3C ∧ next = some 0x7E
  · rw [if_pos h1, if_pos (by simp [h1])]
  rw [if_neg h1, if_neg (by simp only [Bool.and_eq_true, beq_iff_eq, decide_eq_true_eq]; tauto)]
  by_cases h2 : c = 0x7E ∧ next = some 0x3E
  · rw [if_pos h2, if_pos (by simp [h2])]
  rw [if_neg h2, if_neg (by simp only [Bool.and_eq_true, decide_eq_true_eq]; tauto)]
  by_cases h3 : c = 0x7A ∧ st.group = []
  · rw [if_pos h3, if_pos (by simp [h3])]
  rw [if_neg h3, if_neg (by
    simp only [Bool.and_eq_true, decide_eq_true_eq, Bool.not_eq_true', bne_eq_false_iff_eq]; exact h3)]
  split <;> rfl

theorem coreTurn_a85 {st : A85State} {c : Byte} (h : s.work = .a85 st) (hc : st.t.find? isWhitespace = none)
    (hi : st.t[st.i]? = some c) : coreTurn s = .next (s.settle .a85 (st.take c (st.t[st.i + 1]?))) := by
  have hw : isWhitespace c = false := by
    have := List.find?_eq_none.mp hc c (List.mem_of_getElem? hi); simpa using this
  rw [coreTurn_a85_char h hc hi, decodeA85Char_eq _ _ hw, A85State.take]
  split_ifs <;> (simp only [exec]; exact onA85_eq _ h)

/-! ## RC4 and completion -/

theorem coreTurn_rc4 {st : Rc4State} (h : s.work = .rc4 st) : coreTurn s = .next (s.rc4Turn st) := by
  rw [coreTurn_auto (by simp [State.site, h])]; simp [State.auto, h]

/-! ## Inflate -/

/-- An empty or unreadable place in the stream ends the unit with INFLATE_ERROR(0) (41_flate.md R206, R214, R215). -/
theorem coreTurn_inflate_reject {st : InflateState} {f : Format} {bits : List Bool} {r : Reject} (h : s.work = .inflate st)
    (hs : st.site s.cur = .code f bits) (hd : Sys2Proof.decode f bits = .error r) : coreTurn s = .next (s.inflateNext none) := by
  rw [coreTurn_reject (by simpa [State.site, h] using hs) hd]; simp [State.reject, h]; rfl

theorem coreTurn_inflate_code {st : InflateState} {f : Format} {bits : List Bool} {i : Instr} {n : Nat} (h : s.work = .inflate st)
    (hs : st.site s.cur = .code f bits) (hd : Sys2Proof.decode f bits = .ok (i, n)) :
    coreTurn s = exec i { s with work := .inflate { st with pos := st.pos + n } } := by
  rw [coreTurn_code (by simpa [State.site, h] using hs) hd]; simp only [State.advance, h]; rfl

theorem inflateNext_withWork (w : Work) (r : Option InflateState) : ({ s with work := w } : State).inflateNext r = s.inflateNext r := by
  cases r <;> rfl

/-- A block header (41_flate.md R199). -/
theorem coreTurn_inflate_header {st : InflateState} (h : s.work = .inflate st) (hm : st.mode = .header) :
    coreTurn s = .next (s.inflateNext (match getBits s.cur st.pos 1, getBits s.cur (st.pos + 1) 2 with
      | some b, some t =>
        let st' : InflateState := { st with pos := st.pos + 3 }
        if t = 0 then st'.stored s.cur (b == 1)
        else if t = 1 then some (st'.fixed (b == 1))
        else if t = 2 then st'.dynamic s.cur (b == 1)
        else none
      | _, _ => none)) := by
  have hs : st.site s.cur = .code .zlibBlock (windowLsb s.cur st.pos 3) := by simp [InflateState.site, hm]
  cases hb : windowLsb s.cur st.pos 3 with
  | nil =>
    have hl := windowLsb_length s.cur st.pos 3
    rw [hb] at hl hs
    have : getBits s.cur st.pos 1 = none := by
      have := getBits_isSome s.cur st.pos 1; rw [← Option.not_isSome_iff_eq_none, this]; simp at hl ⊢; omega
    rw [coreTurn_inflate_reject h hs rfl, this]
  | cons b0 tl =>
    have hl := windowLsb_length s.cur st.pos 3
    by_cases h3 : 3 ≤ 8 * s.cur.length - st.pos
    · have hl3 : (windowLsb s.cur st.pos 3).length = 3 := by omega
      have hl1 : (windowLsb s.cur st.pos 1).length = 1 := by rw [windowLsb_length]; omega
      have hl2 : (windowLsb s.cur (st.pos + 1) 2).length = 2 := by rw [windowLsb_length]; omega
      obtain ⟨a, ha⟩ := List.length_eq_one_iff.mp hl1
      obtain ⟨c, d, hcd⟩ := List.length_eq_two.mp hl2
      have hall : windowLsb s.cur st.pos 3 = [a, c, d] := by
        rw [show 3 = 1 + 2 from rfl, windowLsb_add _ _ _ _ hl1, ha, hcd]; rfl
      have hg1 : getBits s.cur st.pos 1 = some a.toNat := by simp [getBits, ha, natOfLsb]
      have hg2 : getBits s.cur (st.pos + 1) 2 = some (natOfLsb [c, d]) := by simp [getBits, hcd]
      rw [hall] at hs
      rw [coreTurn_inflate_code h hs (i := decodeZlibBlock a (natOfLsb [c, d])) (n := 3) rfl, hg1, hg2]
      have ha1 : (a.toNat == 1) = a := by cases a <;> rfl
      simp only [ha1, decodeZlibBlock]
      have hw : ({ s with work := .inflate { st with pos := st.pos + 3 } } : State).work = .inflate { st with pos := st.pos + 3 } := rfl
      have hp : InflateMode.atHeader ({ st with pos := st.pos + 3 } : InflateState).mode = true := by simp [hm, InflateMode.atHeader]
      split_ifs <;> (rw [← inflateNext_withWork (.inflate { st with pos := st.pos + 3 })]; simp only [exec]; exact onInflate_eq _ hw hp)
    · have hsome : ¬((getBits s.cur st.pos 1).isSome = true ∧ (getBits s.cur (st.pos + 1) 2).isSome = true) := by
        rw [getBits_isSome, getBits_isSome]; simp; omega
      have hlt : (windowLsb s.cur st.pos 3).length < 3 := by omega
      rw [coreTurn_inflate_reject h hs (r := .truncated)]
      · cases h1 : getBits s.cur st.pos 1 <;> cases h2 : getBits s.cur (st.pos + 1) 2 <;> simp_all
      · match hwin : windowLsb s.cur st.pos 3 with
        | [] => rfl
        | [_] => rfl
        | [_, _] => rfl
        | _ :: _ :: _ :: _ => rw [hwin] at hlt; simp at hlt; omega

theorem decodeSymbol_eq (inp : List Byte) (t : PrefixCode) (pos : Nat) (classify : Nat → Option Instr) :
    (∃ sym n, readSymbol t (windowLsb inp pos 15) = .ok (sym, n) ∧ symbolAt inp t pos = some (sym, pos + n) ∧
      decodeSymbol t classify (windowLsb inp pos 15) = (match classify sym with | some i => .ok (i, n) | none => .error .badSymbol)) ∨
    (symbolAt inp t pos = none ∧ ∃ r, decodeSymbol t classify (windowLsb inp pos 15) = .error r) := by
  cases h : readSymbol t (windowLsb inp pos 15) with
  | ok p => obtain ⟨sym, n⟩ := p; exact .inl ⟨sym, n, rfl, by simp [symbolAt, h], by cases hc : classify sym <;> simp [decodeSymbol, h, hc]⟩
  | error r => exact .inr ⟨by simp [symbolAt, h], r, by simp [decodeSymbol, h]⟩

/-- A literal/length symbol (41_flate.md R206-R208). -/
theorem coreTurn_inflate_symbol {st : InflateState} (h : s.work = .inflate st) (hm : st.mode = .symbols) :
    coreTurn s = .next (s.inflateNext (match symbolAt s.cur st.litLen st.pos with
      | none => none
      | some (sym, pos) =>
        let st' : InflateState := { st with pos := pos }
        if sym < 256 then some (st'.emit [BitVec.ofNat 8 sym])
        else if sym = 256 then some st'.endBlock
        else st'.lengthSymbol s.cur sym)) := by
  have hs : st.site s.cur = .code (.litLen st.litLen) (windowLsb s.cur st.pos 15) := by simp [InflateState.site, hm]
  rcases decodeSymbol_eq s.cur st.litLen st.pos classifyLitLen with ⟨sym, n, -, h1, h2⟩ | ⟨h1, r, h2⟩
  · rw [h1]
    have hw : ({ s with work := .inflate { st with pos := st.pos + n } } : State).work = .inflate { st with pos := st.pos + n } := rfl
    have hp : InflateMode.atSymbol ({ st with pos := st.pos + n } : InflateState).mode = true := by simp [hm, InflateMode.atSymbol]
    have run : ∀ i, classifyLitLen sym = some i → coreTurn s = exec i { s with work := .inflate { st with pos := st.pos + n } } := by
      intro i hi; rw [hi] at h2; exact coreTurn_inflate_code h hs h2
    simp only
    by_cases h3 : sym < 256
    · rw [run _ (by rw [classifyLitLen, if_pos h3]), if_pos h3, ← inflateNext_withWork (.inflate { st with pos := st.pos + n })]
      simp only [exec]; exact onInflate_eq _ hw hp
    rw [if_neg h3]
    by_cases h4 : sym = 256
    · rw [run _ (by rw [classifyLitLen, if_neg h3, if_pos h4]), if_pos h4, ← inflateNext_withWork (.inflate { st with pos := st.pos + n })]
      simp only [exec]; exact onInflate_eq _ hw hp
    rw [if_neg h4]
    by_cases h5 : sym ≤ 285
    · rw [run _ (by rw [classifyLitLen, if_neg h3, if_neg h4, if_pos h5]), ← inflateNext_withWork (.inflate { st with pos := st.pos + n })]
      simp only [exec]; exact onInflate_eq _ hw hp
    · have hn : ({ st with pos := st.pos + n } : InflateState).lengthSymbol s.cur sym = none := by
        have : lengthTable[sym - 257]? = none := List.getElem?_eq_none (by simp [lengthTable]; omega)
        simp only [InflateState.lengthSymbol, lengthOf, this, ite_self, Option.map_none]
      rw [hn]
      by_cases h6 : sym ≤ 287
      · rw [run _ (by rw [classifyLitLen, if_neg h3, if_neg h4, if_neg h5, if_pos h6]),
          ← inflateNext_withWork (.inflate { st with pos := st.pos + n })]
        simp only [exec]; exact onInflate_eq _ hw hp
      · have : classifyLitLen sym = none := by rw [classifyLitLen, if_neg h3, if_neg h4, if_neg h5, if_neg h6]
        rw [this] at h2
        exact coreTurn_inflate_reject h hs h2
  · rw [h1]; exact coreTurn_inflate_reject h hs h2

/-- A distance symbol (41_flate.md R206, R209, R210). -/
theorem coreTurn_inflate_distance {st : InflateState} {len : Nat} (h : s.work = .inflate st) (hm : st.mode = .distance len) :
    coreTurn s = .next (s.inflateNext (match symbolAt s.cur st.dist st.pos with
      | none => none
      | some (sym, pos) => ({ st with pos := pos } : InflateState).distanceSymbol s.cur sym)) := by
  have hs : st.site s.cur = .code (.dist st.dist) (windowLsb s.cur st.pos 15) := by simp [InflateState.site, hm]
  rcases decodeSymbol_eq s.cur st.dist st.pos classifyDist with ⟨sym, n, -, h1, h2⟩ | ⟨h1, r, h2⟩
  · rw [h1]
    have hw : ({ s with work := .inflate { st with pos := st.pos + n } } : State).work = .inflate { st with pos := st.pos + n } := rfl
    have hp : InflateMode.atDistance ({ st with pos := st.pos + n } : InflateState).mode = true := by simp [hm, InflateMode.atDistance]
    have run : ∀ i, classifyDist sym = some i → coreTurn s = exec i { s with work := .inflate { st with pos := st.pos + n } } := by
      intro i hi; rw [hi] at h2; exact coreTurn_inflate_code h hs h2
    simp only
    by_cases h3 : sym ≤ 29
    · rw [run _ (by rw [classifyDist, if_pos h3]), ← inflateNext_withWork (.inflate { st with pos := st.pos + n })]
      simp only [exec]; exact onInflate_eq _ hw hp
    · have hn : ({ st with pos := st.pos + n } : InflateState).distanceSymbol s.cur sym = none := by
        have : distanceTable[sym]? = none := List.getElem?_eq_none (by simp [distanceTable]; omega)
        have h0 : ∀ pos, distanceOf s.cur pos sym = none := by intro pos; simp [distanceOf, this]
        simp only [InflateState.distanceSymbol, h0]
        split <;> first | rfl | simp_all
      rw [hn]
      by_cases h6 : sym ≤ 31
      · rw [run _ (by rw [classifyDist, if_neg h3, if_pos h6]), ← inflateNext_withWork (.inflate { st with pos := st.pos + n })]
        simp only [exec]; exact onInflate_eq _ hw hp
      · have : classifyDist sym = none := by rw [classifyDist, if_neg h3, if_neg h6]
        rw [this] at h2
        exact coreTurn_inflate_reject h hs h2
  · rw [h1]; exact coreTurn_inflate_reject h hs h2

/-- A symbol of the code-length sequence (41_flate.md R204). -/
theorem coreTurn_inflate_codeLen {st : InflateState} {cl : PrefixCode} {hlit hdist : Nat} {lens : List Nat}
    (h : s.work = .inflate st) (hm : st.mode = .codeLens cl hlit hdist lens) (hl : lens.length < hlit + hdist) :
    coreTurn s = .next (s.inflateNext (match symbolAt s.cur cl st.pos with
      | none => none
      | some (sym, pos) =>
        let st' : InflateState := { st with pos := pos }
        if sym ≤ 15 then st'.lengths fun _ => [sym]
        else if sym = 16 then st'.repeatLength s.cur 3 2 fun lens => lens.getLast?
        else if sym = 17 then st'.repeatLength s.cur 3 3 fun _ => some 0
        else if sym = 18 then st'.repeatLength s.cur 11 7 fun _ => some 0
        else none)) := by
  have hs : st.site s.cur = .code (.codeLen cl) (windowLsb s.cur st.pos 15) := by simp [InflateState.site, hm, hl]
  rcases decodeSymbol_eq s.cur cl st.pos classifyCodeLen with ⟨sym, n, -, h1, h2⟩ | ⟨h1, r, h2⟩
  · rw [h1]
    have hw : ({ s with work := .inflate { st with pos := st.pos + n } } : State).work = .inflate { st with pos := st.pos + n } := rfl
    have hp : InflateMode.atCodeLens ({ st with pos := st.pos + n } : InflateState).mode = true := by simp [hm, InflateMode.atCodeLens]
    have run : ∀ i, classifyCodeLen sym = some i → coreTurn s = exec i { s with work := .inflate { st with pos := st.pos + n } } := by
      intro i hi; rw [hi] at h2; exact coreTurn_inflate_code h hs h2
    simp only
    by_cases h3 : sym ≤ 15
    · rw [run _ (by rw [classifyCodeLen, if_pos h3]), if_pos h3, ← inflateNext_withWork (.inflate { st with pos := st.pos + n })]
      simp only [exec]; exact onInflate_eq _ hw hp
    rw [if_neg h3]
    by_cases h4 : sym = 16
    · rw [run _ (by rw [classifyCodeLen, if_neg h3, if_pos h4]), if_pos h4, ← inflateNext_withWork (.inflate { st with pos := st.pos + n })]
      simp only [exec]; exact onInflate_eq _ hw hp
    rw [if_neg h4]
    by_cases h5 : sym = 17
    · rw [run _ (by rw [classifyCodeLen, if_neg h3, if_neg h4, if_pos h5]), if_pos h5,
        ← inflateNext_withWork (.inflate { st with pos := st.pos + n })]
      simp only [exec]; exact onInflate_eq _ hw hp
    rw [if_neg h5]
    by_cases h6 : sym = 18
    · rw [run _ (by rw [classifyCodeLen, if_neg h3, if_neg h4, if_neg h5, if_pos h6]), if_pos h6,
        ← inflateNext_withWork (.inflate { st with pos := st.pos + n })]
      simp only [exec]; exact onInflate_eq _ hw hp
    · rw [if_neg h6]
      have : classifyCodeLen sym = none := by rw [classifyCodeLen, if_neg h3, if_neg h4, if_neg h5, if_neg h6]
      rw [this] at h2
      exact coreTurn_inflate_reject h hs h2
  · rw [h1]; exact coreTurn_inflate_reject h hs h2

/-- The end of the code-length sequence (41_flate.md R202, R205). -/
theorem coreTurn_inflate_codes {st : InflateState} {cl : PrefixCode} {hlit hdist : Nat} {lens : List Nat}
    (h : s.work = .inflate st) (hm : st.mode = .codeLens cl hlit hdist lens) (hl : hlit + hdist ≤ lens.length) :
    coreTurn s = .next (s.inflateNext st.buildCodes) := by
  rw [coreTurn_auto (by simp [State.site, h, InflateState.site, hm]; omega)]; simp [State.auto, h, hm]

/-- The trailer (41_flate.md R211). -/
theorem coreTurn_inflate_trailer {st : InflateState} (h : s.work = .inflate st) (hm : st.mode = .trailer) :
    coreTurn s = .next (s.endInflate st) := by
  rw [coreTurn_auto (by simp [State.site, h, InflateState.site, hm])]; simp [State.auto, h, hm]

end Sys2Proof.Machine
end

