-- ==== Sys2Proof/Laws/Run.lean ====
section
/-! SUPPORT. What every turn of the Core has in common: it answers a next state, and what it may change. -/

namespace Sys2Proof.Machine

variable {s t : State}

/-- The Core has moved on inside a command: nothing but its working state, and the model's counter of draws, has changed. -/
def State.Moved (s t : State) : Prop := t = { s with work := t.work, k := t.k, cur := t.cur, draw := t.draw }

theorem Moved.refl (s : State) : s.Moved s := rfl

theorem moved_withWork (s : State) (w : Work) : s.Moved (s.withWork w) := rfl

theorem moved_endStage (s : State) (out : List Byte) : s.Moved (s.endStage out) := by
  rcases endStage_cases s out with ⟨-, h⟩ | ⟨-, h⟩ <;> rw [h] <;> rfl

theorem moved_settle {σ : Type} (s : State) (wrap : σ → Work) (r : UnitStep σ) : s.Moved (s.settle wrap r) := by
  cases r with
  | more st => rfl
  | done out => exact moved_endStage s out
  | fail e info => rfl

theorem moved_inflateNext (s : State) (r : Option InflateState) : s.Moved (s.inflateNext r) := by cases r <;> rfl

theorem moved_startUnit (s : State) (d : Desc) : s.Moved (s.startUnit d) := by
  unfold State.startUnit
  split_ifs <;> first | rfl | exact moved_inflateNext _ _ | exact moved_endStage _ _

theorem moved_startPng (s : State) (st : PredictState) : s.Moved (s.startPng st) := by
  unfold State.startPng
  cases st.columns with
  | none => rfl
  | some c => simp only; split_ifs <;> rfl

/-- The commands: what each does, and that it only moves the working state. -/
theorem exec_command_next (h : s.work = .command) (f : State → State) (hf : s.Moved (f s)) :
    ∃ t, State.onCommand f s = .next t ∧ s.Moved t := ⟨_, onCommand_eq f h, hf⟩

theorem moved_withInput (f : State → State) (hf : s.Moved (f s)) : s.Moved (State.withInput f s) := by
  unfold State.withInput; split_ifs
  · rfl
  · exact hf

/-- A turn of the Core always answers a next state; and unless it completes a command, it only moves the working state. -/
theorem coreTurn_next (s : State) : ∃ t, coreTurn s = .next t ∧ ((∀ r, s.work ≠ .finish r) → s.Moved t) := by
  cases h : s.work with
  | none => exact ⟨s, coreTurn_idle h, fun _ => rfl⟩
  | command =>
    rw [coreTurn_command h]
    have H : ∀ f : State → State, s.Moved (f s) →
        ∃ t, State.onCommand f s = .next t ∧ ((∀ r, Work.command ≠ .finish r) → s.Moved t) :=
      fun f hf => ⟨_, onCommand_eq f h, fun _ => hf⟩
    split_ifs
    · exact H _ (moved_withInput _ (by split_ifs <;> rfl))
    · exact H _ (moved_withInput _ (by simp only; split_ifs <;> rfl))
    · exact H _ (moved_withInput _ (by split_ifs <;> rfl))
    · exact H _ rfl
  | validate j =>
    by_cases hj : j < s.nstages.toNat
    · rw [coreTurn_validate h hj]; refine ⟨_, rfl, fun _ => ?_⟩; split <;> rfl
    · exact ⟨_, coreTurn_validate_end h (by omega), fun _ => rfl⟩
  | stage =>
    by_cases hk : s.k < s.nstages.toNat
    · rw [coreTurn_stage h hk]; refine ⟨_, rfl, fun _ => ?_⟩; split
      · rfl
      · exact moved_startUnit _ _
    · refine ⟨_, coreTurn_stage_end h (by omega), fun _ => ?_⟩
      unfold State.endChain; split_ifs <;> rfl
  | inflate st =>
    cases hm : st.mode with
    | header => exact ⟨_, coreTurn_inflate_header h hm, fun _ => moved_inflateNext _ _⟩
    | codeLens cl hlit hdist lens =>
      by_cases hl : lens.length < hlit + hdist
      · exact ⟨_, coreTurn_inflate_codeLen h hm hl, fun _ => moved_inflateNext _ _⟩
      · exact ⟨_, coreTurn_inflate_codes h hm (by omega), fun _ => moved_inflateNext _ _⟩
    | symbols => exact ⟨_, coreTurn_inflate_symbol h hm, fun _ => moved_inflateNext _ _⟩
    | distance n => exact ⟨_, coreTurn_inflate_distance h hm, fun _ => moved_inflateNext _ _⟩
    | trailer =>
      refine ⟨_, coreTurn_inflate_trailer h hm, fun _ => ?_⟩
      unfold State.endInflate; split_ifs <;> rfl
  | predict st =>
    refine ⟨_, coreTurn_predict h, fun _ => ?_⟩
    split_ifs
    · exact moved_endStage _ _
    · exact moved_startPng _ _
    · rfl
  | png st =>
    by_cases hf : st.finished = true
    · exact ⟨_, coreTurn_png_end h hf, fun _ => moved_endStage _ _⟩
    · exact ⟨_, coreTurn_png h (by simpa using hf), fun _ => moved_settle _ _ _⟩
  | lzw st =>
    by_cases ht : st.pos + st.w ≤ 8 * s.cur.length
    · exact ⟨_, coreTurn_lzw h ht, fun _ => moved_settle _ _ _⟩
    · by_cases hw : 1 ≤ st.w
      · exact ⟨_, coreTurn_lzw_truncated h hw (by omega), fun _ => rfl⟩
      · have hs : s.site = .code (.lzwCode st.w st.dl st.previous.isNone) (windowMsb s.cur st.pos st.w) := by simp [State.site, h]
        have h0 : st.w = 0 := by omega
        have hd : Sys2Proof.decode (.lzwCode st.w st.dl st.previous.isNone) (windowMsb s.cur st.pos st.w) = .ok (.lzwLiteral 0, 0) := by
          rw [h0]; rfl
        refine ⟨_, (coreTurn_code hs hd).trans (onLzw_eq (st := st) _ ?_), fun _ => ?_⟩
        · simp [State.advance, h]
        · simp only [State.advance, h]; exact moved_settle _ _ _
  | a85 st =>
    cases hc : st.t.find? isWhitespace with
    | some c => exact ⟨_, (coreTurn_a85_ws h hc).trans (onA85_eq _ h), fun _ => moved_settle _ _ _⟩
    | none =>
      cases hi : st.t[st.i]? with
      | none => exact ⟨_, (coreTurn_a85_end h hc (by simpa using hi)).trans (onA85_eq _ h), fun _ => moved_settle _ _ _⟩
      | some c => exact ⟨_, coreTurn_a85 h hc hi, fun _ => moved_settle _ _ _⟩
  | ahx st =>
    cases hi : s.cur[st.i]? with
    | none => exact ⟨_, (coreTurn_ahx_end h (by simpa using hi)).trans (onAhx_eq _ h), fun _ => moved_settle _ _ _⟩
    | some c => exact ⟨_, coreTurn_ahx h hi, fun _ => moved_settle _ _ _⟩
  | rc4 st =>
    refine ⟨_, coreTurn_rc4 h, fun _ => ?_⟩
    unfold State.rc4Turn
    by_cases h1 : st.scheduled < 256
    · rw [if_pos h1]; rfl
    · rw [if_neg h1]
      cases st.data[st.out.length]? with
      | some x => rfl
      | none => simp only; split_ifs <;> rfl
  | finish r => exact ⟨_, coreTurn_finish h, fun hf => absurd rfl (hf r)⟩

/-- The inversion of a turn that completes no command. -/
theorem coreTurn_moved (h : coreTurn s = .next t) (hf : ∀ r, s.work ≠ .finish r) : s.Moved t := by
  obtain ⟨u, hu, hm⟩ := coreTurn_next s
  rw [h] at hu
  cases hu
  exact hm hf

/-- The inversion of a step: a turn of the Core, a host access, or a reset. -/
theorem step_cases (h : step s = .next t) :
    (s.inputs = [] ∧ coreTurn s = .next t) ∨
    (∃ rest, s.inputs = .core :: rest ∧ coreTurn { s with inputs := rest } = .next t) ∨
    (∃ a rest, s.inputs = .access a :: rest ∧ t = { s with inputs := rest }.access a) ∨
    (∃ rest, s.inputs = .reset :: rest ∧ t = { s with inputs := rest }.powerReset) := by
  unfold step at h
  split at h
  · exact .inl ⟨‹_›, h⟩
  · exact .inr (.inl ⟨_, ‹_›, h⟩)
  · cases h; exact .inr (.inr (.inl ⟨_, _, ‹_›, rfl⟩))
  · cases h; exact .inr (.inr (.inr ⟨_, ‹_›, rfl⟩))

/-- The inversion of a host access: nothing but the response, or a read or a write at an offset of the aperture. -/
theorem access_cases (s : State) (a : Access) :
    (s.access a = { s with resp := none }) ∨
    (∃ addr off n, a = .read addr n ∧ addr = s.params.base + off ∧ off < 0x400000 ∧
      s.access a = { (s.memRead off n).1 with resp := some (s.memRead off n).2 }) ∨
    (∃ addr off n v, a = .write addr n v ∧ addr = s.params.base + off ∧ off < 0x400000 ∧
      s.access a = { (s.memWrite off n v).1 with resp := some (s.memWrite off n v).2 }) := by
  cases a with
  | read addr n =>
    by_cases h : s.params.base ≤ addr ∧ addr < s.params.base + 0x400000
    · refine .inr (.inl ⟨addr, addr - s.params.base, n, rfl, by omega, by omega, ?_⟩)
      unfold State.access; simp only [State.apertureOffset, if_pos h]
    · left; unfold State.access; simp only [State.apertureOffset, if_neg h]
  | write addr n v =>
    by_cases h : s.params.base ≤ addr ∧ addr < s.params.base + 0x400000
    · refine .inr (.inr ⟨addr, addr - s.params.base, n, v, rfl, by omega, by omega, ?_⟩)
      unfold State.access; simp only [State.apertureOffset, if_pos h]
    · left; unfold State.access; simp only [State.apertureOffset, if_neg h]

end Sys2Proof.Machine
end

