-- ==== Sys2Proof/Laws/Invariant.lean ====
section
/-! SUPPORT. Each kind of turn inside a command keeps the working state good: one lemma per unit, and one for all of them. -/

namespace Sys2Proof.Machine

variable {s : State}

/-- The unit at the start of an LZW stage is good. -/
theorem lzwStart_good : lzwStart.Good := by
  refine ⟨by decide, by decide, by decide, by decide, by decide, by decide +kernel, by decide +kernel, ?_, ?_, ?_, ?_⟩
  · decide +kernel
  · intro c hc; revert c; decide +kernel
  · intro p hp; cases hp
  · intro _; exact ⟨rfl, rfl⟩

/-- The next state's working state is good, and there is one. -/
def State.RunsGood (t : State) : Prop := t.workGood ∧ t.work ≠ .none

/-- A raised error awaits completion. -/
theorem runsGood_err {s : State} (e : ErrCode) (k : Option Nat) (i : Word) :
    State.RunsGood { s with work := .finish (.err e k i) } := ⟨trivial, by simp⟩

/-- A stage's end, under the capacity check (40_pipeline.md R156). -/
theorem runsGood_endStage (h : s.inStage) (out : List Byte) : State.RunsGood (s.endStage out) := by
  obtain ⟨⟨h1, h2, h3, h4⟩, h5⟩ := h
  rcases endStage_cases s out with ⟨hl, e⟩ | ⟨hl, e⟩
  · rw [e]; exact ⟨⟨h1, h5, h3, fun _ => hl⟩, by simp⟩
  · rw [e]; exact runsGood_err _ _ _

/-- A unit's step: what is left to show is that the unit goes on in a good state. -/
theorem runsGood_settle {σ : Type} (h : s.inStage) (wrap : σ → Work) (r : UnitStep σ)
    (hm : ∀ st, r = .more st → State.RunsGood { s with work := wrap st }) :
    State.RunsGood (s.settle wrap r) := by
  cases r with
  | more st => exact hm st rfl
  | done out => exact runsGood_endStage h out
  | fail e i => exact runsGood_err _ _ _

/-- A step of inflate. -/
theorem runsGood_inflateNext (h : s.inStage) (r : Option InflateState) (hm : ∀ st, r = some st → st.Good) :
    State.RunsGood (s.inflateNext r) := by
  cases r with
  | some st => exact ⟨⟨h, hm st rfl⟩, by simp [State.inflateNext, State.withWork]⟩
  | none => exact runsGood_err _ _ _

theorem adler_lt (ab : Nat × Nat) (x : Byte) : (adlerUpdate ab x).1 < 65521 ∧ (adlerUpdate ab x).2 < 65521 := by
  simp only [adlerUpdate]; constructor <;> exact Nat.mod_lt _ (by decide)

theorem adler_fold_lt (d : List Byte) :
    ∀ ab : Nat × Nat, ab.1 < 65521 → ab.2 < 65521 → (d.foldl adlerUpdate ab).1 < 65521 ∧ (d.foldl adlerUpdate ab).2 < 65521 := by
  induction d with
  | nil => intro ab h1 h2; exact ⟨h1, h2⟩
  | cons x d ih => intro ab _ _; exact ih _ (adler_lt ab x).1 (adler_lt ab x).2

/-- The Adler-32 part of InflateState.Good. -/
def InflateState.SumsGood (st : InflateState) : Prop :=
  (st.adlerA, st.adlerB) = st.out.foldl adlerUpdate (1, 0) ∧ st.adlerA < 65521 ∧ st.adlerB < 65521

/-- Output keeps the sums in step (41_flate.md R212). -/
theorem sumsGood_emit {st : InflateState} (h : InflateState.SumsGood st) (bs : List Byte) :
    InflateState.SumsGood (st.emit bs) := by
  obtain ⟨h1, h2, h3⟩ := h
  have := adler_fold_lt bs (st.adlerA, st.adlerB) h2 h3
  refine ⟨?_, this.1, this.2⟩
  simp [InflateState.emit, List.foldl_append, ← h1]

theorem good_mk {st : InflateState} (h : InflateState.SumsGood st) (hm : match st.mode with
    | .codeLens _ hlit hdist lens => lens.length ≤ hlit + hdist
    | .header | .symbols | .distance _ | .trailer => True) : st.Good := ⟨h.1, h.2.1, h.2.2, hm⟩

theorem good_endBlock {st : InflateState} (h : InflateState.SumsGood st) : st.endBlock.Good := by
  refine good_mk h ?_
  simp only [InflateState.endBlock]; cases st.bfinal <;> exact trivial


theorem InflateState.Good.sums {st : InflateState} (h : st.Good) : InflateState.SumsGood st := ⟨h.1, h.2.1, h.2.2.1⟩

theorem good_lengths {st st' : InflateState} (h : InflateState.SumsGood st) (f : List Nat → List Nat) (e : st.lengths f = some st') :
    st'.Good := by
  unfold InflateState.lengths at e
  split at e
  · next cl hlit hdist lens hm =>
    simp only [appendLengths] at e
    split at e
    · simp at e
    · next hl => simp at e; subst e; exact good_mk h (by simp only []; simp at hl ⊢; omega)
  · cases e

theorem good_repeat {inp : List Byte} {base extra : Nat} {val : List Nat → Option Nat} {st st' : InflateState} (h : InflateState.SumsGood st)
    (e : st.repeatLength inp base extra val = some st') :
    st'.Good := by
  unfold InflateState.repeatLength at e
  split at e
  · split at e
    · exact good_lengths (st := { st with pos := st.pos + extra }) h _ e
    · cases e
  · cases e

theorem runsGood_inflate {st : InflateState} (hi : s.inStage) (hg : st.Good) (h : s.work = .inflate st) :
    ∃ t, coreTurn s = .next t ∧ State.RunsGood t := by
  cases hm : st.mode with
  | header =>
    refine ⟨_, coreTurn_inflate_header h hm, runsGood_inflateNext hi _ ?_⟩
    intro st' e
    split at e
    · next b t hb ht =>
      simp only at e
      have ha : InflateState.SumsGood { st with pos := st.pos + 3 } := InflateState.Good.sums hg
      split_ifs at e
      · simp only [InflateState.stored, Option.map_eq_some_iff] at e
        obtain ⟨r, -, rfl⟩ := e
        exact good_endBlock (sumsGood_emit (st := { st with pos := r.2, bfinal := b == 1, btype := 0 }) ha _)
      · simp at e; subst e; exact good_mk ha trivial
      · simp only [InflateState.dynamic, Option.map_eq_some_iff] at e
        obtain ⟨r, -, rfl⟩ := e
        exact good_mk ha (by simp)
    · cases e
  | codeLens cl hlit hdist lens =>
    by_cases hl : lens.length < hlit + hdist
    · refine ⟨_, coreTurn_inflate_codeLen h hm hl, runsGood_inflateNext hi _ ?_⟩
      intro st' e
      split at e
      · cases e
      · next sym pos hsym =>
        simp only at e
        have ha : InflateState.SumsGood { st with pos := pos } := InflateState.Good.sums hg
        split_ifs at e
        · exact good_lengths ha _ e
        · exact good_repeat ha e
        · exact good_repeat ha e
        · exact good_repeat ha e
    · refine ⟨_, coreTurn_inflate_codes h hm (by omega), runsGood_inflateNext hi _ ?_⟩
      intro st' e
      simp only [InflateState.buildCodes, hm, Option.map_eq_some_iff] at e
      obtain ⟨c, -, rfl⟩ := e
      exact good_mk (st := { st with litLen := c.1, dist := c.2, mode := .symbols })
        (show InflateState.SumsGood st from InflateState.Good.sums hg) trivial
  | symbols =>
    refine ⟨_, coreTurn_inflate_symbol h hm, runsGood_inflateNext hi _ ?_⟩
    intro st' e
    split at e
    · cases e
    · next sym pos hsym =>
      simp only at e
      have ha : InflateState.SumsGood { st with pos := pos } := InflateState.Good.sums hg
      split_ifs at e
      · cases e; exact good_mk (sumsGood_emit ha _) (by simp [InflateState.emit, hm])
      · cases e; exact good_endBlock ha
      · simp only [InflateState.lengthSymbol, Option.map_eq_some_iff] at e
        obtain ⟨r, -, rfl⟩ := e
        exact good_mk ha trivial
  | distance n =>
    refine ⟨_, coreTurn_inflate_distance h hm, runsGood_inflateNext hi _ ?_⟩
    intro st' e
    split at e
    · cases e
    · next sym pos hsym =>
      have ha : InflateState.SumsGood { st with pos := pos } := InflateState.Good.sums hg
      unfold InflateState.distanceSymbol at e
      split at e
      · next _ d p _ hd =>
        split at e
        · cases e
        · cases e
          exact good_mk (sumsGood_emit (st := { st with pos := p, mode := .symbols }) ha _) trivial
      · cases e
  | trailer =>
    refine ⟨_, coreTurn_inflate_trailer h hm, ?_⟩
    unfold State.endInflate
    split
    · exact ⟨hi, by simp [State.withWork]⟩
    · exact runsGood_err _ _ _

theorem runsGood_startUnit (hi : s.inStage) (d : Desc) : State.RunsGood (s.startUnit d) := by
  unfold State.startUnit
  split
  · refine runsGood_inflateNext hi _ ?_
    intro st e
    unfold inflateStart at e
    split at e
    · split at e
      · cases e; exact ⟨rfl, (by decide : (1:Nat) < 65521), (by decide : (0:Nat) < 65521), trivial⟩
      · cases e
    · cases e
  split
  · exact ⟨hi, by simp [State.withWork]⟩
  split
  · exact ⟨⟨hi, lzwStart_good⟩, by simp [State.withWork]⟩
  split
  · exact ⟨⟨hi, by simp [a85Start, A85State.Good]⟩, by simp [State.withWork]⟩
  · exact runsGood_endStage hi _

theorem runsGood_predict {st : PredictState} (hi : s.inStage) (h : s.work = .predict st) :
    ∃ t, coreTurn s = .next t ∧ State.RunsGood t := by
  refine ⟨_, coreTurn_predict h, ?_⟩
  split_ifs
  · exact runsGood_endStage hi _
  · unfold State.startPng
    split
    · exact runsGood_err _ _ _
    · next c hc =>
      split
      · exact runsGood_err _ _ _
      next h1 =>
      split
      · exact runsGood_err _ _ _
      next h2 =>
      refine ⟨⟨hi, ?_, by simp, by simpa using h2, by simp, by simp⟩, by simp [State.withWork]⟩
      have hc1 : ¬c.toInt < 1 := h1
      show 1 ≤ c.toNat
      by_contra h0
      have : c.toNat = 0 := by omega
      have : c = 0 := BitVec.eq_of_toNat_eq (by simpa using this)
      subst this; exact hc1 (by decide)
  · exact runsGood_err _ _ _

theorem subRow_length (l : Byte) (y : List Byte) : (subRow l y).length = y.length := by
  induction y generalizing l with
  | nil => rfl
  | cons a y ih => simp [subRow, ih]

/-- A reconstructed row (41_flate.md R223). -/
theorem good_putRow {st : PngState} (hg : st.Good) (hf : st.finished = false) (y : List Byte) (hy : y.length = st.rowData.length) :
    (st.putRow y).Good := by
  obtain ⟨hc1, hp, hm, hx, ho⟩ := hg
  have hlt : st.r * (st.cols + 1) < st.x.length := by
    simp only [PngState.finished, PngState.rowLength] at hf; exact Nat.lt_of_not_le (of_decide_eq_false hf)
  have h1 : (st.r + 1) * (st.cols + 1) = st.r * (st.cols + 1) + (st.cols + 1) := by ring
  have hge : (st.r + 1) * (st.cols + 1) ≤ st.x.length := by
    obtain ⟨q, hq⟩ := Nat.dvd_of_mod_eq_zero hm
    have : st.r < q := by
      by_contra h
      have : q ≤ st.r := by omega
      have := Nat.mul_le_mul_left (st.cols + 1) this
      rw [← hq, Nat.mul_comm] at this; omega
    rw [hq, Nat.mul_comm]
    exact Nat.mul_le_mul_left _ this
  have hlen : y.length = st.cols := by
    rw [hy]
    simp only [PngState.rowData, PngState.rowLength, List.length_take, List.length_drop]
    rw [h1] at hge
    generalize st.r * (st.cols + 1) = z at *
    omega
  refine ⟨hc1, hlen, hm, hge, ?_⟩
  simp only [PngState.putRow, List.length_append, ho, hlen]; ring

theorem runsGood_png {st : PngState} (hi : s.inStage) (hg : st.Good) (h : s.work = .png st) :
    ∃ t, coreTurn s = .next t ∧ State.RunsGood t := by
  cases hf : st.finished with
  | true => exact ⟨_, coreTurn_png_end h hf, runsGood_endStage hi _⟩
  | false =>
    refine ⟨_, coreTurn_png h hf, runsGood_settle hi _ _ ?_⟩
    intro st' e
    split_ifs at e <;> cases e
    · exact ⟨⟨hi, good_putRow hg hf _ rfl⟩, by simp⟩
    · exact ⟨⟨hi, good_putRow hg hf _ (subRow_length _ _)⟩, by simp⟩
    · exact ⟨⟨hi, good_putRow hg hf _ (by simp [upRow])⟩, by simp⟩

/-- The dictionary after an insertion (42_lzw.md R269). -/
theorem entry_assign (st : LzwState) (hd : st.dl ≤ st.dict.length) (e : List Byte) (c w : Nat)
    (p : Option (BitVec 12)) (o : List Byte) (n pos : Nat) :
    LzwState.entry { dict := st.assign e, dl := n, w := w, previous := p, pos := pos, out := o } c = if c = st.dl then e else st.entry c := by
  simp only [LzwState.entry, LzwState.assign, List.getD]
  split
  · next h =>
    rw [List.getElem?_set]
    by_cases hc : st.dl = c
    · rw [if_pos hc, if_pos (by omega), if_pos hc.symm]; rfl
    · rw [if_neg hc, if_neg (Ne.symm hc)]
  · next h =>
    have : st.dl = st.dict.length := by omega
    rw [this]
    by_cases hc : c = st.dict.length
    · subst hc; simp
    · rw [if_neg hc]
      by_cases hlt : c < st.dict.length
      · rw [List.getElem?_append_left hlt]
      · rw [List.getElem?_eq_none (by simp; omega), List.getElem?_eq_none (by omega)]

/-- An insertion keeps the LZW unit good (42_lzw.md R269, R270). -/
theorem good_insert {st st' : LzwState} (hg : st.Good) (e out : List Byte) (code : BitVec 12) (he : e ≠ [])
    (hc : code.toNat ≤ st.dl) (h1 : code.toNat ≠ 256) (h2 : code.toNat ≠ 257)
    (h : ({ st with out := out } : LzwState).insert e code = .more st') : st'.Good := by
  obtain ⟨g1, g2, g3, g4, g5, g6, g7, g8, g9, g10, g11⟩ := hg
  rw [LzwState.insert] at h
  split at h
  · cases h
  · next hne =>
    have hne : st.dl ≠ 4096 := hne
    have ha : ({ st with out := out } : LzwState).assign e = st.assign e := rfl
    rw [ha] at h
    cases h
    have hlen : (st.assign e).length = max st.dict.length (st.dl + 1) := by
      simp only [LzwState.assign]; split <;> simp <;> omega
    refine ⟨by simp; omega, by simp; omega, ?_, ?_, ?_, by simp only [hlen]; omega, by simp only [hlen]; omega,
      ?_, ?_, ?_, by simp⟩
    · simp only; split <;> omega
    · simp only; split <;> omega
    · simp only
      intro hw
      split at hw
      · next hh =>
        rw [if_pos hh]
        have hw11 : st.w = 9 ∨ st.w = 10 ∨ st.w = 11 := by omega
        have := g5 (by omega)
        rcases hw11 with hw | hw | hw <;> rw [hw] at this ⊢ <;> simp at this ⊢ <;> omega
      · next hh =>
        rw [if_neg hh]
        have h12 : st.w < 12 := by omega
        have : ¬(st.dl + 1 ≥ 2 ^ st.w - 1) := fun h => hh ⟨h, h12⟩
        omega
    · intro c hc
      rw [entry_assign st g6, if_neg (by omega)]; exact g8 c hc
    · intro c hcl hc1 hc2
      rw [entry_assign st g6]
      split
      · exact he
      · exact g9 c (by simp at hcl; omega) hc1 hc2
    · intro p hp'
      simp at hp'; subst hp'
      exact ⟨by simp; omega, h1, h2⟩

theorem runsGood_lzw {st : LzwState} (hi : s.inStage) (hg : st.Good) (h : s.work = .lzw st) :
    ∃ t, coreTurn s = .next t ∧ State.RunsGood t := by
  rcases Nat.lt_or_ge (8 * s.cur.length) (st.pos + st.w) with hlt | hge
  · exact ⟨_, coreTurn_lzw_truncated h (by have := hg.2.2.1; omega) hlt, runsGood_err _ _ _⟩
  refine ⟨_, coreTurn_lzw h hge, runsGood_settle hi _ _ ?_⟩
  have hlen : (windowMsb s.cur st.pos st.w).length = st.w := by rw [windowMsb_length]; omega
  have hcode := natOfMsb_lt (windowMsb s.cur st.pos st.w)
  rw [hlen] at hcode
  have hc12 : natOfMsb (windowMsb s.cur st.pos st.w) < 4096 := by
    calc _ < 2 ^ st.w := hcode
      _ ≤ 2 ^ 12 := Nat.pow_le_pow_right (by omega) hg.2.2.2.1
  generalize natOfMsb (windowMsb s.cur st.pos st.w) = code at *
  have hg2 : ({ st with pos := st.pos + st.w } : LzwState).Good := hg
  generalize hst : ({ st with pos := st.pos + st.w } : LzwState) = st2 at *
  have htn : (BitVec.ofNat 12 code).toNat = code := by simp; omega
  intro st' e
  refine ⟨⟨hi, ?_⟩, by simp⟩
  rw [LzwState.take] at e
  have hg3 := hg2
  obtain ⟨g1, g2, g3, g4, g5, g6, g7, g8, g9, g10, g11⟩ := hg2
  split_ifs at e with c1 c2 c3 c4
  · cases e
    refine ⟨Nat.le_refl 258, (by decide : (258:Nat) ≤ 4096), Nat.le_refl 9, (by decide : (9:Nat) ≤ 12), fun _ => (by decide : (258:Nat) ≤ 2^9 - 1),
      by simp only; omega, g7, g8, fun c hc h1 h2 => g9 c (by simp at hc; omega) h1 h2, by simp, by simp⟩
  · have hlt : code < st2.dl := by omega
    rw [LzwState.known] at e
    simp only [htn] at e
    split at e
    · next hp =>
      cases e
      have := g11 hp
      refine ⟨g1, g2, g3, g4, g5, g6, g7, g8, g9, ?_, by simp⟩
      intro p hp; simp at hp; subst hp; rw [htn]; exact ⟨hlt, c1, c2⟩
    · next p hp =>
      refine good_insert hg3 _ _ _ ?_ (by rw [htn]; omega) (by rw [htn]; exact c1) (by rw [htn]; exact c2) e
      intro h0
      have := g10 p hp
      have := g9 p.toNat this.1 this.2.1 this.2.2
      simp at h0; exact this h0.1
  · rw [LzwState.selfReference] at e
    split at e
    · cases e
    · next p hp =>
      refine good_insert hg3 _ _ _ ?_ (by rw [htn]; omega) (by rw [htn]; exact c1) (by rw [htn]; exact c2) e
      intro h0
      have := g10 p hp
      have := g9 p.toNat this.1 this.2.1 this.2.2
      simp at h0; exact this h0

theorem runsGood_a85 {st : A85State} (hi : s.inStage) (hg : st.Good) (h : s.work = .a85 st) :
    ∃ t, coreTurn s = .next t ∧ State.RunsGood t := by
  cases hf : st.t.find? isWhitespace with
  | some c =>
    refine ⟨_, (coreTurn_a85_ws h hf).trans (onA85_eq (fun st => .more { st with t := dropWhitespace st.t }) h), runsGood_settle hi _ _ ?_⟩
    intro st' e; cases e; exact ⟨⟨hi, hg⟩, by simp⟩
  | none =>
    rcases Nat.lt_or_ge st.i st.t.length with hlt | hge
    · refine ⟨_, coreTurn_a85 h hf (List.getElem?_eq_getElem hlt), runsGood_settle hi _ _ ?_⟩
      intro st' e
      refine ⟨⟨hi, ?_⟩, by simp⟩
      obtain ⟨g1, g2⟩ := hg
      rw [A85State.take] at e
      split_ifs at e with c1 c2 c3 c4
      · cases e; exact ⟨g1, g2⟩
      · split at e <;> cases e
      · cases e; exact ⟨g1, g2⟩
      · rw [A85State.digit] at e
        split at e
        · split at e
          · cases e; exact ⟨by simp, by simp⟩
          · cases e
        · next h5 =>
          cases e
          refine ⟨by simp at h5 ⊢; omega, ?_⟩
          intro d hd
          simp at hd
          rcases hd with hd | rfl
          · exact g2 d hd
          · simp [isA85Digit] at c4; omega
    · refine ⟨_, (coreTurn_a85_end h hf hge).trans (onA85_eq (fun st => match a85Final st.group with
      | some bs => .done (st.out ++ bs)
      | none => .fail .invalidA85Group 0) h), runsGood_settle hi _ _ ?_⟩
      intro st' e
      split at e <;> cases e

theorem runsGood_ahx {st : AhxState} (hi : s.inStage) (h : s.work = .ahx st) : ∃ t, coreTurn s = .next t ∧ State.RunsGood t := by
  rcases Nat.lt_or_ge st.i s.cur.length with hlt | hge
  · exact ⟨_, coreTurn_ahx h (List.getElem?_eq_getElem hlt), runsGood_settle hi _ _ fun st' _ => ⟨hi, by simp⟩⟩
  · exact ⟨_, (coreTurn_ahx_end h hge).trans (onAhx_eq (fun st => match st.pend with
      | none => .done st.out
      | some _ => .fail .invalidHexDigitCount 0) h), runsGood_settle hi _ _ fun st' _ => ⟨hi, by simp⟩⟩

/-- A swap keeps the permutation one (45_rc4.md R365). -/
theorem permSwap_perm (perm : List Byte) (h : perm.length = 256) (i j : BitVec 8) : (permSwap perm i j).Perm perm := by
  unfold permSwap permAt
  have hi : i.toNat < perm.length := by have := i.isLt; omega
  have hj : j.toNat < perm.length := by have := j.isLt; omega
  rw [show perm.getD j.toNat 0 = perm[j.toNat] by simp [List.getD, hj],
    show perm.getD i.toNat 0 = perm[i.toNat] by simp [List.getD, hi]]
  exact List.set_set_perm hi hj

theorem ident_len : identityPerm.length = 256 := by simp [identityPerm]

theorem runsGood_rc4 {st : Rc4State} (hg : st.Good) (h : s.work = .rc4 st) : ∃ t, coreTurn s = .next t ∧ State.RunsGood t := by
  refine ⟨_, coreTurn_rc4 h, ?_⟩
  obtain ⟨g1, g2, g3, g4, g5, g6⟩ := hg
  have hl : st.perm.length = 256 := by rw [g1.length_eq, ident_len]
  unfold State.rc4Turn
  split
  · next hs =>
    refine ⟨?_, by simp [State.withWork]⟩
    show st.schedule.Good
    obtain ⟨g51, g52⟩ := g5 hs
    unfold Rc4State.schedule
    simp only
    split
    · next h1 =>
      refine ⟨(permSwap_perm _ hl _ _).trans g1, g2, g3, by simp only; omega, fun _ => ⟨?_, g52⟩, g6⟩
      simp only [BitVec.toNat_add, g51]; simp; omega
    · refine ⟨(permSwap_perm _ hl _ _).trans g1, g2, g3, by simp only; omega, fun hh => absurd hh (by simp only; omega), g6⟩
  · next hs =>
    split
    · next x hx =>
      refine ⟨?_, by simp [State.withWork]⟩
      have hlt : st.out.length < st.data.length := (List.getElem?_eq_some_iff.mp hx).1
      exact ⟨(permSwap_perm _ hl _ _).trans g1, g2, g3, g4, fun hh => absurd hh hs, by simp [Rc4State.generate]; omega⟩
    · split
      · exact runsGood_err _ _ _
      · exact ⟨by show st.out.length ≤ s.params.outCap; omega, by simp [State.finishOk, State.withWork]⟩

theorem runsGood_command (h : s.work = .command) : ∃ t, coreTurn s = .next t ∧ State.RunsGood t := by
  rw [coreTurn_command h]
  split
  · refine ⟨_, onCommand_eq _ h, ?_⟩
    unfold State.withInput
    split
    · exact runsGood_err _ _ _
    next h1 =>
    simp only
    split
    · exact runsGood_err _ _ _
    next h2 =>
    exact ⟨⟨⟨Nat.le_of_not_lt h1, Nat.le_of_not_lt h2⟩, Nat.zero_le _, fun i hi => absurd hi (by omega)⟩, by simp [State.withWork]⟩
  split
  · refine ⟨_, onCommand_eq _ h, ?_⟩
    unfold State.withInput
    split
    · exact runsGood_err _ _ _
    simp only
    split
    · exact runsGood_err (s := s.drawn) _ _ _
    · next h2 => exact ⟨by show (deflateEnc s.readIn).length ≤ s.params.outCap; omega, by simp [State.finishOk, State.withWork]⟩
  split
  · refine ⟨_, onCommand_eq _ h, ?_⟩
    unfold State.withInput
    split
    · exact runsGood_err _ _ _
    simp only
    split
    · exact runsGood_err _ _ _
    next h2 =>
    refine ⟨?_, by simp [State.withWork]⟩
    show (rc4Start s.readKey s.readIn).Good
    have hkl : s.readKey.length = s.keyLen.toNat := by simp [State.readKey, State.bytesAt]
    simp at h2
    exact ⟨List.Perm.refl _, by simp [rc4Start, hkl]; omega, by simp [rc4Start, hkl]; omega,
      by simp [rc4Start], fun _ => ⟨rfl, rfl⟩, by simp [rc4Start]⟩
  · exact ⟨_, onCommand_eq _ h, runsGood_err _ _ _⟩

theorem runsGood_validate {j : Nat} (hg : s.Good) (h : s.work = .validate j) : ∃ t, coreTurn s = .next t ∧ State.RunsGood t := by
  have hw := hg.work
  rw [State.workGood, h] at hw
  obtain ⟨h1, h2, h3⟩ := hw
  rcases Nat.lt_or_ge j s.nstages.toNat with hlt | hge
  · refine ⟨_, coreTurn_validate h hlt, ?_⟩
    split
    · exact runsGood_err _ _ _
    · next hv =>
      refine ⟨⟨h1, hlt, ?_⟩, by simp⟩
      intro i hi
      rcases Nat.lt_or_ge i j with h | h
      · exact h3 i h
      · have : i = j := by omega
        subst this; exact hv
  · refine ⟨_, coreTurn_validate_end h hge, ⟨h1, Nat.zero_le _, fun i hi => h3 i (Nat.lt_of_lt_of_le hi hge),
      fun h => absurd h (by simp [State.beginStages])⟩, by simp [State.beginStages]⟩

theorem runsGood_stage (hg : s.Good) (h : s.work = .stage) : ∃ t, coreTurn s = .next t ∧ State.RunsGood t := by
  have hw := hg.work
  rw [State.workGood, h] at hw
  rcases Nat.lt_or_ge s.k s.nstages.toNat with hlt | hge
  · refine ⟨_, coreTurn_stage h hlt, ?_⟩
    rw [hw.2.2.1 _ hlt]
    exact runsGood_startUnit ⟨hw, hlt⟩ _
  · refine ⟨_, coreTurn_stage_end h hge, ?_⟩
    unfold State.endChain
    split
    · exact runsGood_err _ _ _
    · exact ⟨by show s.cur.length ≤ s.params.outCap; omega, by simp [State.finishOk, State.withWork]⟩

/-- Every turn of the Core that neither idles nor completes leaves a good working state. -/
theorem runsGood_turn (hg : s.Good) (hn : s.work ≠ .none) (hf : ∀ r, s.work ≠ .finish r) :
    ∃ t, coreTurn s = .next t ∧ State.RunsGood t := by
  have hw := hg.work
  rw [State.workGood] at hw
  cases h : s.work with
  | none => exact absurd h hn
  | finish r => exact absurd h (hf r)
  | command => exact runsGood_command h
  | validate j => exact runsGood_validate hg h
  | stage => exact runsGood_stage hg h
  | inflate st => rw [h] at hw; exact runsGood_inflate hw.1 hw.2 h
  | predict st => rw [h] at hw; exact runsGood_predict hw h
  | png st => rw [h] at hw; exact runsGood_png hw.1 hw.2 h
  | lzw st => rw [h] at hw; exact runsGood_lzw hw.1 hw.2 h
  | a85 st => rw [h] at hw; exact runsGood_a85 hw.1 hw.2 h
  | ahx st => rw [h] at hw; exact runsGood_ahx hw h
  | rc4 st => rw [h] at hw; exact runsGood_rc4 hw h

end Sys2Proof.Machine
end

