-- ==== Sys2Proof/Laws/Refinement.lean ====
section
/-! SUPPORT. Each unit, by the Core's turns alone, ends as its pseudocode of Machine/Reference.lean says. -/

namespace Sys2Proof.Machine

variable {s : State}

/-! ## Runs of Core turns -/

theorem Reaches.refl (s : State) : Reaches s s := ⟨0, rfl⟩

/-- One turn of the Core, then the rest. -/
theorem Reaches.step {t u : State} (hi : s.inputs = []) (h : coreTurn s = .next t) (r : Reaches t u) : Reaches s u := by
  obtain ⟨n, hn⟩ := r
  refine ⟨n + 1, ?_⟩
  have : Sys2Proof.core.step s = .next t := by
    show Machine.step s = _
    rw [Machine.step, hi]; exact h
  simp only [Host.Core.run, this, hn]

theorem Reaches.trans {t u : State} (r1 : Reaches s t) (r2 : Reaches t u) : Reaches s u := by
  obtain ⟨n, hn⟩ := r1
  obtain ⟨m, hm⟩ := r2
  refine ⟨n + m, ?_⟩
  induction n generalizing s with
  | zero => cases hn; rw [Nat.zero_add]; exact hm
  | succ n ih =>
    rw [Nat.succ_add]
    simp only [Host.Core.run] at hn ⊢
    split at hn
    · next s' hs' => exact ih hn
    · cases hn
    · cases hn

theorem Reaches.one {t : State} (hi : s.inputs = []) (h : coreTurn s = .next t) : Reaches s t := .step hi h (.refl _)

/-- A unit's step from a working state inside the stage. -/
theorem settle_withWork {σ : Type} (w : Work) (wrap : σ → Work) (r : UnitStep σ) :
    (s.withWork w).settle wrap r = s.settle wrap r := by
  cases r <;> rfl

/-- ASCIIHex from index `i` on (44_asciihex.md R340). -/
theorem reaches_ahx (hi : s.inputs = []) (rest : List Byte) :
    ∀ (i : Nat) (pend : Option (BitVec 4)) (out : List Byte), s.cur.drop i = rest →
    Reaches (s.withWork (.ahx { i := i, pend := pend, out := out })) (s.settleResult (ahxLoop pend out rest)) := by
  induction rest with
  | nil =>
    intro i pend out hd
    refine .one hi ?_
    have hlen : s.cur.length ≤ i := List.drop_eq_nil_iff.mp hd
    rw [coreTurn_ahx_end rfl hlen]
    cases pend <;> rfl
  | cons c cs ih =>
    intro i pend out hd
    have hc : s.cur[i]? = some c := by rw [← List.head?_drop, hd]; rfl
    have hn : s.cur.drop (i + 1) = cs := by rw [← List.tail_drop, hd]; rfl
    have hw : (s.withWork (.ahx { i := i, pend := pend, out := out })).work = .ahx { i := i, pend := pend, out := out } := rfl
    have ht := coreTurn_ahx hw hc
    rw [settle_withWork, AhxState.take] at ht
    unfold ahxLoop
    split_ifs at ht ⊢ with h1 h2 h3
    · refine .one hi (ht.trans ?_); cases pend with | none => rfl | some h => cases h2
    · refine .one hi (ht.trans ?_); cases pend with | none => exact absurd rfl h2 | some h => rfl
    · exact .step hi ht (ih _ _ _ hn)
    · refine .step hi ht ?_
      cases pend with
      | none => exact ih _ _ _ hn
      | some h => exact ih _ _ _ hn
    · exact .one hi ht

theorem filter_dropWhitespace (t : List Byte) :
    (dropWhitespace t).filter (fun c => !isWhitespace c) = t.filter fun c => !isWhitespace c := by
  induction t with
  | nil => rfl
  | cons c cs ih =>
    rw [dropWhitespace]
    split
    · next h => simp [h]
    · next h => simp [h, ih]

theorem dropWhitespace_length {t : List Byte} {c : Byte} (h : t.find? isWhitespace = some c) :
    (dropWhitespace t).length + 1 = t.length := by
  induction t with
  | nil => cases h
  | cons b cs ih =>
    rw [dropWhitespace]
    split
    · rfl
    · next hb => simp [hb] at h; simp [ih h]

/-- The removal of all whitespace (43_ascii85.md R303). -/
theorem reaches_a85_ws (hi : s.inputs = []) (n : Nat) : ∀ (t : List Byte), t.length ≤ n →
    Reaches (s.withWork (.a85 { t := t, i := 0, group := [], out := [] }))
      (s.withWork (.a85 { t := t.filter fun c => !isWhitespace c, i := 0, group := [], out := [] })) := by
  induction n with
  | zero => intro t h; have : t = [] := List.length_eq_zero_iff.mp (by omega); subst this; exact .refl _
  | succ n ih =>
    intro t h
    cases hf : t.find? isWhitespace with
    | none =>
      have : t.filter (fun c => !isWhitespace c) = t := by
        rw [List.filter_eq_self]; intro a ha; have := List.find?_eq_none.mp hf a ha; simpa using this
      rw [this]; exact .refl _
    | some c =>
      have hw : (s.withWork (.a85 { t := t, i := 0, group := [], out := [] })).work = .a85
          { t := t, i := 0, group := [], out := [] } := rfl
      have ht := (coreTurn_a85_ws hw hf).trans (onA85_eq (fun st => .more { st with t := dropWhitespace st.t }) hw)
      rw [settle_withWork] at ht
      refine .step hi ht ?_
      rw [← filter_dropWhitespace]
      exact ih _ (by show (dropWhitespace t).length ≤ n; have := dropWhitespace_length hf; omega)

/-- ASCII85 from index `i` on, on text without whitespace (43_ascii85.md R301). -/
theorem reaches_a85_loop (hi : s.inputs = []) (t : List Byte) (hws : t.find? isWhitespace = none) (rest : List Byte) :
    ∀ (i : Nat) (group : List Nat) (out : List Byte), t.drop i = rest → (i = 0 → rest.take 2 ≠ [0x3C, 0x7E]) →
    Reaches (s.withWork (.a85 { t := t, i := i, group := group, out := out })) (s.settleResult (a85Loop group out rest)) := by
  induction rest with
  | nil =>
    intro i group out hd _
    refine .one hi ?_
    have hw : (s.withWork (.a85 { t := t, i := i, group := group, out := out })).work = .a85
        { t := t, i := i, group := group, out := out } := rfl
    rw [coreTurn_a85_end hw hws (List.drop_eq_nil_iff.mp hd)]
    refine (onA85_eq (fun st => match st.group |> a85Final with
      | some bs => .done (st.out ++ bs)
      | none => .fail .invalidA85Group 0) hw).trans ?_
    rw [settle_withWork, a85Loop]
    cases a85Final group <;> rfl
  | cons c cs ih =>
    intro i group out hd hb
    have hc : t[i]? = some c := by rw [← List.head?_drop, hd]; rfl
    have hn : t.drop (i + 1) = cs := by rw [← List.tail_drop, hd]; rfl
    have hnext : t[i + 1]? = cs.head? := by rw [← List.head?_drop, hn]
    have hw : (s.withWork (.a85 { t := t, i := i, group := group, out := out })).work = .a85
        { t := t, i := i, group := group, out := out } := rfl
    have ht := coreTurn_a85 hw hws hc
    rw [settle_withWork, hnext, A85State.take] at ht
    rw [if_neg (by
      rintro ⟨h0, h1, h2⟩
      apply hb h0
      cases cs with
      | nil => cases h2
      | cons d ds => simp at h2; simp [h1, h2])] at ht
    rw [a85Loop]
    by_cases h1 : c = 0x7E ∧ cs.head? = some 0x3E
    · rw [if_pos h1] at ht ⊢
      refine .one hi (ht.trans ?_)
      cases a85Final group <;> rfl
    rw [if_neg h1] at ht ⊢
    by_cases h2 : c = 0x7A ∧ group = []
    · rw [if_pos h2] at ht ⊢
      exact .step hi ht (ih _ _ _ hn (by omega))
    rw [if_neg h2] at ht ⊢
    by_cases h3 : isA85Digit c = true
    · rw [if_pos h3] at ht
      have h3' : 0x21 ≤ c.toNat ∧ c.toNat ≤ 0x75 := by simpa [isA85Digit] using h3
      rw [if_neg (by omega)]
      rw [A85State.digit] at ht
      simp only at ht ⊢
      split at ht
      · next h5 =>
        rw [if_pos h5]
        cases he : a85Emit (group ++ [c.toNat - 33]) with
        | some bs => simp only [he] at ht ⊢; exact .step hi ht (ih _ _ _ hn (by omega))
        | none => simp only [he] at ht ⊢; exact .one hi ht
      · next h5 =>
        rw [if_neg h5]
        exact .step hi ht (ih _ _ _ hn (by omega))
    · rw [if_neg h3] at ht
      have h3' : ¬(0x21 ≤ c.toNat ∧ c.toNat ≤ 0x75) := by simpa [isA85Digit] using h3
      rw [if_pos (by omega)]
      exact .one hi ht

/-- The ASCII85 unit. -/
theorem reaches_a85 (hi : s.inputs = []) : Reaches (s.withWork (.a85 (a85Start s.cur))) (s.settleResult (a85Decode s.cur)) := by
  refine (reaches_a85_ws hi _ s.cur (Nat.le_refl _)).trans ?_
  rw [a85Decode]
  set t := s.cur.filter fun c => !isWhitespace c with htdef
  have hws : t.find? isWhitespace = none := by
    rw [List.find?_eq_none]; intro a ha; simp [htdef] at ha; simp [ha.2]
  by_cases h : t.take 2 = [0x3C, 0x7E]
  · rw [if_pos h]
    match t, h, hws with
    | c :: d :: rest, h, hws =>
      simp at h
      obtain ⟨rfl, rfl⟩ := h
      have hw : (s.withWork (.a85 { t := 0x3C :: 0x7E :: rest, i := 0, group := [], out := [] })).work = .a85
          { t := 0x3C :: 0x7E :: rest, i := 0, group := [], out := [] } := rfl
      have ht := coreTurn_a85 hw hws (c := 0x3C) rfl
      rw [settle_withWork, A85State.take, if_pos ⟨rfl, rfl, rfl⟩] at ht
      exact .step hi ht (reaches_a85_loop hi _ hws _ 2 [] [] rfl (by omega))
  · rw [if_neg h]
    exact reaches_a85_loop hi t hws t 0 [] [] rfl (fun _ => h)

/-- The `n` rows that are left (41_flate.md R223). -/
theorem reaches_png (hi : s.inputs = []) (x : List Byte) (c : Nat) (n : Nat) : ∀ (r : Nat) (prev out : List Byte),
    x.length = (r + n) * (c + 1) →
    Reaches (s.withWork (.png { x := x, cols := c, r := r, prev := prev, out := out }))
      (s.settleResult (pngRows c n prev (x.drop (r * (c + 1))) out)) := by
  induction n with
  | zero =>
    intro r prev out h
    have hw : (s.withWork (.png { x := x, cols := c, r := r, prev := prev, out := out })).work = .png
        { x := x, cols := c, r := r, prev := prev, out := out } := rfl
    exact .one hi (coreTurn_png_end hw (decide_eq_true (by simp only [PngState.rowLength]; rw [h]; exact Nat.le_refl _)))
  | succ n ih =>
    intro r prev out h
    have hw : (s.withWork (.png { x := x, cols := c, r := r, prev := prev, out := out })).work = .png
        { x := x, cols := c, r := r, prev := prev, out := out } := rfl
    have hlt : r * (c + 1) < x.length := by
      rw [h]; exact Nat.mul_lt_mul_of_pos_right (by omega) (by omega)
    have hf : ({ x := x, cols := c, r := r, prev := prev, out := out } : PngState).finished = false := by
      exact decide_eq_false (by simp only [PngState.rowLength]; omega)
    have ht := coreTurn_png hw hf
    rw [settle_withWork] at ht
    have hx : x.length = (r + 1 + n) * (c + 1) := by rw [h]; congr 1; omega
    have hft : ({ x := x, cols := c, r := r, prev := prev, out := out } : PngState).filterType = (x.drop (r *
        (c + 1))).getD 0 0 := by
      simp [PngState.filterType, PngState.rowLength]
    have hrd : ({ x := x, cols := c, r := r, prev := prev, out := out } : PngState).rowData = ((x.drop (r *
        (c + 1))).drop 1).take c := by
      simp [PngState.rowData, PngState.rowLength]
    have hrest : (x.drop (r * (c + 1))).drop (c + 1) = x.drop ((r + 1) * (c + 1)) := by
      rw [List.drop_drop]; congr 1; ring
    rw [hft, hrd] at ht
    rw [pngRows, hrest]
    simp only at ht ⊢
    split_ifs at ht ⊢
    · exact .step hi ht (ih _ _ _ hx)
    · exact .step hi ht (ih _ _ _ hx)
    · exact .step hi ht (ih _ _ _ hx)
    · exact .one hi ht

/-- The predictor step of a Flate stage (41_flate.md R190). -/
theorem reaches_predict (hi : s.inputs = []) (x : List Byte) (p : Word) (c : Option Word) :
    Reaches (s.withWork (.predict { x := x, predictor := p, columns := c }))
      (s.settleResult (if p = 1 then .ok x
    else if 10 ≤ p.toInt ∧ p.toInt ≤ 15 then pngUnpredict x c
    else .error (.unsupportedPredictor, p))) := by
  have ht := coreTurn_predict (s := s.withWork (.predict { x := x, predictor := p, columns := c })) rfl
  simp only at ht
  split_ifs at ht ⊢
  · exact .one hi ht
  · cases c with
    | none => exact .one hi ht
    | some c =>
      rw [State.startPng] at ht
      simp only [pngUnpredict] at ht ⊢
      split_ifs at ht ⊢ with h1 h2
      · exact .one hi ht
      · exact .one hi ht
      · refine .step hi ht ?_
        have := reaches_png (s := s) hi x c.toNat (x.length / (c.toNat + 1)) 0 (List.replicate c.toNat 0) [] (by
          rw [Nat.zero_add]; exact (Nat.div_mul_cancel (Nat.dvd_of_mod_eq_zero (by omega))).symm)
        simpa using this
  · exact .one hi ht

/-- The LZW loop (42_lzw.md R260), with a dictionary that agrees with the unit's below `dl`. -/
theorem reaches_lzw (hi : s.inputs = []) (fuel : Nat) : ∀ (st : LzwState) (dict : Nat → List Byte), st.Good →
    (∀ c < st.dl, c ≠ 256 → c ≠ 257 → st.entry c = dict c) → st.pos ≤ 8 * s.cur.length → 8 * s.cur.length - st.pos < 9 * fuel →
    Reaches (s.withWork (.lzw st)) (s.settleResult (lzwLoop s.cur fuel dict st.dl st.w
        (st.previous.map BitVec.toNat) st.pos st.out)) := by
  induction fuel with
  | zero => intro st dict _ _ _ h; omega
  | succ fuel ih =>
    intro st dict hg hdict hp hfuel
    have hw : (s.withWork (.lzw st)).work = .lzw st := rfl
    have hw9 := hg.2.2.1
    have hw12 := hg.2.2.2.1
    rw [lzwLoop]
    by_cases htr : st.pos + st.w > 8 * s.cur.length
    · rw [if_pos htr]
      exact .one hi (coreTurn_lzw_truncated hw (by omega) htr)
    rw [if_neg htr]
    have ht := coreTurn_lzw hw (show st.pos + st.w ≤ 8 * s.cur.length by omega)
    rw [settle_withWork] at ht
    have hcur : (s.withWork (.lzw st)).cur = s.cur := rfl
    rw [hcur] at ht
    have hlen : (windowMsb s.cur st.pos st.w).length = st.w := by rw [windowMsb_length]; omega
    have hcode := natOfMsb_lt (windowMsb s.cur st.pos st.w)
    rw [hlen] at hcode
    have hc12 : natOfMsb (windowMsb s.cur st.pos st.w) < 4096 :=
      Nat.lt_of_lt_of_le hcode (Nat.pow_le_pow_right (by omega) hw12)
    simp only
    generalize natOfMsb (windowMsb s.cur st.pos st.w) = code at *
    have htn : (BitVec.ofNat 12 code).toNat = code := by simp; omega
    have hinv : (BitVec.ofNat 12 code).setWidth 32 = BitVec.ofNat 32 code := by apply BitVec.eq_of_toNat_eq; simp; omega
    have hg2 : ({ st with pos := st.pos + st.w } : LzwState).Good := hg
    obtain ⟨g1, g2, g3, g4, g5, g6, g7, g8, g9, g10, g11⟩ := hg
    -- the insertion
    have ins : ∀ (entry out : List Byte) (p : BitVec 12), st.previous = some p → entry ≠ [] → code ≤ st.dl → code ≠ 256 →
        code ≠ 257 →
        coreTurn (s.withWork (.lzw st)) = .next (s.settle .lzw
            (({ st with pos := st.pos + st.w, out := out } : LzwState).insert entry (BitVec.ofNat 12 code))) →
        Reaches (s.withWork (.lzw st)) (s.settleResult (if st.dl = 4096 then .error (.lzwDictFull, 0)
          else lzwLoop s.cur fuel (fun c => if c = st.dl then entry else dict c) (st.dl + 1)
            (if st.dl + 1 ≥ 2 ^ st.w - 1 ∧ st.w < 12 then st.w + 1 else st.w) (some code) (st.pos + st.w) out)) := by
      intro entry out p hp' he hle h1 h2 ht
      by_cases h4 : st.dl = 4096
      · rw [if_pos h4]
        rw [LzwState.insert, if_pos h4] at ht
        exact .one hi ht
      · rw [if_neg h4]
        have hins := LzwState.insert.eq_1 ({ st with pos := st.pos + st.w, out := out } : LzwState) entry (BitVec.ofNat 12 code)
        rw [if_neg h4] at hins
        have hgood := good_insert (st := { st with pos := st.pos + st.w }) hg2 entry out _ he (by rw [htn]; exact hle)
            (by rw [htn]; exact h1) (by rw [htn]; exact h2) hins
        rw [hins] at ht
        refine .step hi ht ?_
        have := ih _ (fun c => if c = st.dl then entry else dict c) hgood ?_ (show st.pos + st.w ≤ _ by omega)
            (show 8 * s.cur.length - (st.pos + st.w) < 9 * fuel by omega)
        · simp only [Option.map_some, htn] at this
          exact this
        · intro c hc h1 h2
          have hent := entry_assign ({ st with pos := st.pos + st.w, out := out } : LzwState) g6 entry c
              (if st.dl + 1 ≥ 2 ^ st.w - 1 ∧ st.w < 12 then st.w + 1 else st.w) (some (BitVec.ofNat 12 code)) out (st.dl + 1)
              (st.pos + st.w)
          refine hent.trans ?_
          by_cases hcd : c = st.dl
          · rw [if_pos hcd, if_pos hcd]
          · rw [if_neg hcd, if_neg hcd]; exact hdict c (by simp at hc; omega) h1 h2
    rw [LzwState.take] at ht
    by_cases c2 : code = 257
    · rw [if_pos c2]; rw [if_neg (by omega), if_pos c2] at ht
      exact .one hi ht
    rw [if_neg c2];
    by_cases c1 : code = 256
    · rw [if_pos c1]; rw [if_pos c1] at ht
      refine .step hi ht ?_
      refine ih { st with pos := st.pos + st.w, dl := 258, w := 9, previous := none } dict ?_ ?_
          (show st.pos + st.w ≤ _ by omega) (show 8 * s.cur.length - (st.pos + st.w) < 9 * fuel by omega)
      · exact ⟨Nat.le_refl 258, (by decide : (258:Nat) ≤ 4096), Nat.le_refl 9, (by decide : (9:Nat) ≤ 12), fun _ =>
          (by decide : (258:Nat) ≤ 2^9 - 1),
          by simp only; omega, g7, g8, fun c hc h1 h2 => g9 c (by simp at hc; omega) h1 h2, by simp, by simp⟩
      · intro c hc h1 h2; exact hdict c (by simp at hc; omega) h1 h2
    rw [if_neg c1]; rw [if_neg c1, if_neg c2] at ht
    cases hprev : st.previous with
    | none =>
      simp only [Option.map_none]
      have hdl := (g11 hprev).1
      by_cases c3 : code ≥ st.dl
      · rw [if_pos c3]
        rw [if_neg (by simp only; omega), if_neg (by simp [hprev]), hinv] at ht
        exact .one hi ht
      · rw [if_neg c3]
        rw [if_pos (by simp only; omega), LzwState.known] at ht
        simp only [hprev, htn] at ht
        refine .step hi ht ?_
        have hent : st.entry code = dict code := hdict code (by omega) c1 c2
        have := ih
          { st with pos := st.pos + st.w, out := st.out ++ st.entry code, previous := some (BitVec.ofNat 12 code) } dict ?_ hdict
          (show st.pos + st.w ≤ _ by omega) (show 8 * s.cur.length - (st.pos + st.w) < 9 * fuel by omega)
        · simp only [Option.map_some, htn, hent] at this
          rw [← hent] at this ⊢
          exact this
        · refine ⟨g1, g2, g3, g4, g5, g6, g7, g8, g9, ?_, by simp⟩
          intro p hp; simp at hp; subst hp; rw [htn]; exact ⟨by simp only; omega, c1, c2⟩
    | some p =>
      simp only [Option.map_some]
      have hp3 := g10 p hprev
      have hpe : st.entry p.toNat = dict p.toNat := hdict _ hp3.1 hp3.2.1 hp3.2.2
      have hpne : dict p.toNat ≠ [] := by rw [← hpe]; exact g9 _ hp3.1 hp3.2.1 hp3.2.2
      by_cases c3 : code < st.dl
      · rw [if_pos c3]
        rw [if_pos (by simp only; omega), LzwState.known] at ht
        simp only [hprev, htn] at ht
        have hent : st.entry code = dict code := hdict code (by omega) c1 c2
        rw [← hpe, ← hent]
        refine ins _ _ p hprev ?_ (by omega) c1 c2 ht
        rw [hpe]; simp [hpne]
      rw [if_neg c3]
      by_cases c4 : code = st.dl
      · rw [if_pos c4]
        rw [if_neg (by simp only; omega), if_pos ⟨c4, by simp [hprev]⟩, LzwState.selfReference] at ht
        simp only [hprev] at ht
        rw [← hpe]
        refine ins _ _ p hprev ?_ (by omega) c1 c2 ht
        rw [hpe]; simp [hpne]
      · rw [if_neg c4]
        rw [if_neg (by simp only; omega), if_neg (by rintro ⟨h, -⟩; exact c4 h), hinv] at ht
        exact .one hi ht

/-! ## Inflate -/

/-- A code word that is read has at least one bit, and no more than there are. -/
theorem walkCode_len {t : PrefixCode} {sym n : Nat} :
    ∀ (bits : List Bool) (c len : Nat), walkCode t c len bits = .ok (sym, n) → len < n ∧ n ≤ len + bits.length := by
  intro bits
  induction bits with
  | nil => intro c len h; simp [walkCode] at h
  | cons b bs ih =>
    intro c len h
    rw [walkCode] at h
    split at h
    · cases h; simp
    · have := ih _ _ h; simp; omega

theorem symbolAt_pos {inp : List Byte} {t : PrefixCode} {pos sym pos' : Nat} (h : symbolAt inp t pos = some (sym, pos')) :
    pos < pos' ∧ pos' ≤ 8 * inp.length := by
  unfold symbolAt at h
  split at h
  · next sym len hr =>
    cases h
    have := walkCode_len _ _ _ hr
    rw [List.length_take, windowLsb_length] at this
    omega
  · cases h

theorem getBits_pos {inp : List Byte} {pos n v : Nat} (h : getBits inp pos n = some v) (hp : pos ≤ 8 * inp.length) :
    pos + n ≤ 8 * inp.length := by
  have := getBits_isSome inp pos n
  rw [h] at this
  have : n ≤ 8 * inp.length - pos := by simpa using this.symm
  omega

theorem lengthOf_pos {inp : List Byte} {pos sym n pos' : Nat} (h : lengthOf inp pos sym = some (n, pos'))
    (hp : pos ≤ 8 * inp.length) :
    pos ≤ pos' ∧ pos' ≤ 8 * inp.length := by
  unfold lengthOf at h
  split at h
  · cases h
  split at h
  · simp only [Option.map_eq_some_iff] at h
    obtain ⟨x, hx, h⟩ := h
    cases h
    have := getBits_pos hx hp; omega
  · cases h

theorem distanceOf_pos {inp : List Byte} {pos sym n pos' : Nat} (h : distanceOf inp pos sym = some (n, pos'))
    (hp : pos ≤ 8 * inp.length) :
    pos ≤ pos' ∧ pos' ≤ 8 * inp.length := by
  unfold distanceOf at h
  split at h
  · simp only [Option.map_eq_some_iff] at h
    obtain ⟨x, hx, h⟩ := h
    cases h
    have := getBits_pos hx hp; omega
  · cases h

theorem copyBack_prefix (d n : Nat) : ∀ out : List Byte, out <+: copyBack d n out := by
  induction n with
  | zero => intro out; exact List.prefix_refl _
  | succ n ih => intro out; exact (List.prefix_append out _).trans (ih _)

theorem copyBack_append (d n : Nat) (out : List Byte) : out ++ (copyBack d n out).drop out.length = copyBack d n out := by
  obtain ⟨r, hr⟩ := copyBack_prefix d n out
  rw [← hr]; simp

/-- The unit with another cursor and output, and the sums that go with the output. -/
def InflateState.atPos (st : InflateState) (pos : Nat) (out : List Byte) : InflateState :=
  { st with pos := pos, out := out, adlerA := (out.foldl adlerUpdate (1, 0)).1, adlerB := (out.foldl adlerUpdate (1, 0)).2 }

theorem sumsGood_atPos (st : InflateState) (pos : Nat) (out : List Byte) : (st.atPos pos out).SumsGood :=
  ⟨rfl, adler_fold_lt out (1, 0) (by decide) (by decide)⟩

theorem emit_atPos {st : InflateState} (h : st.SumsGood) (pos : Nat) (bs : List Byte) :
    ({ st with pos := pos } : InflateState).emit bs = st.atPos pos (st.out ++ bs) := by
  simp only [InflateState.emit, InflateState.atPos, List.foldl_append, ← h.1]

theorem self_atPos {st : InflateState} (h : st.SumsGood) (pos : Nat) :
    ({ st with pos := pos } : InflateState) = st.atPos pos st.out := by
  simp only [InflateState.atPos, ← h.1]

theorem inflateNext_ofWork (w : Work) (r : Option InflateState) :
    (s.withWork w).inflateNext r = s.inflateNext r := by cases r <;> rfl

/-- A Huffman block from its first symbol on (41_flate.md R206). -/
theorem reaches_huffman (hi : s.inputs = []) (fuel : Nat) : ∀ (st : InflateState), st.mode = .symbols → st.SumsGood →
    st.pos ≤ 8 * s.cur.length → 8 * s.cur.length - st.pos < fuel →
    Reaches (s.withWork (.inflate st)) (match huffmanBlock s.cur st.litLen st.dist fuel st.pos st.out with
      | none => s.raiseStage .inflateError 0
      | some (pos, out) => s.withWork (.inflate (st.atPos pos out).endBlock)) := by
  induction fuel with
  | zero => intro st _ _ _ h; omega
  | succ fuel ih =>
    intro st hm hs hp hf
    have ht := coreTurn_inflate_symbol (s := s.withWork (.inflate st)) rfl hm
    rw [inflateNext_ofWork, show (s.withWork (.inflate st)).cur = s.cur from rfl] at ht
    rw [huffmanBlock]
    cases hsym : symbolAt s.cur st.litLen st.pos with
    | none => rw [hsym] at ht; exact .one hi ht
    | some r =>
      obtain ⟨sym, pos⟩ := r
      obtain ⟨hp1, hp2⟩ := symbolAt_pos hsym
      rw [hsym] at ht
      simp only at ht ⊢
      by_cases h1 : sym < 256
      · rw [if_pos h1] at ht ⊢
        rw [emit_atPos hs] at ht
        exact .step hi ht (ih _ hm (sumsGood_atPos _ _ _) hp2 (show 8 * s.cur.length - pos < fuel by omega))
      rw [if_neg h1] at ht ⊢
      by_cases h2 : sym = 256
      · rw [if_pos h2] at ht ⊢
        rw [self_atPos hs] at ht
        exact .one hi ht
      rw [if_neg h2] at ht ⊢
      rw [InflateState.lengthSymbol] at ht
      simp only at ht
      cases hl : lengthOf s.cur pos sym with
      | none => rw [hl] at ht; exact .one hi ht
      | some r =>
        obtain ⟨n, pos2⟩ := r
        obtain ⟨hp3, hp4⟩ := lengthOf_pos hl hp2
        rw [hl] at ht
        refine .step hi ht ?_
        simp only
        have ht2 := coreTurn_inflate_distance (s := s.withWork (.inflate { st with pos := pos2, mode := .distance n })) (len :=
            n) rfl rfl
        rw [inflateNext_ofWork, show (s.withWork (.inflate { st with pos := pos2, mode := .distance n })).cur =
            s.cur from rfl] at ht2
        simp only at ht2
        cases hd : symbolAt s.cur st.dist pos2 with
        | none => rw [hd] at ht2; exact .one hi ht2
        | some r =>
          obtain ⟨dsym, pos3⟩ := r
          obtain ⟨hp5, hp6⟩ := symbolAt_pos hd
          rw [hd] at ht2
          simp only [InflateState.distanceSymbol] at ht2 ⊢
          cases hdo : distanceOf s.cur pos3 dsym with
          | none => rw [hdo] at ht2; exact .one hi ht2
          | some r =>
            obtain ⟨dist, pos4⟩ := r
            obtain ⟨hp7, hp8⟩ := distanceOf_pos hdo hp6
            rw [hdo] at ht2
            simp only at ht2 ⊢
            by_cases h3 : dist > st.out.length
            · rw [if_pos h3] at ht2 ⊢; exact .one hi ht2
            · rw [if_neg h3] at ht2 ⊢
              have he := emit_atPos (st := { st with pos := pos3, mode := .symbols }) hs pos4
                  ((copyBack dist n st.out).drop st.out.length)
              simp only [copyBack_append] at he
              rw [he] at ht2
              refine .step hi ht2 ?_
              exact ih (InflateState.atPos { st with pos := pos3, mode := .symbols } pos4 (copyBack dist n st.out)) rfl
                  (sumsGood_atPos _ _ _) hp8 (show 8 * s.cur.length - pos4 < fuel by omega)

theorem appendLengths_some {total : Nat} {lens new l : List Nat} (h : appendLengths total lens new = some l) :
    l = lens ++ new ∧ l.length ≤ total := by
  unfold appendLengths at h
  split at h
  · cases h
  · next h' => cases h; exact ⟨rfl, by omega⟩

/-- The code-length sequence (41_flate.md R204), and where it ends. -/
theorem reaches_lengths (hi : s.inputs = []) (cl : PrefixCode) (hlit hdist : Nat) (fuel : Nat) :
    ∀ (st : InflateState) (lens : List Nat),
    st.mode = .codeLens cl hlit hdist lens → st.pos ≤ 8 * s.cur.length → 8 * s.cur.length - st.pos < fuel →
    Reaches (s.withWork (.inflate st)) (match readLengths s.cur cl (hlit + hdist) fuel st.pos lens with
      | none => s.raiseStage .inflateError 0
      | some (l, pos) => s.withWork (.inflate { st with pos := pos, mode := .codeLens cl hlit hdist l })) ∧
    ∀ l pos, readLengths s.cur cl (hlit + hdist) fuel st.pos lens = some (l, pos) → hlit + hdist ≤ l.length ∧ st.pos ≤ pos ∧
        pos ≤ 8 * s.cur.length := by
  induction fuel with
  | zero => intro st _ _ _ h; omega
  | succ fuel ih =>
    intro st lens hm hp hf
    rw [readLengths]
    by_cases hl : lens.length < hlit + hdist
    · rw [if_pos hl]
      have ht := coreTurn_inflate_codeLen (s := s.withWork (.inflate st)) rfl hm hl
      rw [inflateNext_ofWork, show (s.withWork (.inflate st)).cur = s.cur from rfl] at ht
      cases hsym : symbolAt s.cur cl st.pos with
      | none => rw [hsym] at ht; exact ⟨.one hi ht, by intro l p h; cases h⟩
      | some r =>
        obtain ⟨sym, pos⟩ := r
        obtain ⟨hp1, hp2⟩ := symbolAt_pos hsym
        rw [hsym] at ht
        simp only [InflateState.lengths, InflateState.repeatLength, hm] at ht ⊢
        -- a step that appends
        have app : ∀ (pos' : Nat) (new : List Nat), pos ≤ pos' → pos' ≤ 8 * s.cur.length →
            coreTurn (s.withWork (.inflate st)) = .next (s.inflateNext ((appendLengths (hlit + hdist) lens new).map fun l =>
              { st with pos := pos', mode := .codeLens cl hlit hdist l })) →
            Reaches (s.withWork (.inflate st)) (match (match appendLengths (hlit + hdist) lens new with
                | some l => readLengths s.cur cl (hlit + hdist) fuel pos' l
                | none => none) with
              | none => s.raiseStage .inflateError 0
              | some (l, pos) => s.withWork (.inflate { st with pos := pos, mode := .codeLens cl hlit hdist l })) ∧
            ∀ l q, (match appendLengths (hlit + hdist) lens new with
                | some l => readLengths s.cur cl (hlit + hdist) fuel pos' l
                | none => none) = some (l, q) → hlit + hdist ≤ l.length ∧ st.pos ≤ q ∧ q ≤ 8 * s.cur.length := by
          intro pos' new h1 h2 ht
          cases ha : appendLengths (hlit + hdist) lens new with
          | none => rw [ha] at ht; exact ⟨.one hi ht, by intro l p h; cases h⟩
          | some l =>
            rw [ha] at ht
            have := ih { st with pos := pos', mode := .codeLens cl hlit hdist l } l rfl h2
                (show 8 * s.cur.length - pos' < fuel by omega)
            refine ⟨.step hi ht this.1, ?_⟩
            intro l' q hq
            have := this.2 l' q hq
            simp only at this
            exact ⟨this.1, by omega, this.2.2⟩
        split_ifs at ht ⊢
        · exact app pos [sym] (Nat.le_refl _) hp2 ht
        · cases hg : lens.getLast? with
          | none => rw [hg] at ht; exact ⟨.one hi ht, by intro l p h; cases h⟩
          | some v =>
            cases hb : getBits s.cur pos 2 with
            | none => rw [hg, hb] at ht; exact ⟨.one hi ht, by intro l p h; cases h⟩
            | some x =>
              rw [hg, hb] at ht
              exact app (pos + 2) _ (by omega) (getBits_pos hb hp2) ht
        · cases hb : getBits s.cur pos 3 with
          | none => rw [hb] at ht; exact ⟨.one hi ht, by intro l p h; cases h⟩
          | some x => rw [hb] at ht; exact app (pos + 3) _ (by omega) (getBits_pos hb hp2) ht
        · cases hb : getBits s.cur pos 7 with
          | none => rw [hb] at ht; exact ⟨.one hi ht, by intro l p h; cases h⟩
          | some x => rw [hb] at ht; exact app (pos + 7) _ (by omega) (getBits_pos hb hp2) ht
        · exact ⟨.one hi ht, by intro l p h; cases h⟩
    · rw [if_neg hl]
      refine ⟨?_, by intro l p h; cases h; exact ⟨by omega, Nat.le_refl _, hp⟩⟩
      have : ({ st with pos := st.pos, mode := .codeLens cl hlit hdist lens } : InflateState) = st := by rw [← hm]
      simp only [this]; exact .refl _

theorem alignPos_le (pos : Nat) : pos ≤ alignPos pos := by unfold alignPos; omega

theorem storedBlock_pos {inp : List Byte} {pos pos' : Nat} {bs : List Byte} (h : storedBlock inp pos = some (bs, pos')) :
    pos ≤ pos' ∧ pos' ≤ 8 * inp.length := by
  have ha := alignPos_le pos
  unfold storedBlock at h
  simp only at h
  split at h
  · next len nlen h1 h2 =>
    split at h
    · cases h
    simp only [Option.map_eq_some_iff] at h
    obtain ⟨b, hb, h⟩ := h
    cases h
    unfold takeBytes at hb
    simp only at hb
    split at hb
    · next hl =>
      rw [List.length_take, List.length_drop] at hl
      have hh : alignPos pos % 8 = 0 := by unfold alignPos; omega
      have h16 := getBits_isSome inp (alignPos pos + 16) 16
      rw [h2] at h16
      have : 16 ≤ 8 * inp.length - (alignPos pos + 16) := by simpa using h16.symm
      omega
    · cases hb
  · cases h

theorem dynamicHeader_pos {inp : List Byte} {pos : Nat} {h : DynamicHeader} (e : dynamicHeader inp pos = some h)
    (hp : pos ≤ 8 * inp.length) :
    pos ≤ h.pos ∧ h.pos ≤ 8 * inp.length := by
  have read : ∀ (order : List Nat) (p : Nat) (cl r : List Nat), readCodeLenLengths inp p order cl = some r →
      p ≤ 8 * inp.length → p + 3 * order.length ≤ 8 * inp.length := by
    intro order
    induction order with
    | nil => intro p cl r _ hp; simpa using hp
    | cons o os ih =>
      intro p cl r h hp
      rw [readCodeLenLengths] at h
      split at h
      · next v hv =>
        have := ih _ _ _ h (getBits_pos hv hp)
        simp; omega
      · cases h
  unfold dynamicHeader at e
  split at e
  · next l d c h1 h2 h3 =>
    simp only at e
    split at e
    · cases e
    split at e
    · next cl hcl =>
      simp only [Option.map_eq_some_iff] at e
      obtain ⟨t, -, rfl⟩ := e
      have hp1 := getBits_pos h1 hp
      have hp2 := getBits_pos h2 hp1
      have hp3 := getBits_pos h3 (by omega)
      have := read _ _ _ _ hcl (by omega)
      have hc : c < 16 := by
        unfold getBits at h3
        simp only at h3
        split at h3
        · next hl => cases h3; have := natOfLsb_lt (windowLsb inp (pos + 10) 4); rw [hl] at this; exact this
        · cases h3
      have hlen : (codeLenOrder.take (c + 4)).length = c + 4 := by rw [List.length_take]; simp [codeLenOrder]; omega
      rw [hlen] at this
      simp only; omega
    · cases e
  · cases e

/-- The unit goes on at the end of a block, at another cursor and with more output. -/
def InflateState.AfterBlock (st : InflateState) (bfinal : Bool) (pos : Nat) (out : List Byte) (st' : InflateState) : Prop :=
  st'.SumsGood ∧ st'.pos = pos ∧ st'.out = out ∧ st'.mode = (if bfinal then .trailer else .header) ∧
    st'.predictor = st.predictor ∧ st'.columns = st.columns

theorem huffmanBlock_pos {inp : List Byte} {ll d : PrefixCode} (fuel : Nat) :
    ∀ {pos : Nat} {out : List Byte} {pos' : Nat} {out' : List Byte},
    huffmanBlock inp ll d fuel pos out = some (pos', out') → pos ≤ pos' ∧ pos' ≤ 8 * inp.length := by
  induction fuel with
  | zero => intro pos out pos' out' h; cases h
  | succ fuel ih =>
    intro pos out pos' out' h
    rw [huffmanBlock] at h
    split at h
    · cases h
    next sym p hsym =>
    have h1 := symbolAt_pos hsym
    split at h
    · have := ih h; omega
    split at h
    · cases h; omega
    split at h
    · cases h
    next n p2 hl =>
    have h2 := lengthOf_pos hl h1.2
    split at h
    · cases h
    next dsym p3 hd =>
    have h3 := symbolAt_pos hd
    split at h
    · cases h
    next dist p4 hdo =>
    have h4 := distanceOf_pos hdo h3.2
    split at h
    · cases h
    · have := ih h; omega

/-- One block from its header on (41_flate.md R199-R202). -/
theorem reaches_block (hi : s.inputs = []) (st : InflateState) (hm : st.mode = .header) (hs : st.SumsGood) (b t : Nat)
    (hb : getBits s.cur st.pos 1 = some b) (htype : getBits s.cur (st.pos + 1) 2 = some t) (hp : st.pos ≤ 8 * s.cur.length) :
    match inflateBlock s.cur t (st.pos + 3) st.out with
    | none => Reaches (s.withWork (.inflate st)) (s.raiseStage .inflateError 0)
    | some (pos, out) => (st.pos + 3 ≤ pos ∧ pos ≤ 8 * s.cur.length) ∧
        ∃ st', st.AfterBlock (b == 1) pos out st' ∧ Reaches (s.withWork (.inflate st)) (s.withWork (.inflate st')) := by
  have ht := coreTurn_inflate_header (s := s.withWork (.inflate st)) rfl hm
  rw [inflateNext_ofWork, show (s.withWork (.inflate st)).cur = s.cur from rfl, hb, htype] at ht
  have hp3 : st.pos + 3 ≤ 8 * s.cur.length := by
    have := getBits_pos htype (getBits_pos hb hp); omega
  rw [inflateBlock]
  simp only at ht ⊢
  by_cases h0 : t = 0
  · rw [if_pos h0] at ht ⊢
    rw [InflateState.stored] at ht
    simp only at ht
    cases hsb : storedBlock s.cur (st.pos + 3) with
    | none => rw [hsb] at ht; exact .one hi ht
    | some r =>
      obtain ⟨bs, pos⟩ := r
      rw [hsb] at ht
      simp only [Option.map_some] at ht ⊢
      have hpos := storedBlock_pos hsb
      refine ⟨hpos, _, ?_, .one hi ht⟩
      have he := emit_atPos (st := { st with bfinal := b == 1, btype := 0 }) hs pos bs
      refine ⟨?_, rfl, rfl, rfl, rfl, rfl⟩
      exact sumsGood_emit (st := { st with pos := pos, bfinal := b == 1, btype := 0 }) hs bs
  rw [if_neg h0] at ht ⊢
  by_cases h1 : t = 1
  · rw [if_pos h1] at ht ⊢
    have := reaches_huffman hi (8 * s.cur.length + 1) (InflateState.fixed (b == 1) { st with pos := st.pos + 3 }) rfl hs hp3
        (show 8 * s.cur.length - (st.pos + 3) < _ by omega)
    have h := Reaches.step (s := s.withWork (.inflate st)) hi ht this
    simp only [InflateState.fixed] at h
    cases hh : huffmanBlock s.cur fixedLitLen fixedDist (8 * s.cur.length + 1) (st.pos + 3) st.out with
    | none => rw [hh] at h; exact h
    | some r =>
      obtain ⟨pos, out⟩ := r
      rw [hh] at h
      refine ⟨huffmanBlock_pos _ hh, _, ?_, h⟩
      exact ⟨sumsGood_atPos { st with bfinal := b == 1, btype := 1, litLen := fixedLitLen, dist := fixedDist } pos out, rfl,
          rfl, rfl, rfl, rfl⟩
  rw [if_neg h1] at ht ⊢
  by_cases h2 : t = 2
  · rw [if_pos h2] at ht ⊢
    rw [InflateState.dynamic] at ht
    simp only at ht
    cases hd : dynamicHeader s.cur (st.pos + 3) with
    | none => rw [hd] at ht; exact .one hi ht
    | some h =>
      rw [hd] at ht
      simp only [Option.map_some] at ht ⊢
      have hpos := dynamicHeader_pos hd hp3
      obtain ⟨r1, r2⟩ := reaches_lengths hi h.cl h.hlit h.hdist (8 * s.cur.length + 1)
        { st with pos := h.pos, bfinal := b == 1, btype := 2, mode := .codeLens h.cl h.hlit h.hdist [] } [] rfl hpos.2
            (show 8 * s.cur.length - h.pos < _ by omega)
      have hr := Reaches.step (s := s.withWork (.inflate st)) hi ht r1
      simp only at hr r2
      cases hl : readLengths s.cur h.cl (h.hlit + h.hdist) (8 * s.cur.length + 1) h.pos [] with
      | none => rw [hl] at hr; exact hr
      | some r =>
        obtain ⟨lens, pos⟩ := r
        rw [hl] at hr
        obtain ⟨q1, q2, q3⟩ := r2 lens pos hl
        simp only at hr ⊢
        have ht2 := coreTurn_inflate_codes (s := s.withWork (.inflate
            { st with pos := pos, bfinal := b == 1, btype := 2, mode := .codeLens h.cl h.hlit h.hdist lens })) rfl rfl q1
        rw [inflateNext_ofWork, InflateState.buildCodes] at ht2
        simp only at ht2
        cases hc : dynamicCodes h.hlit h.hdist lens with
        | none => rw [hc] at ht2; exact hr.trans (.one hi ht2)
        | some c =>
          obtain ⟨ll, d⟩ := c
          rw [hc] at ht2
          simp only [Option.map_some] at ht2 ⊢
          have := reaches_huffman hi (8 * s.cur.length + 1)
              { st with pos := pos, bfinal := b == 1, btype := 2, mode := .symbols, litLen := ll, dist := d } rfl hs q3
              (show 8 * s.cur.length - pos < _ by omega)
          have hfin := hr.trans (Reaches.step (s := s.withWork (.inflate
              { st with pos := pos, bfinal := b == 1, btype := 2, mode := .codeLens h.cl h.hlit h.hdist lens })) hi ht2 this)
          simp only at hfin
          cases hh : huffmanBlock s.cur ll d (8 * s.cur.length + 1) pos st.out with
          | none => rw [hh] at hfin; exact hfin
          | some r =>
            obtain ⟨pos', out⟩ := r
            rw [hh] at hfin
            have hp' := huffmanBlock_pos _ hh
            refine ⟨⟨by omega, hp'.2⟩, _, ?_, hfin⟩
            exact ⟨sumsGood_atPos { st with bfinal := b == 1, btype := 2, litLen := ll, dist := d } pos' out, rfl, rfl, rfl,
                rfl, rfl⟩
  · rw [if_neg h2] at ht ⊢
    exact .one hi ht

/-- The blocks and the trailer (41_flate.md R196). -/
theorem reaches_blocks (hi : s.inputs = []) (fuel : Nat) : ∀ (st : InflateState), st.mode = .header → st.SumsGood →
    st.pos ≤ 8 * s.cur.length → 8 * s.cur.length - st.pos < fuel →
    Reaches (s.withWork (.inflate st)) (match inflateBlocks s.cur fuel st.pos st.out with
      | none => s.raiseStage .inflateError 0
      | some (pos, out) => if trailerValue s.cur pos = some (adler32 out)
          then s.withWork (.predict { x := out, predictor := st.predictor, columns := st.columns })
          else s.raiseStage .inflateError 0) := by
  induction fuel with
  | zero => intro st _ _ _ h; omega
  | succ fuel ih =>
    intro st hm hs hp hf
    rw [inflateBlocks]
    have ht := coreTurn_inflate_header (s := s.withWork (.inflate st)) rfl hm
    rw [inflateNext_ofWork, show (s.withWork (.inflate st)).cur = s.cur from rfl] at ht
    cases hb : getBits s.cur st.pos 1 with
    | none => rw [hb] at ht; exact .one hi ht
    | some b =>
      cases htype : getBits s.cur (st.pos + 1) 2 with
      | none => rw [hb, htype] at ht; exact .one hi ht
      | some t =>
        simp only
        have hblk := reaches_block hi st hm hs b t hb htype hp
        cases hib : inflateBlock s.cur t (st.pos + 3) st.out with
        | none => rw [hib] at hblk; exact hblk
        | some r =>
          obtain ⟨pos, out⟩ := r
          rw [hib] at hblk
          simp only at hblk ⊢
          obtain ⟨⟨h1, h2⟩, st', ⟨a1, a2, a3, a4, a5, a6⟩, hr⟩ := hblk
          by_cases hbf : b = 1
          · rw [if_pos hbf]
            have a4' : st'.mode = .trailer := by rw [a4]; simp [hbf]
            have ht2 := coreTurn_inflate_trailer (s := s.withWork (.inflate st')) rfl a4'
            rw [State.endInflate, InflateState.trailerOk] at ht2
            refine hr.trans (.one hi (ht2.trans ?_))
            have hA : st'.adlerB * 65536 + st'.adlerA = adler32 out := by
              rw [adler32, ← a3, ← a1.1]
            rw [show (s.withWork (.inflate st')).cur = s.cur from rfl, a2, hA, a3, a5, a6]
            simp only
            by_cases hv : trailerValue s.cur pos = some (adler32 out)
            · rw [if_pos hv, if_pos (by simp [hv])]; rfl
            · rw [if_neg hv, if_neg (by simp [hv])]; rfl
          · rw [if_neg hbf]
            have a4' : st'.mode = .header := by rw [a4]; simp [hbf]
            have := ih st' a4' a1 (by rw [a2]; exact h2) (by rw [a2]; omega)
            rw [a2, a3, a5, a6] at this
            exact hr.trans this

theorem inflate_cons (cmf flg : Byte) (rest : List Byte) : inflate (cmf :: flg :: rest) =
    if zlibHeaderOk cmf flg then
      match inflateBlocks (cmf :: flg :: rest) (8 * (cmf :: flg :: rest).length + 1) 16 [] with
      | none => none
      | some (pos, out) => if trailerValue (cmf :: flg :: rest) pos = some (adler32 out) then some out else none
    else none := rfl

/-- The Flate unit (41_flate.md R190). -/
theorem reaches_flate (hi : s.inputs = []) (p : Word) (c : Option Word) :
    Reaches (s.inflateNext (inflateStart s.cur p c)) (s.settleResult (flateDecode s.cur p c)) := by
  rw [flateDecode]
  match hcur : s.cur with
  | [] => exact .refl _
  | [_] => exact .refl _
  | cmf :: flg :: rest =>
    rw [inflate_cons]
    simp only [inflateStart]
    by_cases hok : zlibHeaderOk cmf flg = true
    · rw [if_pos hok, if_pos hok]
      have h2 : 16 ≤ 8 * s.cur.length := by rw [hcur]; simp; omega
      have hsum : InflateState.SumsGood
          { pos := 16, bfinal := false, btype := 0, litLen := [], dist := [], mode := .header, out := [],
            adlerA := 1, adlerB := 0, predictor := p, columns := c } :=
        ⟨rfl, (by decide : (1 : Nat) < 65521), (by decide : (0 : Nat) < 65521)⟩
      have := reaches_blocks hi (8 * s.cur.length + 1) _ rfl hsum h2 (show 8 * s.cur.length - 16 < _ by omega)
      simp only at this
      rw [hcur] at this
      cases hb : inflateBlocks (cmf :: flg :: rest) (8 * (cmf :: flg :: rest).length + 1) 16 [] with
      | none => rw [hb] at this; exact this
      | some r =>
        obtain ⟨pos, out⟩ := r
        rw [hb] at this
        simp only at this ⊢
        by_cases hv : trailerValue (cmf :: flg :: rest) pos = some (adler32 out)
        · rw [if_pos hv] at this ⊢
          exact this.trans (reaches_predict hi out p c)
        · rw [if_neg hv] at this ⊢
          exact this
    · rw [if_neg hok, if_neg hok]; exact .refl _

/-! ## Validation and RC4 -/

/-- Validation from descriptor `j` on (40_pipeline.md R151, R159). -/
theorem reaches_validate (hi : s.inputs = []) (hl : s.nstages.toNat ≤ s.stages.length) (n : Nat) : ∀ j, s.nstages.toNat = j + n →
    (match validateChain j ((s.stages.take s.nstages.toNat).drop j) with
    | some r => Reaches (s.withWork (.validate j)) (s.withWork (.finish r))
    | none => Reaches (s.withWork (.validate j)) s.beginStages ∧ ∀ i, j ≤ i → i < s.nstages.toNat → validateDesc (s.desc i) =
        none) := by
  induction n with
  | zero =>
    intro j hj
    have : (s.stages.take s.nstages.toNat).drop j = [] := by rw [List.drop_eq_nil_iff, List.length_take]; omega
    rw [this, validateChain]
    exact ⟨.one hi (coreTurn_validate_end rfl (show s.nstages.toNat ≤ j by omega)), by intro i h1 h2; omega⟩
  | succ n ih =>
    intro j hj
    have hd : (s.stages.take s.nstages.toNat).drop j = s.desc j :: (s.stages.take s.nstages.toNat).drop (j + 1) := by
      rw [List.drop_eq_getElem_cons (by rw [List.length_take]; omega)]
      congr 1
      rw [List.getElem_take, State.desc, List.getD_eq_getElem _ _ (by omega)]
    rw [hd, validateChain]
    have ht := coreTurn_validate (s := s.withWork (.validate j)) (j := j) rfl (show j < s.nstages.toNat by omega)
    have hds : (s.withWork (.validate j)).desc j = s.desc j := rfl
    rw [hds] at ht
    cases hv : validateDesc (s.desc j) with
    | some info => rw [hv] at ht; exact .one hi ht
    | none =>
      rw [hv] at ht
      simp only at ht ⊢
      have := ih (j + 1) (by omega)
      cases hc : validateChain (j + 1) ((s.stages.take s.nstages.toNat).drop (j + 1)) with
      | some r => rw [hc] at this; exact .step hi ht this
      | none =>
        rw [hc] at this
        refine ⟨.step hi ht this.1, ?_⟩
        intro i h1 h2
        rcases Nat.lt_or_ge j i with h | h
        · exact this.2 i h h2
        · have : i = j := by omega
          subst this; exact hv

/-- The keystream over the data that is left (45_rc4.md R362). -/
theorem reaches_rc4_prga (hi : s.inputs = []) (key : List Byte) (rest : List Byte) : ∀ (data perm : List Byte) (i j : BitVec 8)
    (n : Nat) (out : List Byte), 256 ≤ n →
    data.drop out.length = rest →
    Reaches (s.withWork (.rc4 { key := key, data := data, perm := perm, i := i, j := j, scheduled := n, out := out }))
      (s.withWork (.finish (if (out ++ rc4Prga perm i j rest).length > s.params.outCap then .err .capacityExceeded none 0
        else .ok (out ++ rc4Prga perm i j rest)))) := by
  induction rest with
  | nil =>
    intro data perm i j n out hn hd
    have ht := coreTurn_rc4 (s := s.withWork (.rc4
        { key := key, data := data, perm := perm, i := i, j := j, scheduled := n, out := out })) rfl
    have hnone : data[out.length]? = none := by rw [← List.head?_drop, hd]; rfl
    rw [State.rc4Turn, if_neg (by simp only; omega)] at ht
    simp only [hnone] at ht
    refine .one hi (ht.trans ?_)
    rw [rc4Prga, List.append_nil]
    split_ifs with h1 h2
    · rfl
    · exact absurd h1 h2
    · next h => exact absurd h h1
    · rfl
  | cons x xs ih =>
    intro data perm i j n out hn hd
    have ht := coreTurn_rc4 (s := s.withWork (.rc4
        { key := key, data := data, perm := perm, i := i, j := j, scheduled := n, out := out })) rfl
    have hsome : data[out.length]? = some x := by rw [← List.head?_drop, hd]; rfl
    rw [State.rc4Turn, if_neg (by simp only; omega)] at ht
    simp only [hsome] at ht
    refine .step hi ht ?_
    have := ih data (permSwap perm (i + 1) (j + permAt perm (i + 1))) (i + 1) (j + permAt perm (i + 1)) n
      (out ++ [x ^^^ permAt (permSwap perm (i + 1) (j + permAt perm (i + 1))) (permAt (permSwap perm (i + 1) (j + permAt perm
          (i + 1))) (i + 1) + permAt (permSwap perm (i + 1) (j + permAt perm (i + 1))) (j + permAt perm (i + 1)))]) hn (by
        rw [List.length_append]; simp [← List.tail_drop, hd])
    rw [rc4Prga]
    simp only [List.append_assoc, List.singleton_append] at this ⊢
    exact this

/-- The `n` swaps of the key schedule that are left (45_rc4.md R361). -/
theorem reaches_rc4_ksa (hi : s.inputs = []) (key data : List Byte) (n : Nat) : ∀ (m : Nat) (perm : List Byte) (j : BitVec 8),
    m + n = 256 →
    ∀ (i : BitVec 8) (jj : BitVec 8), (m < 256 → i = BitVec.ofNat 8 m ∧ jj = j) → (m = 256 → i = 0 ∧ jj = 0) →
    Reaches (s.withWork (.rc4 { key := key, data := data, perm := perm, i := i, j := jj, scheduled := m, out := [] }))
      (s.withWork (.rc4
        { key := key, data := data, perm := rc4Ksa key perm j (List.range' m n), i := 0, j := 0, scheduled := 256, out := [] })) := by
  induction n with
  | zero =>
    intro m perm j hm i jj _ h2
    have : m = 256 := by omega
    subst this
    obtain ⟨rfl, rfl⟩ := h2 rfl
    exact .refl _
  | succ n ih =>
    intro m perm j hm i jj h1 _
    obtain ⟨rfl, rfl⟩ := h1 (by omega)
    have ht := coreTurn_rc4 (s := s.withWork (.rc4
        { key := key, data := data, perm := perm, i := BitVec.ofNat 8 m, j := jj, scheduled := m, out := [] })) rfl
    rw [State.rc4Turn, if_pos (show m < 256 by omega), Rc4State.schedule] at ht
    simp only at ht
    rw [List.range'_succ, rc4Ksa]
    by_cases hlast : m + 1 < 256
    · rw [if_pos hlast] at ht
      refine .step hi ht (ih (m + 1) _ _ (by omega) _ _ (fun _ => ⟨?_, rfl⟩) (fun h => absurd h (by omega)))
      apply BitVec.eq_of_toNat_eq; simp
    · rw [if_neg hlast] at ht
      refine .step hi ht (ih (m + 1) _ _ (by omega) _ _ (fun h => absurd h hlast) (fun _ => ⟨rfl, rfl⟩))

end Sys2Proof.Machine
end

