-- ==== Sys2Proof/Machine/HostProgram.lean ====
section
/-! DEFINITION. The host-program notation (30_encoding.md R124) and its pseudo-instructions (R125), as the events a host program is. `base` is the platform address of the aperture. -/

namespace Sys2Proof.Machine.HostProgram

/-- `W32 off, v`. -/
def w32 (base off : Nat) (v : Word) : Event := .access (.write (base + off) .w4 v)

/-- `W16 off, v`. -/
def w16 (base off : Nat) (v : Word) : Event := .access (.write (base + off) .w2 v)

/-- `W8 off, v`. -/
def w8 (base off : Nat) (v : Byte) : Event := .access (.write (base + off) .w1 (v.setWidth 32))

/-- `R32 off`. -/
def r32 (base off : Nat) : Event := .access (.read (base + off) .w4)

/-- `R16 off`. -/
def r16 (base off : Nat) : Event := .access (.read (base + off) .w2)

/-- `R8 off`. -/
def r8 (base off : Nat) : Event := .access (.read (base + off) .w1)

/-- `W8 off+i, bi` for the bytes in order. -/
def w8s (base off : Nat) (bs : List Byte) : List Event := bs.mapIdx fun i b => w8 base (off + i) b

/-- `LOADIN b0 ... b(n-1)`. -/
def loadIn (base : Nat) (bs : List Byte) : List Event :=
  w8s base 0x100000 bs ++ [w32 base 0x02C (BitVec.ofNat 32 bs.length)]

/-- `LOADKEY k0 ... k(n-1)`. -/
def loadKey (base : Nat) (ks : List Byte) : List Event :=
  w8s base 0x001000 ks ++ [w32 base 0x034 (BitVec.ofNat 32 ks.length)]

/-- `STAGE k, KIND [, P=p] [, C=c] [, NAME] [, TYPE]`. -/
def stage (base k : Nat) (kind : BitVec 8) (p c : Option Word) (name type : Bool) : List Event :=
  [w32 base (0x100 + 16 * k) (kind.setWidth 32),
   w32 base (0x104 + 16 * k) (BitVec.ofNat 32 (p.isSome.toNat + 2 * c.isSome.toNat + 4 * name.toNat + 8 * type.toNat)),
   w32 base (0x108 + 16 * k) (p.getD 0),
   w32 base (0x10C + 16 * k) (c.getD 0)]

/-- The KIND code of a filter's name token (30_encoding.md R112, R113): 0xFF, "other name", for every name outside the closed set. -/
def kindOfName (name : String) : BitVec 8 :=
  if name = "FlateDecode" then 0x01
  else if name = "ASCIIHexDecode" then 0x02
  else if name = "LZWDecode" then 0x03
  else if name = "ASCII85Decode" then 0x04
  else if name = "Crypt" then 0x05
  else 0xFF

/-- A parameter's integer as the core can hold it, in 32 bits signed; `none` where "the host must not pass it to the core"
(10_state.md R45; 70_reset_and_hazards.md R426). -/
def paramWord (v : Int) : Option Word := if -(2 ^ 31) ≤ v ∧ v < 2 ^ 31 then some (BitVec.ofInt 32 v) else none

/-- `CHAIN n`. -/
def chain (base : Nat) (n : Word) : Event := w32 base 0x038 n

/-- `WAIT`, as the polls of one run: "repeat `R32 0x024` until bit 0 of the value read is 0". How many polls there are, and
how many turns the Core takes before each, is the run's choice (20_memory.md R96). -/
def wait (base : Nat) : (turnsBefore : List Nat) → List Event
  | [] => []
  | n :: ns => List.replicate n .core ++ r32 base 0x024 :: wait base ns

/-- `RUN op`: the CMD write, then `WAIT`. -/
def run (base : Nat) (op : Word) (turnsBefore : List Nat) : List Event := w32 base 0x028 op :: wait base turnsBefore

/-- `ACK`. -/
def ack (base : Nat) : Event := w32 base 0x024 0x00000002

/-- `READOUT` of a run in which the read of OUT_LEN gives `n`. -/
def readOut (base n : Nat) : List Event := r32 base 0x030 :: (List.range n).map fun i => r8 base (0x200000 + i)

end Sys2Proof.Machine.HostProgram
end

