-- ==== Sys2Proof/Tests/Slice0.lean ====
section
/-! SUPPORT. Tests: ill-formed instructions are refused; words written out from the spec's tables decode to what they stand for; one turn per instruction, with the results of 95_test_vectors.md or worked out by hand from the rules; and for every statement with hypotheses a witness that meets them. -/

namespace Sys2Proof.Tests

open Sys2Proof Sys2Proof.Machine Sys2Proof.Machine.HostProgram

/-! ## Well-formedness: one ill-formed term for each check -/

theorem test_wf_illegalCommand : (Instr.illegalCommand 2).wf = false := by decide

theorem test_wf_cryptNamed : (Instr.cryptNamed false false).wf = false := by decide

theorem test_wf_kindUnknown : (Instr.kindUnknown 5).wf = false := by decide

theorem test_wf_predUnsupported : (Instr.predUnsupported 1).wf = false ∧ (Instr.predUnsupported 15).wf = false := by decide

theorem test_wf_pngUnsupported : (Instr.pngUnsupported 2).wf = false := by decide

theorem test_wf_lzwDict : (Instr.lzwDict 257).wf = false := by decide

theorem test_wf_lzwSelf : (Instr.lzwSelf 257).wf = false := by decide

theorem test_wf_lzwInvalid : (Instr.lzwInvalid 256).wf = false := by decide

theorem test_wf_a85Digit : (Instr.a85Digit 0x76).wf = false := by decide

theorem test_wf_a85Ws : (Instr.a85Ws 0x08).wf = false := by decide

theorem test_wf_a85Invalid : (Instr.a85Invalid 0x20).wf = false ∧ (Instr.a85Invalid 0x21).wf = false := by decide

theorem test_wf_ahxDigit : (Instr.ahxDigit 0x47).wf = false := by decide

theorem test_wf_ahxWs : (Instr.ahxWs 0x0E).wf = false := by decide

theorem test_wf_ahxInvalid :
    (Instr.ahxInvalid 0x66).wf = false ∧ (Instr.ahxInvalid 0x0D).wf = false ∧ (Instr.ahxInvalid 0x3E).wf = false := by decide

theorem test_wf_defLength : (Instr.defLength 256).wf = false ∧ (Instr.defLength 286).wf = false := by decide

theorem test_wf_defLenInvalid : (Instr.defLenInvalid 285).wf = false := by decide

theorem test_wf_defDist : (Instr.defDist 30).wf = false := by decide

theorem test_wf_defDistInvalid : (Instr.defDistInvalid 29).wf = false := by decide

theorem test_wf_defClLiteral : (Instr.defClLiteral 16).wf = false := by decide

/-- A format does not spell an instruction of another one, nor one that its context shuts out. -/
theorem test_spells : ¬Format.spells .pred .decode ∧ ¬Format.spells (.lzwCode 9 258 true) (.lzwSelf 258) ∧
    ¬Format.spells (.a85Char false false) .a85Begin := by
  refine ⟨by simp [Format.spells], by simp [Format.spells, Format.lzwWith], by simp [Format.spells, Format.a85With]⟩

/-! ## Decoding: words written out bit by bit from the encodings of 30_encoding.md -/

/-- Bits written as digits, in the order the unit reads them. -/
def bits (l : List Nat) : List Bool := l.map (· == 1)

/-- A 32-bit word, bit 0 first: its low eight bits, and zeros above. -/
def low8 (l : List Nat) : List Bool := bits (l ++ List.replicate 24 0)

/-- A 32-bit word of zeros. -/
def zeroWord : List Bool := List.replicate 32 false

/-- A decoder's answer is this instruction, of this many bits. -/
def answers (d : Decoded) (i : Instr) (n : Nat) : Bool :=
  match d with
  | .ok (j, m) => j == i && m == n
  | .error _ => false

theorem test_decode_cmd :
    answers (decode .cmd (low8 [1, 0, 0, 0, 0, 0, 0, 0])) .decode 32 ∧
    answers (decode .cmd (low8 [0, 1, 0, 0, 0, 0, 0, 0])) .flateEncode 32 ∧
    answers (decode .cmd (low8 [1, 1, 0, 0, 0, 0, 0, 0])) .rc4 32 ∧
    answers (decode .cmd (low8 [0, 0, 1, 0, 0, 0, 0, 0])) (.illegalCommand 4) 32 ∧
    answers (decode .cmd (bits (List.replicate 31 0 ++ [1]))) (.illegalCommand 0x80000000) 32 := by decide

theorem test_decode_stage_kinds :
    answers (decode .stage (low8 [1, 0, 0, 0, 0, 0, 0, 0] ++ zeroWord ++ zeroWord ++ zeroWord)) (.flate none none) 128 ∧
    answers (decode .stage (low8 [0, 1, 0, 0, 0, 0, 0, 0] ++ zeroWord ++ zeroWord ++ zeroWord)) .ahx 128 ∧
    answers (decode .stage (low8 [1, 1, 0, 0, 0, 0, 0, 0] ++ zeroWord ++ zeroWord ++ zeroWord)) .lzw 128 ∧
    answers (decode .stage (low8 [0, 0, 1, 0, 0, 0, 0, 0] ++ zeroWord ++ zeroWord ++ zeroWord)) .a85 128 ∧
    answers (decode .stage (low8 [1, 0, 1, 0, 0, 0, 0, 0] ++ zeroWord ++ zeroWord ++ zeroWord)) .crypt 128 := by decide +kernel

theorem test_decode_stage_others :
    answers (decode .stage (low8 [1, 0, 1, 0, 0, 0, 0, 0] ++ low8 [0, 0, 0, 1, 0, 0, 0, 0] ++ zeroWord ++ zeroWord))
      (.cryptNamed false true) 128 ∧
    answers (decode .stage (low8 [0, 1, 1, 0, 0, 0, 0, 0] ++ zeroWord ++ zeroWord ++ zeroWord)) (.kindUnknown 6) 128 ∧
    answers (decode .stage (zeroWord ++ zeroWord ++ zeroWord ++ zeroWord)) (.kindUnknown 0) 128 ∧
    answers (decode .stage (low8 [1, 0, 0, 0, 0, 0, 0, 0] ++ low8 [0, 1, 0, 0, 0, 0, 0, 0] ++ low8 [0, 0, 1, 1, 0, 0, 0, 0] ++
      low8 [0, 0, 0, 0, 0, 0, 0, 1])) (.flate none (some 128)) 128 := by decide +kernel

theorem test_decode_pred :
    answers (decode .pred (low8 [1, 0, 0, 0, 0, 0, 0, 0])) .predNone 32 ∧
    answers (decode .pred (low8 [0, 1, 0, 1, 0, 0, 0, 0])) .predPng10 32 ∧
    answers (decode .pred (low8 [1, 1, 0, 1, 0, 0, 0, 0])) .predPng11 32 ∧
    answers (decode .pred (low8 [0, 0, 1, 1, 0, 0, 0, 0])) .predPng12 32 ∧
    answers (decode .pred (low8 [1, 0, 1, 1, 0, 0, 0, 0])) .predPng13 32 ∧
    answers (decode .pred (low8 [0, 1, 1, 1, 0, 0, 0, 0])) .predPng14 32 ∧
    answers (decode .pred (low8 [1, 1, 1, 1, 0, 0, 0, 0])) .predPng15 32 ∧
    answers (decode .pred (low8 [0, 0, 0, 0, 1, 0, 0, 0])) (.predUnsupported 16) 32 ∧
    answers (decode .pred (bits (List.replicate 32 1))) (.predUnsupported 0xFFFFFFFF) 32 := by decide

theorem test_decode_pngRow :
    answers (decode .pngRow (bits [0, 0, 0, 0, 0, 0, 0, 0])) .pngNone 8 ∧
    answers (decode .pngRow (bits [1, 0, 0, 0, 0, 0, 0, 0])) .pngSub 8 ∧
    answers (decode .pngRow (bits [0, 1, 0, 0, 0, 0, 0, 0])) .pngUp 8 ∧
    answers (decode .pngRow (bits [1, 1, 0, 0, 0, 0, 0, 0])) (.pngUnsupported 3) 8 ∧
    answers (decode .pngRow (bits [0, 0, 1, 0, 0, 0, 0, 0])) (.pngUnsupported 4) 8 := by decide

/-- 42_lzw.md R262: "most significant bit first". -/
theorem test_decode_lzwCode :
    answers (decode (.lzwCode 9 258 true) (bits [0, 0, 1, 0, 0, 0, 0, 0, 1])) (.lzwLiteral 0x41) 9 ∧
    answers (decode (.lzwCode 9 258 false) (bits [1, 0, 0, 0, 0, 0, 0, 0, 0])) .lzwClear 9 ∧
    answers (decode (.lzwCode 9 258 false) (bits [1, 0, 0, 0, 0, 0, 0, 0, 1])) .lzwStop 9 ∧
    answers (decode (.lzwCode 9 259 false) (bits [1, 0, 0, 0, 0, 0, 0, 1, 0])) (.lzwDict 258) 9 ∧
    answers (decode (.lzwCode 9 258 false) (bits [1, 0, 0, 0, 0, 0, 0, 1, 0])) (.lzwSelf 258) 9 ∧
    answers (decode (.lzwCode 9 258 true) (bits [1, 0, 0, 0, 0, 0, 0, 1, 0])) (.lzwInvalid 258) 9 ∧
    answers (decode (.lzwCode 10 512 false) (bits [1, 0, 0, 0, 0, 0, 0, 0, 1, 1])) (.lzwInvalid 515) 10 := by decide

theorem test_decode_a85Char :
    answers (decode (.a85Char true false) (bits [0, 0, 1, 1, 1, 1, 0, 0] ++ bits [0, 1, 1, 1, 1, 1, 1, 0])) .a85Begin 16 ∧
    answers (decode (.a85Char false false) (bits [0, 0, 1, 1, 1, 1, 0, 0] ++ bits [0, 1, 1, 1, 1, 1, 1, 0])) (.a85Digit 0x3C) 8 ∧
    answers (decode (.a85Char true false) (bits [1, 0, 1, 0, 1, 1, 1, 0])) (.a85Digit 0x75) 8 ∧
    answers (decode (.a85Char false false) (bits [0, 1, 0, 1, 1, 1, 1, 0])) .a85Z 8 ∧
    answers (decode (.a85Char false true) (bits [0, 1, 0, 1, 1, 1, 1, 0])) (.a85Invalid 0x7A) 8 ∧
    answers (decode (.a85Char false true) (bits [0, 1, 1, 1, 1, 1, 1, 0] ++ bits [0, 1, 1, 1, 1, 1, 0, 0])) .a85End 16 ∧
    answers (decode (.a85Char false true) []) .a85End 0 ∧
    answers (decode (.a85Char false true) (bits [1, 0, 0, 1, 0, 0, 0, 0])) (.a85Ws 9) 8 ∧
    answers (decode (.a85Char false true) (bits [0, 1, 1, 1, 1, 1, 1, 0])) (.a85Invalid 0x7E) 8 := by decide

theorem test_decode_ahxChar :
    answers (decode .ahxChar (bits [1, 0, 0, 1, 1, 1, 0, 0])) (.ahxDigit 0x39) 8 ∧
    answers (decode .ahxChar (bits [0, 1, 1, 0, 0, 1, 1, 0])) (.ahxDigit 0x66) 8 ∧
    answers (decode .ahxChar (bits [0, 0, 0, 0, 0, 1, 0, 0])) (.ahxWs 0x20) 8 ∧
    answers (decode .ahxChar (bits [0, 1, 1, 1, 1, 1, 0, 0])) .ahxEnd 8 ∧
    answers (decode .ahxChar []) .ahxEnd 0 ∧
    answers (decode .ahxChar (bits [1, 1, 1, 0, 0, 0, 1, 0])) (.ahxInvalid 0x47) 8 := by decide

/-- 41_flate.md R199: BFINAL, then BTYPE least significant bit first. -/
theorem test_decode_zlibBlock :
    answers (decode .zlibBlock (bits [0, 0, 0])) (.zlibStored false) 3 ∧
    answers (decode .zlibBlock (bits [1, 1, 0])) (.zlibFixed true) 3 ∧
    answers (decode .zlibBlock (bits [0, 0, 1])) (.zlibDynamic false) 3 ∧
    answers (decode .zlibBlock (bits [1, 1, 1])) (.zlibReserved true) 3 := by decide

/-- In the fixed codes of 41_flate.md R201: code 0x30 of 8 bits is symbol 0, 0x1FF of 9 bits is symbol 255, 0 of 7 bits is
symbol 256, 0x01 of 7 bits is symbol 257, and 0xC6, 0xC7 of 8 bits are symbols 286, 287. -/
theorem test_decode_litLen :
    answers (decode (.litLen fixedLitLen) (bits [0, 0, 1, 1, 0, 0, 0, 0])) (.defLiteral 0) 8 ∧
    answers (decode (.litLen fixedLitLen) (bits [1, 1, 1, 1, 1, 1, 1, 1, 1])) (.defLiteral 255) 9 ∧
    answers (decode (.litLen fixedLitLen) (bits [0, 0, 0, 0, 0, 0, 0])) .defEob 7 ∧
    answers (decode (.litLen fixedLitLen) (bits [0, 0, 0, 0, 0, 0, 1])) (.defLength 257) 7 ∧
    answers (decode (.litLen fixedLitLen) (bits [1, 1, 0, 0, 0, 1, 1, 0])) (.defLenInvalid 286) 8 := by decide +kernel

theorem test_decode_dist :
    answers (decode (.dist fixedDist) (bits [1, 1, 1, 0, 1])) (.defDist 29) 5 ∧
    answers (decode (.dist fixedDist) (bits [1, 1, 1, 1, 0])) (.defDistInvalid 30) 5 := by decide

/-- The code of the lengths 2, 2, 2, 2 for the symbols 15, 16, 17, 18: 00, 01, 10, 11 (41_flate.md R203). -/
theorem test_decode_codeLen :
    answers (decode (.codeLen (canonicalCode (List.replicate 15 0 ++ [2, 2, 2, 2]))) (bits [0, 0])) (.defClLiteral 15) 2 ∧
    answers (decode (.codeLen (canonicalCode (List.replicate 15 0 ++ [2, 2, 2, 2]))) (bits [0, 1])) .defClRepeat 2 ∧
    answers (decode (.codeLen (canonicalCode (List.replicate 15 0 ++ [2, 2, 2, 2]))) (bits [1, 0])) .defClZero3 2 ∧
    answers (decode (.codeLen (canonicalCode (List.replicate 15 0 ++ [2, 2, 2, 2]))) (bits [1, 1])) .defClZero11 2 := by decide

/-- A stream that ends inside a code is refused by name (42_lzw.md R263; 41_flate.md R214). -/
theorem test_decode_truncated :
    (match decode (.lzwCode 9 258 true) (bits [1, 0, 0, 0, 0, 0, 0, 0]) with | .error .truncated => true | _ => false) = true ∧
    (match decode (.litLen fixedLitLen) (bits [0, 0, 0]) with | .error .truncated => true | _ => false) = true := by decide

/-- The probe of the opcode table (log 7). -/
theorem test_tableWord :
    decodeTableWord 32 3 = some .rc4 ∧ decodeTableWord 32 13 = some .predPng13 ∧ decodeTableWord 8 4 = some .a85 ∧
    decodeTableWord 8 0x3E = some .ahxEnd ∧ decodeTableWord 16 0x7E3C = some .a85Begin := by decide +kernel

/-! ## One turn per instruction -/

/-- A chain of one Flate stage runs on the input `cur`, and its unit has come to `w`. -/
def running (cur : List Byte) (w : Work) : State :=
  { State.reset with
    busy := true, phase := .run, nstages := 1, cur := cur, work := w
    stages := { Desc.zero with kind := 1 } :: List.replicate 7 Desc.zero }

/-- A command word waits for its dispatch. -/
def commanded (op : Word) : State := { State.reset with busy := true, phase := .run, op := op, work := .command }

/-- The working state after a turn. -/
def workAfter (o : Host.Outcome State Fault Refusal) : Option Work :=
  match o with
  | .next t => some t.work
  | .fault _ | .refused _ => none

/-- The stage's result: the data handed on, with the next stage's index. -/
def handedOn (o : Host.Outcome State Fault Refusal) : Option (List Byte × Nat) :=
  match o with
  | .next t => if t.work = .stage then some (t.cur, t.k) else none
  | .fault _ | .refused _ => none

/-- V-CMD-8 and V-CMD-10. -/
theorem test_decode : workAfter (coreTurn (commanded 1)) = some (.validate 0) ∧
    workAfter (coreTurn { commanded 1 with inLen := 65537 }) = some (.finish (.err .invalidParam none 1)) ∧
    workAfter (coreTurn { commanded 1 with nstages := 9 }) = some (.finish (.err .invalidParam none 2)) := by decide

/-- The check of IN_LEN comes first (40_pipeline.md R160). -/
theorem test_flateEncode : workAfter (coreTurn { commanded 2 with inLen := 65537 }) =
    some (.finish (.err .invalidParam none 1)) := by decide

/-- V-CMD-9. -/
theorem test_rc4 : workAfter (coreTurn (commanded 3)) = some (.finish (.err .invalidParam none 3)) ∧
    workAfter (coreTurn { commanded 3 with inLen := 65537 }) = some (.finish (.err .invalidParam none 1)) := by decide

/-- The first step of the key schedule with the key 03: j = 0 + S[0] + 3, and S[0], S[3] change places (45_rc4.md R361). -/
theorem test_rc4_schedule :
    (rc4Start [3] []).schedule.j = 3 ∧ (rc4Start [3] []).schedule.perm.take 4 = [3, 1, 2, 0] := by decide

/-- V-CMD-16. -/
theorem test_illegalCommand : workAfter (coreTurn (commanded 0x101)) = some (.finish (.err .illegalCommand none 0x101)) := by decide

/-- The dispatch of a Flate stage (41_flate.md R196); V-INF-11. -/
theorem test_flate :
    workAfter (coreTurn (running [0x78, 0x01] .stage)) = some (.inflate
      { pos := 16, bfinal := false, btype := 0, litLen := [], dist := [], mode := .header, out := [], adlerA := 1, adlerB := 0,
        predictor := 1, columns := none }) ∧
    workAfter (coreTurn (running [0x78, 0x02] .stage)) = some (.finish (.err .inflateError (some 0) 0)) := by decide +kernel

theorem test_ahx : workAfter (exec .ahx (running [] .stage)) = some (.ahx { i := 0, pend := none, out := [] }) := by decide

theorem test_a85 : workAfter (exec .a85 (running [0x21] .stage)) = some (.a85 { t := [0x21], i := 0, group := [], out := [] }) := by decide

theorem test_lzw : workAfter (exec .lzw (running [] (.validate 3))) = some (.validate 4) ∧
    (match workAfter (exec .lzw (running [] .stage)) with | some (.lzw st) => st.dl == 258 && st.w == 9 && st.entry 255 == [255] | _ => false) =
      true := by decide

/-- V-CMD-3. -/
theorem test_crypt : handedOn (exec .crypt (running [1, 2] .stage)) = some ([1, 2], 1) := by decide

/-- V-CMD-4 and V-CMD-5. -/
theorem test_cryptNamed :
    workAfter (exec (.cryptNamed true false) (running [] (.validate 0))) = some (.finish (.err .unsupportedFilter (some 0) 0x105)) ∧
    workAfter (exec (.cryptNamed true true) (running [] (.validate 0))) = some (.finish (.err .unsupportedFilter (some 0) 0x305)) := by decide

/-- V-CMD-7: descriptor 1 has kind 9. -/
theorem test_kindUnknown : workAfter (coreTurn { running [] (.validate 1) with
    nstages := 2, stages := [{ Desc.zero with kind := 2 }, { Desc.zero with kind := 9 }] }) =
      some (.finish (.err .unsupportedFilter (some 1) 9)) := by decide +kernel

/-- V-PNG-15. -/
theorem test_predNone : handedOn (coreTurn (running [] (.predict { x := [0, 1, 2], predictor := 1, columns := none }))) =
    some ([0, 1, 2], 1) := by decide

/-- V-PNG-13, V-PNG-14, V-PNG-10. -/
theorem test_predPng_refused :
    workAfter (exec .predPng10 (running [] (.predict { x := [0, 1, 2], predictor := 10, columns := none }))) =
      some (.finish (.err .invalidParam (some 0) 4)) ∧
    workAfter (exec .predPng11 (running [] (.predict { x := [0, 1, 2], predictor := 11, columns := some 0 }))) =
      some (.finish (.err .invalidParam (some 0) 5)) ∧
    workAfter (exec .predPng12 (running [] (.predict { x := [0, 1, 2, 3], predictor := 12, columns := some 2 }))) =
      some (.finish (.err .predictorRowLength (some 0) 0)) := by decide

theorem test_predPng :
    workAfter (exec .predPng13 (running [] (.predict { x := [0, 1, 2], predictor := 13, columns := some 2 }))) =
      some (.png { x := [0, 1, 2], cols := 2, r := 0, prev := [0, 0], out := [] }) ∧
    workAfter (exec .predPng14 (running [] (.predict { x := [], predictor := 14, columns := some 1 }))) =
      some (.png { x := [], cols := 1, r := 0, prev := [0], out := [] }) ∧
    workAfter (exec .predPng15 (running [] (.predict { x := [], predictor := 15, columns := some 0x80000000 }))) =
      some (.finish (.err .invalidParam (some 0) 5)) := by decide

/-- V-PNG-12. -/
theorem test_predUnsupported :
    workAfter (coreTurn (running [] (.predict { x := [], predictor := 0xFFFFFFFF, columns := some 2 }))) =
      some (.finish (.err .unsupportedPredictor (some 0) 0xFFFFFFFF)) := by decide

/-- The first row of V-PNG-5. -/
theorem test_pngNone : workAfter (coreTurn (running [] (.png { x := [0, 9, 8, 1, 7, 7], cols := 2, r := 0, prev := [0, 0], out := [] }))) =
    some (.png { x := [0, 9, 8, 1, 7, 7], cols := 2, r := 1, prev := [9, 8], out := [9, 8] }) := by decide

/-- V-PNG-3: sums modulo 256. -/
theorem test_pngSub : workAfter (coreTurn (running [] (.png { x := [1, 0xC8, 0x64, 0, 0], cols := 4, r := 0, prev := [0, 0, 0, 0], out := [] }))) =
    some (.png { x := [1, 0xC8, 0x64, 0, 0], cols := 4, r := 1, prev := [0xC8, 0x2C, 0x2C, 0x2C], out := [0xC8, 0x2C, 0x2C, 0x2C] }) := by decide

/-- The second row of V-PNG-4. -/
theorem test_pngUp : workAfter (coreTurn (running [] (.png { x := [2, 1, 2, 3, 2, 1, 2, 3], cols := 3, r := 1, prev := [1, 2, 3], out := [1, 2, 3] }))) =
    some (.png { x := [2, 1, 2, 3, 2, 1, 2, 3], cols := 3, r := 2, prev := [2, 4, 6], out := [1, 2, 3, 2, 4, 6] }) := by decide

/-- V-PNG-9: the second row. -/
theorem test_pngUnsupported :
    workAfter (coreTurn (running [] (.png { x := [0, 1, 2, 5, 9, 9], cols := 2, r := 1, prev := [1, 2], out := [1, 2] }))) =
      some (.finish (.err .unsupportedPngFilter (some 0) 5)) := by decide

/-- An LZW unit with the seeded dictionary and one more entry, "AB", as it stands after CLEAR, `A`, `B`. -/
def lzwAfterAB : LzwState := { dict := lzwSeed ++ [[0x41, 0x42]], dl := 259, w := 9, previous := some 0x42, pos := 27, out := [0x41, 0x42] }

/-- What a turn of the LZW unit leaves, but for the seeded entries. -/
def lzwAfter (o : Host.Outcome State Fault Refusal) : Option (List (List Byte) × Nat × Nat × Option (BitVec 12) × List Byte) :=
  match o with
  | .next t =>
    match t.work with
    | .lzw st => some (st.dict.drop 258, st.dl, st.w, st.previous, st.out)
    | _ => none
  | .fault _ | .refused _ => none

/-- W3: the literal after CLEAR. -/
theorem test_lzwLiteral_first : lzwAfter (exec (.lzwLiteral 0x41) (running [] (.lzw lzwStart))) =
    some ([], 258, 9, some 0x41, [0x41]) := by decide +kernel

/-- 42_lzw.md R267: a literal after another code. -/
theorem test_lzwLiteral_next : lzwAfter (exec (.lzwLiteral 0x43) (running [] (.lzw lzwAfterAB))) =
    some ([[0x41, 0x42], [0x42, 0x43]], 260, 9, some 0x43, [0x41, 0x42, 0x43]) := by decide +kernel

/-- 42_lzw.md R265: no entry is erased. -/
theorem test_lzwClear : lzwAfter (exec .lzwClear (running [] (.lzw lzwAfterAB))) = some ([[0x41, 0x42]], 258, 9, none, [0x41, 0x42]) := by decide

theorem test_lzwStop : handedOn (exec .lzwStop (running [] (.lzw lzwAfterAB))) = some ([0x41, 0x42], 1) := by decide

theorem test_lzwDict : lzwAfter (exec (.lzwDict 258) (running [] (.lzw lzwAfterAB))) =
    some ([[0x41, 0x42], [0x42, 0x41]], 260, 9, some 258, [0x41, 0x42, 0x41, 0x42]) := by decide +kernel

/-- 42_lzw.md R269: the code width grows when `dict_length` reaches 511; at 4096 the dictionary is full. -/
theorem test_lzwDict_width :
    ((lzwAfter (exec (.lzwDict 258) (running [] (.lzw { lzwAfterAB with dl := 510, dict := lzwAfterAB.dict ++ List.replicate 251 [7] })))).map
      fun r => (r.2.1, r.2.2.1)) = some (511, 10) ∧
    workAfter (exec (.lzwDict 258) (running [] (.lzw { lzwAfterAB with dl := 4096, w := 12 }))) =
      some (.finish (.err .lzwDictFull (some 0) 0)) := by decide

theorem test_lzwSelf : lzwAfter (exec (.lzwSelf 259) (running [] (.lzw lzwAfterAB))) =
    some ([[0x41, 0x42], [0x42, 0x42]], 260, 9, some 259, [0x41, 0x42, 0x42, 0x42]) := by decide +kernel

/-- A code above `dict_length`, read from the stream: 260 as 100000100 after 27 bits. -/
theorem test_lzwInvalid : workAfter (coreTurn (running [0, 0, 0, 0b00010000, 0b01000000] (.lzw lzwAfterAB))) =
    some (.finish (.err .invalidLzwCode (some 0) 260)) := by decide

theorem test_a85Begin : workAfter (coreTurn (running [] (.a85 { t := [0x3C, 0x7E, 0x21], i := 0, group := [], out := [] }))) =
    some (.a85 { t := [0x3C, 0x7E, 0x21], i := 2, group := [], out := [] }) := by decide

/-- The fifth digit of `9jqo^`, which is "Man " (43_ascii85.md R306: 24, 73, 80, 78, 61); and the sum 2^32 - 1 of `s8W-!`. -/
theorem test_a85Digit :
    workAfter (coreTurn (running [] (.a85 { t := [0x5E], i := 0, group := [24, 73, 80, 78], out := [] }))) =
      some (.a85 { t := [0x5E], i := 1, group := [], out := [0x4D, 0x61, 0x6E, 0x20] }) ∧
    workAfter (coreTurn (running [] (.a85 { t := [0x21], i := 0, group := [82, 23, 54, 12], out := [] }))) =
      some (.finish (.err .invalidA85Group (some 0) 0)) := by decide

/-- W5b. -/
theorem test_a85Z : workAfter (coreTurn (running [] (.a85 { t := [0x7A], i := 0, group := [], out := [] }))) =
    some (.a85 { t := [0x7A], i := 1, group := [], out := [0, 0, 0, 0] }) := by decide

/-- W5c; and two digits, `5s`, padded with `u`: 20 and 82 give the one byte 0x41. -/
theorem test_a85End :
    workAfter (coreTurn (running [] (.a85 { t := [0x21, 0x7E, 0x3E], i := 1, group := [0], out := [] }))) =
      some (.finish (.err .invalidA85Group (some 0) 0)) ∧
    handedOn (coreTurn (running [] (.a85 { t := [0x35, 0x73], i := 2, group := [20, 82], out := [] }))) = some ([0x41], 1) := by decide

/-- Whitespace is gone before the begin mark is looked for (43_ascii85.md R303). -/
theorem test_a85Ws : workAfter (coreTurn (running [] (.a85 { t := [0x3C, 0x20, 0x7E], i := 0, group := [], out := [] }))) =
    some (.a85 { t := [0x3C, 0x7E], i := 0, group := [], out := [] }) := by decide

theorem test_a85Invalid : workAfter (coreTurn (running [] (.a85 { t := [0x21, 0x7A], i := 1, group := [0], out := [] }))) =
    some (.finish (.err .invalidA85Char (some 0) 0x7A)) := by decide

theorem test_ahxDigit :
    workAfter (coreTurn (running [0x61] (.ahx { i := 0, pend := none, out := [] }))) = some (.ahx { i := 1, pend := some 10, out := [] }) ∧
    workAfter (coreTurn (running [0x61, 0x46] (.ahx { i := 1, pend := some 10, out := [] }))) =
      some (.ahx { i := 2, pend := none, out := [0xAF] }) := by decide

theorem test_ahxWs : workAfter (coreTurn (running [0x20] (.ahx { i := 0, pend := some 1, out := [] }))) =
    some (.ahx { i := 1, pend := some 1, out := [] }) := by decide

/-- W6b; and the end of the input. -/
theorem test_ahxEnd :
    workAfter (coreTurn (running [0x3E] (.ahx { i := 0, pend := some 6, out := [0x48] }))) =
      some (.finish (.err .invalidHexDigitCount (some 0) 0)) ∧
    handedOn (coreTurn (running [] (.ahx { i := 0, pend := none, out := [0x48] }))) = some ([0x48], 1) := by decide

theorem test_ahxInvalid : workAfter (coreTurn (running [0x47] (.ahx { i := 0, pend := none, out := [] }))) =
    some (.finish (.err .invalidHexChar (some 0) 0x47)) := by decide

/-- An inflate unit at bit `pos`. -/
def inflating (pos : Nat) (mode : InflateMode) (out : List Byte) (a b : Nat) : InflateState :=
  { pos := pos, bfinal := true, btype := 1, litLen := fixedLitLen, dist := fixedDist, mode := mode, out := out, adlerA := a, adlerB := b,
    predictor := 1, columns := none }

/-- The cursor, the mode, the output and the Adler-32 sums after a turn. -/
def inflatedTo (o : Host.Outcome State Fault Refusal) : Option (Nat × InflateMode × List Byte × Nat × Nat) :=
  match o with
  | .next t =>
    match t.work with
    | .inflate st => some (st.pos, st.mode, st.out, st.adlerA, st.adlerB)
    | _ => none
  | .fault _ | .refused _ => none

/-- The first block of V-INF-8, `00 01 00 FE FF 58`; V-INF-17. -/
theorem test_zlibStored :
    inflatedTo (coreTurn (running [0x78, 0x01, 0x00, 0x01, 0x00, 0xFE, 0xFF, 0x58] (.inflate (inflating 16 .header [] 1 0)))) =
      some (64, .header, [0x58], 0x59, 0x59) ∧
    workAfter (coreTurn (running [0x78, 0x01, 0x01, 0x00, 0x00, 0x00, 0x00] (.inflate (inflating 16 .header [] 1 0)))) =
      some (.finish (.err .inflateError (some 0) 0)) := by decide

/-- V-INF-1. -/
theorem test_zlibFixed : inflatedTo (coreTurn (running [0x78, 0x9C, 0x73] (.inflate (inflating 16 .header [] 1 0)))) =
    some (19, .symbols, [], 1, 0) := by decide

/-- The header of V-INF-10, `0D C7 31 01 00 00 0C 83 30`: HLIT 257 + 1, HDIST 1 + 7, HCLEN 4 + 14. -/
theorem test_zlibDynamic :
    (match workAfter (coreTurn (running [0x78, 0xDA, 0x0D, 0xC7, 0x31, 0x01, 0x00, 0x00, 0x0C, 0x83, 0x30] (.inflate (inflating 16 .header [] 1 0)))) with
      | some (.inflate st) => st.pos == 16 + 17 + 3 * 18 && (match st.mode with | .codeLens _ hlit hdist lens => hlit == 258 && hdist == 8 && lens == [] | _ => false)
      | _ => false) = true := by decide

/-- V-INF-18. -/
theorem test_zlibReserved : workAfter (coreTurn (running [0x78, 0x01, 0x07] (.inflate (inflating 16 .header [] 1 0)))) =
    some (.finish (.err .inflateError (some 0) 0)) := by decide

/-- V-INF-1: the literal 0x41, and its Adler-32 sums. -/
theorem test_defLiteral :
    inflatedTo (coreTurn (running [0x78, 0x9C, 0x73, 0x04, 0x00] (.inflate (inflating 19 .symbols [] 1 0)))) =
      some (27, .symbols, [0x41], 0x42, 0x42) := by decide +kernel

theorem test_defEob :
    inflatedTo (coreTurn (running [0x78, 0x9C, 0x73, 0x04, 0x00] (.inflate (inflating 27 .symbols [0x41] 0x42 0x42)))) =
      some (34, .trailer, [0x41], 0x42, 0x42) := by decide +kernel

/-- Symbol 265 with the extra bit 1 has the length 12; symbol 285 has no extra bits. -/
theorem test_defLength :
    inflatedTo (exec (.defLength 265) (running [1] (.inflate (inflating 0 .symbols [] 1 0)))) = some (1, .distance 12, [], 1, 0) ∧
    inflatedTo (exec (.defLength 285) (running [] (.inflate (inflating 0 .symbols [] 1 0)))) = some (0, .distance 258, [], 1, 0) := by decide

theorem test_defLenInvalid : workAfter (exec (.defLenInvalid 287) (running [] (.inflate (inflating 0 .symbols [] 1 0)))) =
    some (.finish (.err .inflateError (some 0) 0)) := by decide

/-- An overlapping copy (41_flate.md R210): distance 2 over `AB`, five bytes; and a distance beyond the output (V-INF-19). -/
theorem test_defDist :
    ((inflatedTo (exec (.defDist 1) (running [] (.inflate (inflating 0 (.distance 5) [0x41, 0x42] 1 0))))).map fun r => r.2.2.1) =
      some [0x41, 0x42, 0x41, 0x42, 0x41, 0x42, 0x41] ∧
    workAfter (exec (.defDist 1) (running [] (.inflate (inflating 0 (.distance 3) [0x41] 1 0)))) =
      some (.finish (.err .inflateError (some 0) 0)) := by decide

theorem test_defDistInvalid : workAfter (exec (.defDistInvalid 31) (running [] (.inflate (inflating 0 (.distance 3) [1] 1 0)))) =
    some (.finish (.err .inflateError (some 0) 0)) := by decide

/-- At the code-length sequence of a block with 257 + 1 lengths. -/
def atLengths (lens : List Nat) : Work := .inflate (inflating 0 (.codeLens [] 257 1 lens) [] 1 0)

/-- The lengths after a turn. -/
def lengthsAfter (o : Host.Outcome State Fault Refusal) : Option (List Nat) :=
  match inflatedTo o with
  | some (_, .codeLens _ _ _ lens, _) => some lens
  | _ => none

theorem test_defClLiteral : lengthsAfter (exec (.defClLiteral 15) (running [] (atLengths [4]))) = some [4, 15] := by decide

theorem test_defClRepeat : lengthsAfter (exec .defClRepeat (running [2] (atLengths [7, 4]))) = some [7, 4, 4, 4, 4, 4, 4] ∧
    workAfter (exec .defClRepeat (running [2] (atLengths []))) = some (.finish (.err .inflateError (some 0) 0)) := by decide

theorem test_defClZero3 : lengthsAfter (exec .defClZero3 (running [1] (atLengths [7]))) = some [7, 0, 0, 0, 0] := by decide

/-- 11 + 3 zeros; and an overrun of the total (41_flate.md R204). -/
theorem test_defClZero11 : lengthsAfter (exec .defClZero11 (running [3] (atLengths [7]))) = some (7 :: List.replicate 14 0) ∧
    workAfter (exec .defClZero11 (running [3] (atLengths (List.replicate 250 1)))) = some (.finish (.err .inflateError (some 0) 0)) := by decide +kernel

/-- The trailer of V-INF-1 and V-INF-22. -/
theorem test_trailer :
    workAfter (coreTurn (running [0x78, 0x9C, 0x73, 0x04, 0x00, 0x00, 0x42, 0x00, 0x42] (.inflate (inflating 34 .trailer [0x41] 0x42 0x42)))) =
      some (.predict { x := [0x41], predictor := 1, columns := none }) ∧
    workAfter (coreTurn (running [0x78, 0x9C, 0x73, 0x04, 0x00, 0x00, 0x42, 0x00, 0x43] (.inflate (inflating 34 .trailer [0x41] 0x42 0x42)))) =
      some (.finish (.err .inflateError (some 0) 0)) := by decide

/-! ## The host port -/

/-- The response to one access. -/
def response (s : State) (e : Event) : Option Response :=
  match step { s with inputs := [e] } with
  | .next t => t.resp
  | .fault _ | .refused _ => none

/-- V-PORT-1, V-PORT-5, V-PORT-6, V-PORT-7, V-PORT-8, V-PORT-9, V-PORT-11, V-PORT-12. -/
theorem test_port :
    response State.reset (r32 0 0x000) = some (.okayRead 0x50444643) ∧ response State.reset (r32 0 0x028) = some (.okayRead 0) ∧
    response State.reset (w16 0 0x020 1) = some .busError ∧ response State.reset (w32 0 0x022 1) = some .busError ∧
    response State.reset (r32 0 0x04C) = some .busError ∧ response State.reset (r32 0 0x180) = some .busError ∧
    response State.reset (w32 0 0x100001 0) = some .busError ∧ response State.reset (w8 0 0x200000 1) = some .busError := by decide

/-- V-PORT-10. -/
theorem test_port_littleEndian :
    (State.reset.memWrite 0x100000 .w4 0x64636261).1.mem = [(0x100000, 0x61), (0x100001, 0x62), (0x100002, 0x63), (0x100003, 0x64)] ∧
    ((State.reset.memWrite 0x100000 .w4 0x64636261).1.memRead 0x100002 .w2).2 = .okayRead 0x6463 := by decide

/-- V-PORT-14, V-PORT-13 and V-PORT-15. -/
theorem test_port_registers :
    ((State.reset.memWrite 0x100 .w4 0x00000102).1.memRead 0x100 .w4).2 = .okayRead 2 ∧
    ((State.reset.memWrite 0x020 .w4 0xFFFFFFFF).1.memRead 0x020 .w4).2 = .okayRead 1 ∧
    State.reset.memWrite 0x030 .w4 7 = (State.reset, .okayWrite) := by decide

/-- The notation of 30_encoding.md R125. -/
theorem test_hostProgram :
    loadIn 0 [0x34, 0x3E] = [w8 0 0x100000 0x34, w8 0 0x100001 0x3E, w32 0 0x02C 2] ∧
    stage 0 1 1 (some 12) none false true = [w32 0 0x110 1, w32 0 0x114 9, w32 0 0x118 12, w32 0 0x11C 0] ∧
    HostProgram.run 0 1 [2, 0] = [w32 0 0x028 1, .core, .core, r32 0 0x024, r32 0 0x024] := by decide

/-- 30_encoding.md R112, R113; 70_reset_and_hazards.md R426. -/
theorem test_host_duties :
    (HostProgram.kindOfName "LZWDecode" = 0x03 ∧ HostProgram.kindOfName "A85" = 0xFF) ∧
    HostProgram.paramWord (-1) = some 0xFFFFFFFF ∧ HostProgram.paramWord (2 ^ 31) = none := by decide

/-- V-CMD-18, and the Adler-32 value of 95_test_vectors.md 2.3. -/
theorem test_storedEnc :
    storedEnc [0x48, 0x65, 0x6C, 0x6C, 0x6F] = [0x78, 0x01, 0x01, 0x05, 0x00, 0xFA, 0xFF, 0x48, 0x65, 0x6C, 0x6C, 0x6F, 0x05, 0x8C, 0x01, 0xF5] ∧
    adler32 [0x57, 0x69, 0x6B, 0x69, 0x70, 0x65, 0x64, 0x69, 0x61] = 0x11E60398 := by decide +kernel

/-! ## Witnesses: states and operands that meet the hypotheses of the statements, clause by clause -/

/-- A command runs, in a good state, with the working state `w` of stage 0 or of no stage. -/
theorem good_running (cur : List Byte) (w : Work) (hw : w ≠ .none) (h : (running cur w).workGood) : (running cur w).Good where
  params := (by decide : Params.default.wf)
  stages := rfl
  memWf := List.Pairwise.nil
  memInside := by intro c hc; cases hc
  notBusyAndDone := fun hb => Bool.noConfusion hb.2
  busyPhase := ⟨fun _ => rfl, fun _ => rfl⟩
  busyWork := ⟨fun _ => hw, fun _ => rfl⟩
  busyClean := fun _ => ⟨rfl, rfl, rfl, rfl, by intro c hc; cases hc⟩
  idleClean := by intro hb; cases hb
  outLen := Nat.zero_le _
  record := .inl ⟨rfl, rfl, rfl⟩
  work := h

theorem running_checked (cur : List Byte) (w : Work) : (running cur w).checked :=
  ⟨(by decide : (0 : Nat) ≤ 65536), (by decide : (1 : Nat) ≤ 8)⟩

theorem running_valid (cur : List Byte) (w : Work) : ∀ j < (running cur w).nstages.toNat, validateDesc ((running cur w).desc j) = none := by
  intro j hj
  have : j = 0 := by simpa [running] using hj
  subst this; rfl

theorem running_inStage (cur : List Byte) (w : Work) : (running cur w).inStage :=
  ⟨⟨running_checked cur w, Nat.zero_le _, running_valid cur w, fun h => absurd h (by decide : ¬1 ≤ 0)⟩, (by decide : (0 : Nat) < 1)⟩

/-- A command has been written. -/
theorem good_command : (running [] .command).Good := good_running _ _ (by simp) trivial

/-- A result waits for its completion. -/
theorem good_finish (r : Result) (h : r.Good 65536) : (running [] (.finish r)).Good := good_running _ _ (by simp) h

/-- An ASCIIHex stage runs. -/
theorem good_ahx : (running [0x34] (.ahx ahxStart)).Good := good_running _ _ (by simp) (running_inStage _ _)

/-- No command runs, after an error that the host has not acknowledged yet. -/
def failed : State := { State.reset with done := true, errCode := 0x10, errStage := 0xFFFFFFFF, errInfo := 4 }

theorem good_failed : failed.Good where
  params := by decide
  stages := by rfl
  memWf := List.Pairwise.nil
  memInside := by intro c hc; cases hc
  notBusyAndDone := by decide
  busyPhase := by decide
  busyWork := by decide
  busyClean := by intro hb; cases hb
  idleClean := fun _ => ⟨rfl, rfl, rfl⟩
  outLen := by decide
  record := .inr ⟨rfl, .illegalCommand, rfl⟩
  work := trivial

/-- A reset during a command; and a descriptor nobody wrote, reached by validation. -/
theorem witness_ResetValues : (running [1] .stage).params.wf ∧
    (step { running [1] .stage with inputs := .reset :: (running [1] .stage).inputs } = .next (running [1] .stage).powerReset) ∧
    (∃ u : State, u.work = .validate 0 ∧ 0 < u.nstages.toNat ∧ u.desc 0 = Desc.zero) :=
  ⟨by decide, rfl, { State.reset with nstages := 1, work := .validate 0 }, rfl, by decide, rfl⟩

theorem witness_StatusRegister : State.reset.busy = false ∧ (running [] (.finish (.ok []))).work = .finish (.ok []) ∧
    (failed.Good ∧ step failed = .next failed) := ⟨rfl, rfl, good_failed, rfl⟩

theorem witness_FlagEvents :
    (failed.Good ∧ failed.busy = false) ∧
    ((running [] (.finish (.ok [1]))).Good ∧ (running [] (.finish (.ok [1]))).work = .finish (.ok [1])) ∧
    ((running [] (.finish (.err .inflateError (some 0) 0))).Good ∧
      (running [] (.finish (.err .inflateError (some 0) 0))).work = .finish (.err .inflateError (some 0) 0)) ∧
    ((2 : Word).getLsbD 1 = true) ∧
    ((running [0x34] (.ahx ahxStart)).Good ∧ (∃ t, coreTurn (running [0x34] (.ahx ahxStart)) = .next t) ∧
      ∀ r, (running [0x34] (.ahx ahxStart)).work ≠ .finish r) ∧
    ¬(0x02C = 0x024 ∨ 0x02C = 0x028) :=
  ⟨⟨good_failed, rfl⟩, ⟨good_finish _ (by decide : [1].length ≤ 65536), rfl⟩, ⟨good_finish _ trivial, rfl⟩, by decide,
    ⟨good_ahx, ⟨_, rfl⟩, by intro r h; cases h⟩, by decide⟩

theorem witness_InterruptLine :
    (failed.reads 0x024 6 ∧ failed.reads 0x020 0) ∧ ((2 : Word).getLsbD 1 = true) ∧ ((2 : Word).getLsbD 0 = false) ∧
    failed.busy = false ∧ (running [] (.finish (.ok []))).work = .finish (.ok []) := ⟨⟨rfl, rfl⟩, by decide, by decide, rfl, rfl⟩

/-- The first and the last read/write register, a descriptor's last one, a read-only one, and a write while a command runs. -/
theorem witness_RegisterWrites :
    (State.reset.params.wf ∧ State.reset.stages.length = State.reset.params.stageMax ∧
      State.reset.writeMask 0x020 = some 0x00000001 ∧ State.reset.writeMask 0x038 = some 0xFFFFFFFF ∧
      State.reset.writeMask 0x100 = some 0x000000FF ∧ State.reset.writeMask 0x104 = some 0x0000000F ∧
      State.reset.writeMask 0x17C = some 0xFFFFFFFF ∧ State.reset.writeMask 0x180 = none ∧ State.reset.busy = false) ∧
    State.reset.reads 0x030 0 ∧ (running [] .command).busy = true ∧ ¬(0x028 = 0x020 ∨ 0x028 = 0x024) ∧ 0xFFC < 0x1000 :=
  ⟨by decide, rfl, rfl, by decide, by decide⟩

/-- A narrow access, a misaligned one, an unassigned register, the descriptor above the last, and the gaps between the windows. -/
theorem witness_RegisterPageAccess :
    (0xFFF < 0x1000 ∧ (Width.w1 ≠ .w4 ∨ 0xFFF % 4 ≠ 0)) ∧ (0x022 < 0x1000 ∧ (Width.w4 ≠ .w4 ∨ 0x022 % 4 ≠ 0)) ∧
    State.reset.unassigned 0x014 ∧ State.reset.unassigned 0x04C ∧ State.reset.unassigned 0x180 ∧ ¬State.reset.unassigned 0x17F ∧
    State.reset.unassigned 0x1100 ∧ ¬State.reset.unassigned 0x10FF ∧ State.reset.unassigned 0x110000 ∧
    State.reset.unassigned 0x210000 ∧ State.reset.unassigned 0x3FFFFF := by
  simp [State.unassigned, State.listed, State.reset, Params.default]

/-- The last bytes of each window, inside it and across its end. -/
theorem witness_BufferAccess :
    (State.reset.params.wf ∧ 0x1000 ≤ 0x10FC) ∧ insideAligned 0x001000 256 0x10FC 4 ∧ ¬insideAligned 0x001000 256 0x10FE 4 ∧
    ¬insideAligned 0x001000 256 0x1001 2 ∧ insideAligned 0x100000 65536 0x10FFFF 1 ∧ ¬insideAligned 0x100000 65536 0x110000 1 ∧
    insideAligned 0x200000 65536 0x20FFFE 2 ∧ State.reset.busy = false ∧ (running [] .command).busy = true := by
  unfold insideAligned; decide

theorem witness_LittleEndianPort :
    (∃ x, (State.reset.memRead 0x1000 .w1).2 = .okayRead x) ∧ (∃ t, State.reset.memWrite 0x10FFFC .w4 0x01020304 = (t, .okayWrite)) ∧
    (0x10FFFF < 0x10FFFC + 4 ∧ 0x10FFFC + Width.w4.bytes ≤ 0x110000) := ⟨⟨_, rfl⟩, ⟨_, rfl⟩, by decide⟩

theorem witness_RepeatedAccess :
    (∃ t, State.reset.memWrite 0x1000 .w1 7 = (t, .okayWrite)) ∧ (∃ t, State.reset.memWrite 0x024 .w4 2 = (t, .okayWrite)) ∧
    ∃ t, State.reset.memWrite 0x028 .w4 1 = (t, .okayWrite) := ⟨⟨_, rfl⟩, ⟨_, rfl⟩, ⟨_, rfl⟩⟩

theorem witness_BusErrorsChangeNothing :
    (State.reset.memRead 0x04C .w4).2 = .busError ∧ (State.reset.memWrite 0x200000 .w1 1).2 = .busError := ⟨rfl, rfl⟩

/-- The first and the last offset of the aperture, and the addresses beside it. -/
theorem witness_HostAccessStep :
    (0x3FFFFF < 0x400000 ∧ 0x7FFFFF = ({ State.reset with params := { Params.default with base := 0x400000 } }).params.base + 0x3FFFFF) ∧
    (0x3FFFFF < ({ State.reset with params := { Params.default with base := 0x400000 } }).params.base ∧
      ({ State.reset with params := { Params.default with base := 0x400000 } }).params.base + 0x400000 ≤ 0x800000) := by decide

theorem witness_AccessWhileBusy :
    ((running [0x34] (.ahx ahxStart)).Good ∧ (running [0x34] (.ahx ahxStart)).busy = true) ∧
    insideAligned 0x200000 (running [0x34] (.ahx ahxStart)).params.outCap 0x20FFFF 1 := by
  refine ⟨⟨good_ahx, rfl⟩, ?_⟩; unfold insideAligned; decide

/-- A listed byte of IN_BUF while a command runs. -/
theorem witness_AccessWhileBusy_listed : ∃ s : State, s.Good ∧ s.busy = true ∧ s.mem.get 0x10FFFF = some 5 := by
  refine ⟨{ running [] .command with mem := [(0x10FFFF, 5)] }, { good_command with
    memWf := List.pairwise_singleton _ _
    memInside := ?_
    busyClean := fun _ => ⟨rfl, rfl, rfl, rfl, ?_⟩ }, rfl, rfl⟩
  · intro c hc; rw [List.mem_singleton.mp hc]; exact .inr (.inl (by decide))
  · intro c hc; rw [List.mem_singleton.mp hc]; decide

/-- A completion, and a write that is refused. -/
theorem witness_CommandInputsFrozen :
    (∃ t, (running [] (.finish (.ok [1]))).busy = true ∧ (running [] (.finish (.ok [1]))).inputs.head? ≠ some .reset ∧
      step (running [] (.finish (.ok [1]))) = .next t) ∧
    ∃ t, ({ running [] .command with inputs := [w32 0 0x02C 5] } : State).inputs.head? ≠ some .reset ∧
      step { running [] .command with inputs := [w32 0 0x02C 5] } = .next t :=
  ⟨⟨_, rfl, by decide, rfl⟩, ⟨_, by decide, rfl⟩⟩

theorem witness_ResultsOnlyAtCompletion :
    (∃ t, coreTurn (running [0x34] (.ahx ahxStart)) = .next t) ∧ (∀ r, (running [0x34] (.ahx ahxStart)).work ≠ .finish r) ∧
    (running [0x34] (.ahx ahxStart)).Good ∧ (running [0x34] (.ahx ahxStart)).busy = true :=
  ⟨⟨_, rfl⟩, (by intro r h; cases h), good_ahx, rfl⟩

theorem witness_CommandStart : failed.busy = false ∧ (running [] .command).busy = true := ⟨rfl, rfl⟩

theorem witness_Completion :
    (running [] (.finish (.ok [1, 2]))).work = .finish (.ok [1, 2]) ∧
    (running [] (.finish (.err .inflateError (some 0) 0))).work = .finish (.err .inflateError (some 0) 0) ∧
    (running [] (.finish (.err .illegalCommand none 9))).work = .finish (.err .illegalCommand none 9) := ⟨rfl, rfl, rfl⟩

/-- The acknowledgement as a step. -/
theorem witness_Acknowledge : failed.busy = false ∧ ∃ t, ({ failed with inputs := [ack 0] } : State).Good ∧
    step { failed with inputs := [ack 0] } = .next t ∧ ({ failed with inputs := [ack 0] } : State).inputs.head? ≠ some .reset ∧
    ∀ addr n v, ({ failed with inputs := [ack 0] } : State).inputs.head? = some (.access (.write addr n v)) →
      addr ≠ ({ failed with inputs := [ack 0] } : State).params.base + 0x028 := by
  refine ⟨rfl, _, { good_failed with }, rfl, by decide, ?_⟩
  intro addr n v h
  cases h
  decide

theorem witness_StepRunsDecodedInstruction :
    (running [0x34] (.ahx ahxStart)).site = .code .ahxChar (bits [0, 0, 1, 0, 1, 1, 0, 0]) ∧
    decode .ahxChar (bits [0, 0, 1, 0, 1, 1, 0, 0]) = .ok (.ahxDigit 0x34, 8) ∧ (running [0x34] (.ahx ahxStart)).inputs = [] :=
  ⟨rfl, rfl, rfl⟩

theorem witness_StepKeepsGood : ∃ t, (running [0x34] (.ahx ahxStart)).Good ∧ step (running [0x34] (.ahx ahxStart)) = .next t :=
  ⟨_, good_ahx, rfl⟩

/-- The prefix code of two symbols, 0 and 1. -/
def twoCodes : PrefixCode := [{ sym := 18, len := 1, code := 0 }, { sym := 287, len := 1, code := 1 }]

theorem twoCodes_prefixFree : prefixFree twoCodes := by unfold prefixFree twoCodes; decide

/-- The last digit before `~>`; a digit `<` at the start, and `~` as an invalid character, before another digit. -/
theorem witness_DecodeEncode :
    ((Instr.a85Digit 0x21).wf = true ∧ Format.spells (.a85Char true false) (.a85Digit 0x21) ∧
      Instr.a85Digit 0x21 ≠ .a85Digit 0x3C ∧ Instr.a85Digit 0x21 ≠ .a85Invalid 0x7E ∧
      decode (.a85Char true false) (byteBits 0x21 ++ (byteBits 0x7E ++ byteBits 0x3E)) = .ok (.a85Digit 0x21, 8)) ∧
    ((Instr.a85Digit 0x3C).wf = true ∧ Format.spells (.a85Char true false) (.a85Digit 0x3C) ∧
      (byteBits 0x21).take 8 ≠ byteBits 0x7E) ∧
    ((Instr.a85Invalid 0x7E).wf = true ∧ Format.spells (.a85Char true false) (.a85Invalid 0x7E) ∧
      (byteBits 0x21).take 8 ≠ byteBits 0x3E) ∧
    ((Instr.lzwSelf 4095).wf = true ∧ Format.spells (.lzwCode 12 4095 false) (.lzwSelf 4095)) ∧
    ((Instr.defLenInvalid 287).wf = true ∧ Format.spells (.litLen twoCodes) (.defLenInvalid 287)) ∧
    ((Instr.defClZero11).wf = true ∧ Format.spells (.codeLen twoCodes) .defClZero11) := by
  refine ⟨⟨by decide, by simp [Format.spells, Format.a85With], by decide, by decide, by decide +kernel⟩,
    ⟨by decide, by simp [Format.spells, Format.a85With], by decide⟩,
    ⟨by decide, by simp [Format.spells, Format.a85With], by decide⟩, ⟨by decide, ?_⟩, ⟨by decide, ?_⟩, by decide, ?_⟩
  · simp [Format.spells, Format.lzwWith]
  · exact ⟨twoCodes_prefixFree, by decide⟩
  · exact ⟨twoCodes_prefixFree, by decide⟩

theorem witness_DecodedIsWellFormed : decode (.lzwCode 12 4096 false) (bits (List.replicate 12 1)) = .ok (.lzwDict 4095, 12) := by decide +kernel

theorem witness_EncodeDecode : decode (.litLen twoCodes) (bits [1]) = .ok (.defLenInvalid 287, 1) ∧ prefixFree twoCodes ∧
    decode (.lzwCode 9 258 true) (bits [0, 0, 0, 0, 0, 0, 0, 0, 0]) = .ok (.lzwLiteral 0, 9) ∧
    decode .cmd (low8 [1, 0, 0, 0, 0, 0, 0, 0]) = .ok (.decode, 32) := ⟨rfl, twoCodes_prefixFree, by decide +kernel, by decide +kernel⟩

theorem witness_DecodeCommand :
    (({ commanded 1 with inLen := 65537 } : State).work = .command ∧ 65536 < ({ commanded 1 with inLen := 65537 } : State).inLen.toNat) ∧
    (({ commanded 1 with nstages := 9 } : State).inLen.toNat ≤ 65536 ∧ 8 < ({ commanded 1 with nstages := 9 } : State).nstages.toNat) ∧
    (({ commanded 1 with inLen := 65536, nstages := 8 } : State).inLen.toNat ≤ 65536 ∧
      ({ commanded 1 with inLen := 65536, nstages := 8 } : State).nstages.toNat ≤ 8) := by decide

theorem witness_FlateEncodeCommand :
    (({ commanded 2 with inLen := 65537 } : State).work = .command ∧
      (commanded 2).params.inCap < ({ commanded 2 with inLen := 65537 } : State).inLen.toNat) ∧
    (commanded 2).inLen.toNat ≤ (commanded 2).params.inCap := by decide

/-- An encoding that just fits, whatever the encoder. -/
theorem witness_FlateEncodeCommand_fits : ∃ s : State, s.work = .command ∧ s.inLen.toNat ≤ s.params.inCap ∧
    (deflateEnc (s.bytesAt 0x100000 s.inLen.toNat)).length ≤ s.params.outCap :=
  ⟨{ commanded 2 with params := { Params.default with outCap := (deflateEnc []).length } }, rfl, (by decide : (0 : Nat) ≤ 65536), Nat.le_refl _⟩

/-- With `OUT_CAP` = 1 every encoding is too long: a zlib stream has at least two bytes (41_flate.md R196). -/
theorem witness_FlateEncodeCommand_exceeds : ∃ s : State, s.work = .command ∧ s.inLen.toNat ≤ s.params.inCap ∧
    s.params.outCap < (deflateEnc (s.bytesAt 0x100000 s.inLen.toNat)).length := by
  refine ⟨{ commanded 2 with params := { Params.default with outCap := 1 } }, rfl, (by decide : (0 : Nat) ≤ 65536), ?_⟩
  show 1 < (deflateEnc []).length
  unfold deflateEnc
  split
  · next h =>
    match hz : Config.freeEncoder [] with
    | [] => rw [hz] at h; cases h
    | [x] => rw [hz] at h; cases h
    | x :: y :: z => simp
  · decide

theorem witness_Rc4Command :
    (({ commanded 3 with inLen := 65537 } : State).work = .command ∧ 65536 < ({ commanded 3 with inLen := 65537 } : State).inLen.toNat) ∧
    ((commanded 3).keyLen.toNat = 0 ∨ 256 < (commanded 3).keyLen.toNat) ∧
    (({ commanded 3 with keyLen := 257 } : State).keyLen.toNat = 0 ∨ 256 < ({ commanded 3 with keyLen := 257 } : State).keyLen.toNat) ∧
    (1 ≤ ({ commanded 3 with keyLen := 256, inLen := 65536 } : State).keyLen.toNat ∧
      ({ commanded 3 with keyLen := 256, inLen := 65536 } : State).keyLen.toNat ≤ 256 ∧
      ({ commanded 3 with keyLen := 256, inLen := 65536 } : State).inLen.toNat ≤ 65536 ∧ (commanded 3).inputs = []) := by decide

theorem witness_IllegalCommand : (commanded 0x101).work = .command ∧
    (failed.busy = false ∧ failed.inputs = [] ∧ (4 : Word) ≠ 0x00000001 ∧ (4 : Word) ≠ 0x00000002 ∧ (4 : Word) ≠ 0x00000003) := by decide

theorem witness_Validation : (running [] (.validate 0)).work = .validate 0 ∧
    (({ running [] (.validate 0) with stages := [{ Desc.zero with kind := 6 }] } : State).work = .validate 0 ∧
      0 < (running [] (.validate 0)).nstages.toNat ∧
      (({ running [] (.validate 0) with stages := [{ Desc.zero with kind := 6 }] } : State).desc 0).kind ∉ [0x01, 0x02, 0x03, 0x04, 0x05]) ∧
    (({ running [] (.validate 0) with stages := [{ Desc.zero with kind := 5, ctypeP := true }] } : State).desc 0).ctypeP = true ∧
    ((running [] (.validate 0)).desc 0).kind ∈ [0x01, 0x02, 0x03, 0x04] := by decide

theorem witness_StageDispatch : (running [0x78, 0x01] .stage).work = .stage ∧
    (2 ≤ [0x78, 0x01].length ∧ zlibHeaderOk 0x78 0x01 = true) ∧ (running [0x78, 0x01] .stage).cur.length ≤ 65536 := by decide

/-- Each test of the header failing alone, and a header that passes. -/
theorem witness_ZlibHeader : (running [0x78, 0x01] .stage).work = .stage ∧ (running [0x78, 0x01] .stage).cur = [0x78, 0x01] ∧
    ((0x78 : Byte).toNat * 256 + (0x02 : Byte).toNat) % 31 ≠ 0 ∧ (0x79 : Byte).extractLsb' 0 4 ≠ 8 ∧
    7 < ((0x88 : Byte).extractLsb' 4 4).toNat ∧ (0x20 : Byte).getLsbD 5 = true ∧
    ¬(((0x78 : Byte).toNat * 256 + (0x01 : Byte).toNat) % 31 ≠ 0 ∨ (0x78 : Byte).extractLsb' 0 4 ≠ 8 ∨
      7 < ((0x78 : Byte).extractLsb' 4 4).toNat ∨ (0x01 : Byte).getLsbD 5 = true) := by decide

/-- A turn that keeps the index, one that moves on, and the start of the stages. -/
theorem witness_StageIndex :
    (∃ t, (running [0x34] (.ahx ahxStart)).Good ∧ coreTurn (running [0x34] (.ahx ahxStart)) = .next t ∧ t.busy = true) ∧
    (∃ t, (running [] (.ahx ahxStart)).Good ∧ coreTurn (running [] (.ahx ahxStart)) = .next t ∧ t.busy = true ∧ t.k = 1) ∧
    (∃ t, (running [] (.validate 1)).Good ∧ coreTurn (running [] (.validate 1)) = .next t ∧ t.busy = true ∧ t.work = .stage) := by
  refine ⟨⟨_, good_ahx, rfl, rfl⟩, ⟨_, good_running _ _ (by simp) (running_inStage _ _), rfl, rfl, rfl⟩,
    ⟨_, good_running _ _ (by simp) ⟨running_checked _ _, Nat.le_refl _, running_valid [] _⟩, rfl, rfl, rfl⟩⟩

/-- Under the capacity, and above it. -/
theorem witness_PredictorNoneAndUnsupported :
    (running [] (.predict { x := [1], predictor := 1, columns := none })).work = .predict { x := [1], predictor := 1, columns := none } ∧
    ([1] : List Byte).length ≤ (running [] .stage).params.outCap ∧
    ({ running [] .stage with params := { Params.default with outCap := 1 } } : State).params.outCap < ([1, 2] : List Byte).length ∧
    ((0x80000001 : Word).toInt ≠ 1 ∧ ¬(10 ≤ (0x80000001 : Word).toInt ∧ (0x80000001 : Word).toInt ≤ 15)) ∧
    ((16 : Word).toInt ≠ 1 ∧ ¬(10 ≤ (16 : Word).toInt ∧ (16 : Word).toInt ≤ 15)) := by decide

theorem witness_PredictorPng :
    ((0 : Word).toInt < 1 ∧ (0xFFFFFFFF : Word).toInt < 1) ∧
    (1 ≤ (2 : Word).toInt ∧ ¬((2 : Word).toNat + 1 ∣ ([0, 1, 2, 3] : List Byte).length)) ∧
    (1 ≤ (0x7FFFFFFF : Word).toInt ∧ (0x7FFFFFFF : Word).toNat + 1 ∣ ([] : List Byte).length) := by decide

theorem witness_PngRows : ∃ st : PngState, st.Good ∧ (st.r + 1) * (st.cols + 1) ≤ st.x.length ∧ st.x[st.r * (st.cols + 1)]? = some 2 :=
  ⟨{ x := [1, 5, 3, 2, 1, 1], cols := 2, r := 1, prev := [5, 8], out := [5, 8] },
    ⟨by decide, by decide, by decide, by decide, by decide⟩, by decide, by decide⟩

/-- The LZW unit after `A`, `B` is good. -/
theorem lzwAfterAB_good : lzwAfterAB.Good := by
  refine ⟨by decide, by decide, by decide, by decide, by decide, by decide +kernel, by decide +kernel, ?_, ?_, ?_, ?_⟩
  · decide +kernel
  · intro c hc; revert c; decide +kernel
  · intro p hp; cases hp; decide
  · intro h; cases h

theorem witness_LzwReadsCode :
    ((running [0x80] (.lzw lzwStart)).work = .lzw lzwStart ∧ lzwStart.Good ∧ 8 * ([0x80] : List Byte).length < lzwStart.pos + lzwStart.w) ∧
    lzwStart.pos + lzwStart.w ≤ 8 * ([0x80, 0x10] : List Byte).length := ⟨⟨rfl, lzwStart_good, by decide⟩, by decide⟩

theorem witness_LzwFirstCode : (running [] (.lzw lzwStart)).work = .lzw lzwStart ∧ lzwStart.Good ∧ lzwStart.previous = none :=
  ⟨rfl, lzwStart_good, rfl⟩

/-- A literal, and an entry of the dictionary; and the full dictionary. -/
theorem witness_LzwKnownCode :
    ((running [] (.lzw lzwAfterAB)).work = .lzw lzwAfterAB ∧ lzwAfterAB.Good ∧ lzwAfterAB.previous = some 0x42 ∧
      (258 : BitVec 12).toNat < lzwAfterAB.dl ∧ (0x43 : BitVec 12) = (0x43 : Byte).setWidth 12 ∧ lzwAfterAB.dl < 4096) ∧
    ∃ st : LzwState, st.Good ∧ st.previous = some 0 ∧ st.dl = 4096 := by
  refine ⟨⟨rfl, lzwAfterAB_good, rfl, by decide, by decide, by decide⟩, ?_⟩
  refine ⟨{ dict := lzwSeed ++ List.replicate 3838 [7], dl := 4096, w := 12, previous := some 0, pos := 0, out := [] }, ?_, rfl, rfl⟩
  have hlen : (lzwSeed ++ List.replicate 3838 [7] : List (List Byte)).length = 4096 := by
    rw [List.length_append, List.length_replicate, show lzwSeed.length = 258 by simp [lzwSeed]]
  have hlow : ∀ c < 256, LzwState.entry { dict := lzwSeed ++ List.replicate 3838 [7], dl := 4096, w := 12, previous := some 0, pos := 0, out := [] } c
      = [BitVec.ofNat 8 c] := by
    intro c hc
    have := lzwStart_good.2.2.2.2.2.2.2.1 c hc
    rw [LzwState.entry, List.getD_append _ _ _ _ (by simp [lzwSeed]; omega)]
    exact this
  refine ⟨by decide, by decide, by decide, by decide, by decide, ?_, ?_, hlow, ?_, ?_, ?_⟩
  · exact Nat.le_of_eq hlen.symm
  · exact Nat.le_of_eq hlen
  · intro c hc h1 h2
    rcases Nat.lt_or_ge c 256 with h | h
    · rw [hlow c h]; simp
    · have hc : c < 4096 := hc
      rw [LzwState.entry, List.getD_append_right _ _ _ _ (by simp [lzwSeed]; omega)]
      have : lzwSeed.length = 258 := by simp [lzwSeed]
      rw [this, List.getD_replicate _ (by omega)]; simp
  · intro p hp; cases hp; decide
  · intro h; cases h

theorem witness_LzwSelfReference : (running [] (.lzw lzwAfterAB)).work = .lzw lzwAfterAB ∧ lzwAfterAB.Good ∧ lzwAfterAB.previous = some 0x42 ∧
    (259 : BitVec 12).toNat = lzwAfterAB.dl ∧ lzwAfterAB.dl < (260 : BitVec 12).toNat := ⟨rfl, lzwAfterAB_good, rfl, by decide, by decide⟩

theorem witness_LzwStopAndClear : (running [] (.lzw lzwAfterAB)).work = .lzw lzwAfterAB ∧
    lzwAfterAB.out.length ≤ (running [] .stage).params.outCap ∧
    ({ running [] .stage with params := { Params.default with outCap := 1 } } : State).params.outCap < lzwAfterAB.out.length :=
  ⟨rfl, by decide, by decide⟩

theorem witness_A85Marks : (running [] (.a85 (a85Start [0x3C, 0x20, 0x7E]))).work = .a85 (a85Start [0x3C, 0x20, 0x7E]) ∧
    (([0x3C, 0x20, 0x7E] : List Byte) = [0x3C] ++ 0x20 :: [0x7E] ∧ isWhitespace 0x20 = true ∧ ∀ b ∈ ([0x3C] : List Byte), isWhitespace b = false) ∧
    ((∀ b ∈ ([0x7E] : List Byte), isWhitespace b = false) ∧ ([0x7E] : List Byte)[0]? = some 0x7E) := by decide

/-- A pending digit, the largest group that is accepted, and the smallest that is not (2^32 - 2 and 2^32 - 1). -/
theorem witness_A85Digits : (0x21 ≤ (0x75 : Byte).toNat ∧ (0x75 : Byte).toNat ≤ 0x75) ∧ ([1, 2, 3] : List Nat).length < 4 ∧
    (82 * 85 ^ 4 + 23 * 85 ^ 3 + 54 * 85 ^ 2 + 11 * 85 + ((0x75 : Byte).toNat - 33) < 2 ^ 32 - 1) ∧
    2 ^ 32 - 1 ≤ 82 * 85 ^ 4 + 23 * 85 ^ 3 + 54 * 85 ^ 2 + 12 * 85 + ((0x21 : Byte).toNat - 33) := by decide

/-- The end of the input, the end mark, and the partial groups. -/
theorem witness_A85Termination :
    ((∀ c ∈ ([0x21] : List Byte), isWhitespace c = false) ∧ ([0x21] : List Byte).length ≤ 1) ∧
    (([0x21, 0x7E, 0x3E] : List Byte)[1]? = some 0x7E ∧ ([0x21, 0x7E, 0x3E] : List Byte)[1 + 1]? = some 0x3E) ∧
    ([0, 1] ++ List.replicate (5 - 2) 84 = [0, 1, 84, 84, 84] ∧ 0 * 85 ^ 4 + 1 * 85 ^ 3 + 84 * 85 ^ 2 + 84 * 85 + 84 < 2 ^ 32 - 1) ∧
    ([84, 84, 84, 84] ++ List.replicate (5 - 4) 84 = [84, 84, 84, 84, 84] ∧
      2 ^ 32 - 1 ≤ 84 * 85 ^ 4 + 84 * 85 ^ 3 + 84 * 85 ^ 2 + 84 * 85 + 84) := by decide

theorem witness_AhxDigits :
    ((0x39 : Byte).toNat = 0x30 + (9 : BitVec 4).toNat ∧ (9 : BitVec 4).toNat ≤ 9) ∧
    ((0x41 : Byte).toNat = 0x41 + ((10 : BitVec 4).toNat - 10) ∧ 10 ≤ (10 : BitVec 4).toNat) ∧
    ((0x66 : Byte).toNat = 0x61 + ((15 : BitVec 4).toNat - 10) ∧ 10 ≤ (15 : BitVec 4).toNat) := by decide

theorem witness_AhxOtherCharacters : (running [0x3E] (.ahx ahxStart)).work = .ahx ahxStart ∧ ([] : List Byte).length ≤ ahxStart.i ∧
    ([0x3E] : List Byte)[ahxStart.i]? = some 0x3E ∧ ([0x00] : List Byte)[ahxStart.i]? = some 0 ∧ ahxStart.pend = none ∧ ahxStart.out.length ≤ (running [] .stage).params.outCap ∧
    ({ running [] .stage with params := { Params.default with outCap := 1 } } : State).params.outCap < ([1, 2] : List Byte).length ∧
    (some 1 : Option (BitVec 4)) ≠ none := by decide

/-- A stored block of no byte and one of one byte at the end of the input; LEN against NLEN, and an input that ends too soon. -/
theorem witness_ZlibStoredBlock :
    (getBits [0x01, 0x00, 0xFE, 0xFF, 0x58] 0 16 = some 1 ∧ getBits [0x01, 0x00, 0xFE, 0xFF, 0x58] (0 + 16) 16 = some 0xFFFE ∧
      1 = 0xFFFE ^^^ 0xFFFF ∧ 0 + 32 + 8 * 1 ≤ 8 * ([0x01, 0x00, 0xFE, 0xFF, 0x58] : List Byte).length) ∧
    (getBits [0x00, 0x00, 0xFF, 0xFF] 0 16 = some 0 ∧ getBits [0x00, 0x00, 0xFF, 0xFF] (0 + 16) 16 = some 0xFFFF ∧ 0 = 0xFFFF ^^^ 0xFFFF) ∧
    (getBits [0x01] 0 16 = none ∧ getBits [0x01, 0x00, 0xFE] (0 + 16) 16 = none ∧ 1 ≠ 0xFFFF ^^^ 0xFFFF ∧
      8 * ([0x01, 0x00, 0xFE, 0xFF] : List Byte).length < 0 + 32 + 8 * 1) := by decide

theorem witness_ZlibFixedBlock : (running [] (.inflate (inflating 16 .header [] 1 0))).work = .inflate (inflating 16 .header [] 1 0) ∧
    (inflating 16 .header [] 1 0).mode = .header := ⟨rfl, rfl⟩

/-- The header of V-INF-10: HLIT 258, HDIST 8, HCLEN 18. -/
theorem witness_ZlibDynamicAndReserved :
    getBits [0x0D, 0xC7, 0x31, 0x01, 0x00, 0x00, 0x0C, 0x83, 0x30] 3 5 = some 1 ∧
    getBits [0x0D, 0xC7, 0x31, 0x01, 0x00, 0x00, 0x0C, 0x83, 0x30] (3 + 5) 5 = some 7 ∧
    getBits [0x0D, 0xC7, 0x31, 0x01, 0x00, 0x00, 0x0C, 0x83, 0x30] (3 + 10) 4 = some 14 ∧
    (match dynamicHeader [0x0D, 0xC7, 0x31, 0x01, 0x00, 0x00, 0x0C, 0x83, 0x30] 3 with
      | some h => h.hlit == 258 && h.hdist == 8 && h.pos == 3 + 14 + 3 * 18
      | none => false) = true := by decide

/-- Each ground for refusing a dynamic header: an input that ends inside HLIT, HDIST, HCLEN or a length; HLIT 287; HDIST 31; a
code-length code without a symbol. -/
theorem witness_ZlibDynamicAndReserved_refused :
    getBits [0x05] 3 5 = some 0 ∧ getBits [0x05] (3 + 5) 5 = none ∧ getBits [0x05] 4 5 = none ∧
    getBits [0x05, 0x00] (3 + 10) 4 = none ∧ getBits [0x05, 0x00, 0x00] (3 + 10) 4 = some 0 ∧
    getBits [0x05, 0x00, 0x00] (3 + 14 + 3 * 3) 3 = none ∧
    getBits [0xF5, 0x00] 3 5 = some 30 ∧ 286 < 30 + 257 ∧ getBits [0x05, 0x1E] (3 + 5) 5 = some 30 ∧ 30 < 30 + 1 ∧
    getBits [0x05, 0x00, 0x00, 0x00] (3 + 14 + 3 * 3) 3 = some 0 ∧ buildCode .codeLen (List.replicate 19 0) = none := by decide

theorem witness_DefLiteralAndEndOfBlock : (running [] (.inflate (inflating 19 .symbols [] 1 0))).work = .inflate (inflating 19 .symbols [] 1 0) ∧
    (inflating 19 .symbols [] 1 0).mode = .symbols := ⟨rfl, rfl⟩

/-- No extra bits, five of them at the end of the input, and an input that ends too soon. -/
theorem witness_DefLengths : getBits [] 0 0 = some 0 ∧ getBits [0xFF] 3 5 = some 31 ∧ getBits [0xFF] 4 5 = none := by decide

/-- The largest distance, a distance of the whole output, one beyond it, and an input that ends too soon. -/
theorem witness_DefDistances :
    (running [] (.inflate (inflating 0 (.distance 3) [1, 2] 1 0))).work = .inflate (inflating 0 (.distance 3) [1, 2] 1 0) ∧
    getBits [0xFF, 0xFF] 0 13 = some 8191 ∧ getBits [] 0 0 = some 0 ∧ 2 + 0 ≤ ([1, 2] : List Byte).length ∧
    ([1, 2] : List Byte).length < 3 + 0 ∧ getBits [0xFF] 0 13 = none := ⟨rfl, by decide, by decide, by decide, by decide, by decide⟩

theorem witness_DefCodeLengths : (running [3] (atLengths [7])).work = atLengths [7] ∧ ([7, 4] : List Nat).getLast? = some 4 ∧
    getBits [3] 0 2 = some 3 ∧ getBits [3] 0 3 = some 3 ∧ getBits [3] 0 7 = some 3 ∧ getBits [] 0 2 = none ∧ getBits [] 0 3 = none ∧
    getBits [3] 2 7 = none := ⟨rfl, by decide⟩

/-- A complete code of lengths 1, 2, 3 .. 15, 15, and the empty distance code. -/
theorem witness_BuiltCodesArePrefixFree :
    ((∀ l ∈ List.range' 1 15 ++ [15], l ≤ 15) ∧ (buildCode .litLen (List.range' 1 15 ++ [15])).isSome) ∧
    buildCode .dist [0] = some [] := by decide +kernel

/-- The boundary cases of 41_flate.md R203, decided by hand: three codes of one bit; one code of one bit, for each kind; one of
two bits; and no code, for each kind. -/
theorem test_buildCode_accepts :
    buildCode .litLen [1, 1, 15] = none ∧ (buildCode .codeLen [1, 1]).isSome ∧ (buildCode .litLen [0, 1]).isSome ∧
    (buildCode .dist [1]).isSome ∧ buildCode .codeLen [1] = none ∧ buildCode .dist [2] = none ∧
    buildCode .litLen [0, 0] = none ∧ buildCode .codeLen [0] = none ∧ (buildCode .dist [0]).isSome := by decide +kernel

/-- By hand from the loop of 41_flate.md R203: the first codes of lengths 2, 3 and 4 are 0, 2 and 14. -/
theorem test_buildCode_words :
    (buildCode .litLen [3, 3, 3, 3, 3, 2, 4, 4]).map (fun t => t.map CodeEntry.code) = some [2, 3, 4, 5, 6, 0, 14, 15] := by
  decide +kernel

/-- The end of a code-length sequence of HLIT 257 and HDIST 1: `lens[256]` = 0 (41_flate.md R205), a distance code that is
refused, and a block that holds only its end. -/
theorem witness_BuiltCodesArePrefixFree_block :
    (running [] (atLengths (List.replicate 258 0))).work = atLengths (List.replicate 258 0) ∧
    (List.replicate 256 0 ++ [1, 0]).length = 257 + 1 ∧ (List.replicate 258 0).length = 257 + 1 ∧
    (List.replicate 258 0).getD 256 0 = 0 ∧ (List.replicate 256 0 ++ [1, 0]).getD 256 0 ≠ 0 ∧
    (buildCode .litLen ((List.replicate 256 0 ++ [1, 0]).take 257)).isSome ∧
    (buildCode .dist ((List.replicate 256 0 ++ [1, 0]).drop 257)).isSome ∧
    buildCode .dist ((List.replicate 256 0 ++ [1, 2]).drop 257) = none := ⟨rfl, by decide +kernel⟩

/-- FLATE_ENCODE of no data succeeds where OUT_CAP is at least what the encoder makes of it, whatever encoder it is. -/
theorem witness_EncoderRoundTrip : ∃ (x y : Snapshot) (z : List Byte) (d : Desc),
    x.op = 0x00000002 ∧ commandResult x = .ok z ∧ y.op = 0x00000001 ∧ y.input = z ∧ y.inLen = z.length ∧
    z.length ≤ y.params.inCap ∧ y.nstages = 1 ∧ 1 ≤ y.params.stageMax ∧ y.descs.head? = some d ∧ d.kind = 0x01 ∧
    d.predP = false ∧ x.input.length ≤ y.params.outCap := by
  let n := (deflateEnc []).length
  refine ⟨{ params := { base := 0, inCap := n, outCap := n, stageMax := 1 }, op := 2, inLen := 0, input := [], keyLen := 0, key := [],
            nstages := 0, descs := [] },
    { params := { base := 0, inCap := n, outCap := n, stageMax := 1 }, op := 1, inLen := n, input := deflateEnc [], keyLen := 0,
      key := [], nstages := 1, descs := [{ Desc.zero with kind := 1 }] }, deflateEnc [], { Desc.zero with kind := 1 },
    rfl, ?_, rfl, rfl, rfl, le_refl _, rfl, le_refl _, rfl, rfl, rfl, Nat.zero_le _⟩
  simp [commandResult, flateEncodeResult, n]

theorem witness_Rc4SelfInverse : 1 ≤ (List.replicate 256 (7 : Byte)).length ∧ (List.replicate 256 (7 : Byte)).length ≤ 256 := by
  rw [List.length_replicate]; decide

theorem witness_StageRuns : (running [0x78, 0x01] .stage).inputs = [] ∧ (running [0x78, 0x01] .stage).work = .stage ∧
    (running [0x78, 0x01] .stage).k < (running [0x78, 0x01] .stage).nstages.toNat ∧
    validateDesc ((running [0x78, 0x01] .stage).desc (running [0x78, 0x01] .stage).k) = none := by decide

theorem witness_CommandRuns : (commanded 1).inputs = [] ∧ (commanded 1).work = .command ∧
    (commanded 1).stages.length = (commanded 1).params.stageMax := by decide

end Sys2Proof.Tests
end

section
/-! SUPPORT. A step runs the decoded instruction, and no step stops (00_scope.md R10; assumption logs 2 and 9). -/

namespace Sys2Proof.Machine

variable {s : State}

/-- A Core turn at the front of the queue. -/
theorem step_core_cons {rest : List Event} (h : s.inputs = .core :: rest) : step s = coreTurn { s with inputs := rest } := by
  simp [step, h]

theorem step_access_cons {a : Access} {rest : List Event} (h : s.inputs = .access a :: rest) :
    step s = .next ({ s with inputs := rest }.access a) := by simp [step, h]

theorem step_reset_cons {rest : List Event} (h : s.inputs = .reset :: rest) :
    step s = .next { s with inputs := rest }.powerReset := by simp [step, h]

/-- Where the Core reads next does not depend on what the outside world does next. -/
theorem site_withInputs (rest : List Event) : ({ s with inputs := rest } : State).site = s.site := rfl

/-- Settles O21: the Core's turn is the decoded instruction, and the queue does not change where the Core reads. -/
theorem stepRunsDecodedInstruction : Obligations.StepRunsDecodedInstruction := by
  intro s f bits i n hsite hdec
  refine ⟨fun hinputs => (step_core hinputs).trans (coreTurn_code hsite hdec), fun rest => ?_⟩
  have hsite' : ({ s with inputs := rest } : State).site = .code f bits := (site_withInputs rest).trans hsite
  exact (step_core_cons rfl).trans (coreTurn_code hsite' hdec)

/-- Settles O22: a turn of the Core answers a next state by `coreTurn_next`, and an access or a reset does so outright. -/
theorem stepNeverStops : Obligations.StepNeverStops := by
  intro s
  cases hin : s.inputs with
  | nil =>
    obtain ⟨t, ht, -⟩ := coreTurn_next s
    exact ⟨t, (step_core hin).trans ht⟩
  | cons e rest =>
    cases e with
    | core =>
      obtain ⟨t, ht, -⟩ := coreTurn_next { s with inputs := rest }
      exact ⟨t, (step_core_cons hin).trans ht⟩
    | access a => exact ⟨_, step_access_cons hin⟩
    | reset => exact ⟨_, step_reset_cons hin⟩

end Sys2Proof.Machine
end

section
/-! SUPPORT. Every command completes with the result its pseudocode gives (00_scope.md R10; 20_memory.md R94). A command is
followed to the state in which its result is known; the completion step then discards all that the turns before it have
changed, but for the draw counter. -/

namespace Sys2Proof.Machine

variable {s t u : State} {r : Result}

/-! ## Runs that end in a known result -/

theorem State.Moved.trans (h1 : s.Moved t) (h2 : t.Moved u) : s.Moved u := by
  unfold State.Moved at *
  rw [h2, h1]

theorem State.Moved.inputs_eq (h : s.Moved t) : t.inputs = s.inputs := by rw [h]

/-- Completion drops `work`, `k` and `cur` (40_pipeline.md R152), which are all that a move changes but for the draw counter. -/
theorem State.Moved.complete_eq (h : s.Moved t) (r : Result) : t.complete r = { s with draw := t.draw }.complete r := by
  rw [h]; cases r <;> rfl

/-- The Core's turns alone take `s` to a state in which the result `r` is known and nothing but the command's own working state
has changed. -/
def State.Finishes (s : State) (r : Result) : Prop := ∃ t, Reaches s t ∧ s.Moved t ∧ t.work = .finish r

theorem finishes_of_reaches (hr : Reaches s t) (hm : s.Moved t) (h : t.Finishes r) : s.Finishes r := by
  obtain ⟨u, htu, hmu, hw⟩ := h
  exact ⟨u, hr.trans htu, hm.trans hmu, hw⟩

theorem finishes_withWork_finish (s : State) (r : Result) : (s.withWork (.finish r)).Finishes r := ⟨_, .refl _, rfl, rfl⟩

theorem finishes_of_reaches_finish (hr : Reaches s (s.withWork (.finish r))) : s.Finishes r :=
  finishes_of_reaches hr rfl (finishes_withWork_finish s r)

/-- A check of the machine and the same check of the pseudocode. -/
theorem finishes_ite {p : Prop} [Decidable p] {r' : Result} (ht : p → t.Finishes r) (hu : ¬p → u.Finishes r') :
    (if p then t else u).Finishes (if p then r else r') := by
  by_cases h : p
  · rw [if_pos h, if_pos h]; exact ht h
  · rw [if_neg h, if_neg h]; exact hu h

/-- The completion step after a run that ends in a known result. -/
theorem State.Finishes.reaches_complete (hi : s.inputs = []) (h : s.Finishes r) :
    ∃ d, Reaches s ({ s with draw := d }.complete r) := by
  obtain ⟨t, hr, hm, hw⟩ := h
  refine ⟨t.draw, hr.trans (.one (hm.inputs_eq.trans hi) ?_)⟩
  rw [coreTurn_finish hw, hm.complete_eq]

/-! ## One stage -/

/-- The LZW unit (42_lzw.md R260). -/
theorem reaches_lzwStart (hi : s.inputs = []) :
    Reaches (s.withWork (.lzw lzwStart)) (s.settleResult (lzwDecode s.cur)) := by
  have hentry : ∀ c < lzwStart.dl, c ≠ 256 → c ≠ 257 →
      lzwStart.entry c = if c < 256 then [BitVec.ofNat 8 c] else [] := by
    intro c (hc : c < 258) h256 h257
    have hlt : c < 256 := by omega
    obtain ⟨-, -, -, -, -, -, -, hseed, -⟩ := lzwStart_good
    rw [if_pos hlt, hseed c hlt]
  have hfuel : 8 * s.cur.length - lzwStart.pos < 9 * (s.cur.length + 1) := by omega
  exact reaches_lzw hi _ lzwStart _ lzwStart_good hentry (Nat.zero_le _) hfuel

/-- From its start, each unit ends as its pseudocode says (40_pipeline.md R155). -/
theorem reaches_startUnit (hi : s.inputs = []) (d : Desc) :
    Reaches (s.startUnit d) (s.settleResult (runStage d s.cur)) := by
  unfold State.startUnit runStage
  by_cases h1 : d.kind = 1
  · rw [if_pos h1, if_pos h1]; exact reaches_flate hi _ _
  rw [if_neg h1, if_neg h1]
  by_cases h2 : d.kind = 2
  · rw [if_pos h2, if_pos h2]; exact reaches_ahx hi s.cur 0 none [] rfl
  rw [if_neg h2, if_neg h2]
  by_cases h3 : d.kind = 3
  · rw [if_pos h3, if_pos h3]; exact reaches_lzwStart hi
  rw [if_neg h3, if_neg h3]
  by_cases h4 : d.kind = 4
  · rw [if_pos h4, if_pos h4]; exact reaches_a85 hi
  rw [if_neg h4, if_neg h4]; exact .refl _

/-- A stage whose descriptor is valid, from its dispatch on (40_pipeline.md R155, R156). -/
theorem reaches_stage (hi : s.inputs = []) (hw : s.work = .stage) (hk : s.k < s.nstages.toNat)
    (hv : validateDesc (s.desc s.k) = none) : Reaches s (s.settleResult (runStage (s.desc s.k) s.cur)) := by
  have ht := coreTurn_stage hw hk
  rw [hv] at ht
  exact .step hi ht (reaches_startUnit hi _)

/-! ## The chain of stages -/

/-- The capacity check at the end of DECODE (40_pipeline.md R151). -/
def capacityChecked (outCap : Nat) : Result → Result
  | .ok out => if out.length > outCap then .err .capacityExceeded none 0 else .ok out
  | .err e stage info => .err e stage info

theorem decodeStream_eq (x : Snapshot) : decodeStream x =
    if x.inLen > x.params.inCap then .err .invalidParam none 1
    else if x.nstages > x.params.stageMax then .err .invalidParam none 2
    else (validateChain 0 (x.descs.take x.nstages)).getD
      (capacityChecked x.params.outCap (runStages x.params.outCap 0 (x.descs.take x.nstages) x.input)) := by
  rw [decodeStream]
  cases validateChain 0 (x.descs.take x.nstages) with
  | some r => rfl
  | none => cases runStages x.params.outCap 0 (x.descs.take x.nstages) x.input <;> rfl

theorem finishes_endChain (s : State) : s.endChain.Finishes (capacityChecked s.params.outCap (.ok s.cur)) :=
  finishes_ite (fun _ => finishes_withWork_finish s _) fun _ => finishes_withWork_finish s _

/-- The descriptors of the chain from index `j` on, where there is one. -/
theorem drop_chain {j : Nat} (hl : s.nstages.toNat ≤ s.stages.length) (hj : j < s.nstages.toNat) :
    (s.stages.take s.nstages.toNat).drop j = s.desc j :: (s.stages.take s.nstages.toNat).drop (j + 1) := by
  have hlt : j < (s.stages.take s.nstages.toNat).length := by rw [List.length_take]; omega
  rw [List.drop_eq_getElem_cons hlt, List.getElem_take, State.desc, List.getD_eq_getElem _ _ (by omega)]

/-- The `n` stages that are left, all valid, and the end of the chain (40_pipeline.md R151, R155-R157). -/
theorem finishes_stages (n : Nat) : ∀ s : State, s.inputs = [] → s.work = .stage →
    s.nstages.toNat ≤ s.stages.length → s.nstages.toNat = s.k + n →
    (∀ j < s.nstages.toNat, validateDesc (s.desc j) = none) →
    s.Finishes (capacityChecked s.params.outCap
      (runStages s.params.outCap s.k ((s.stages.take s.nstages.toNat).drop s.k) s.cur)) := by
  induction n with
  | zero =>
    intro s hi hw _ hn _
    have hnil : (s.stages.take s.nstages.toNat).drop s.k = [] := by
      rw [List.drop_eq_nil_iff, List.length_take]; omega
    have ht := coreTurn_stage_end hw (by omega)
    rw [hnil, runStages]
    exact finishes_of_reaches (.one hi ht) (coreTurn_moved ht (by simp [hw])) (finishes_endChain s)
  | succ n ih =>
    intro s hi hw hl hn hv
    have hk : s.k < s.nstages.toNat := by omega
    have hstage := reaches_stage hi hw hk (hv s.k hk)
    rw [drop_chain hl hk, runStages]
    cases hrun : runStage (s.desc s.k) s.cur with
    | error e =>
      rw [hrun] at hstage
      exact finishes_of_reaches_finish hstage
    | ok out =>
      rw [hrun, State.settleResult] at hstage
      rcases endStage_cases s out with ⟨hle, hend⟩ | ⟨hlt, hend⟩
      · rw [hend] at hstage
        have hrest := ih { s with cur := out, k := s.k + 1, work := .stage } hi rfl hl (by simp only; omega) hv
        simp only [if_neg (Nat.not_lt.mpr hle)]
        exact finishes_of_reaches hstage rfl hrest
      · rw [hend] at hstage
        simp only [if_pos hlt]
        exact finishes_of_reaches_finish hstage

/-! ## The commands -/

/-- DECODE from the validation of its first descriptor on (40_pipeline.md R151, R159). -/
theorem finishes_validate (hi : s.inputs = []) (hl : s.nstages.toNat ≤ s.stages.length) :
    (s.withWork (.validate 0)).Finishes ((validateChain 0 (s.stages.take s.nstages.toNat)).getD
      (capacityChecked s.params.outCap (runStages s.params.outCap 0 (s.stages.take s.nstages.toNat) s.readIn))) := by
  have hval := reaches_validate hi hl s.nstages.toNat 0 (Nat.zero_add _).symm
  rw [List.drop_zero] at hval
  cases hchain : validateChain 0 (s.stages.take s.nstages.toNat) with
  | some r =>
    rw [hchain] at hval
    exact finishes_of_reaches_finish hval
  | none =>
    rw [hchain] at hval
    obtain ⟨hreach, hvalid⟩ := hval
    have hrest := finishes_stages s.nstages.toNat s.beginStages hi rfl hl (Nat.zero_add _).symm
      fun j hj => hvalid j (Nat.zero_le j) hj
    exact finishes_of_reaches hreach rfl hrest

/-- RC4 from the start of its key schedule on (45_rc4.md R360-R362). -/
theorem finishes_rc4Start (hi : s.inputs = []) (key data : List Byte) :
    (s.withWork (.rc4 (rc4Start key data))).Finishes
      (if (rc4Crypt key data).length > s.params.outCap then .err .capacityExceeded none 0 else .ok (rc4Crypt key data)) := by
  have hksa := reaches_rc4_ksa hi key data 256 0 identityPerm 0 rfl 0 0 (fun _ => ⟨rfl, rfl⟩) (fun h => absurd h (by decide))
  rw [← List.range_eq_range'] at hksa
  have hprga := reaches_rc4_prga hi key data data (rc4Ksa key identityPerm 0 (List.range 256)) 0 0 256 [] (Nat.le_refl _) rfl
  exact finishes_of_reaches_finish (hksa.trans hprga)

/-- A command's dispatch, where what it goes on with ends in a known result. -/
theorem finishes_of_onCommand {f : State → State} (hi : s.inputs = []) (hw : s.work = .command)
    (hturn : coreTurn s = State.onCommand f s) (h : (f s).Finishes r) : s.Finishes r := by
  have hnext : coreTurn s = .next (f s) := hturn.trans (onCommand_eq f hw)
  exact finishes_of_reaches (.one hi hnext) (coreTurn_moved hnext (by simp [hw])) h

/-- DECODE (40_pipeline.md R151). -/
theorem finishes_decode (hi : s.inputs = []) (hw : s.work = .command) (hl : s.stages.length = s.params.stageMax)
    (hturn : coreTurn s = execDecode s) : s.Finishes (decodeStream s.snapshot) := by
  rw [decodeStream_eq]
  refine finishes_of_onCommand hi hw hturn (finishes_ite (fun _ => finishes_withWork_finish s _) fun _ => ?_)
  refine finishes_ite (fun _ => finishes_withWork_finish s _) fun hst => ?_
  exact finishes_validate hi (by omega)

/-- FLATE_ENCODE (40_pipeline.md R160). -/
theorem finishes_flateEncode (hi : s.inputs = []) (hw : s.work = .command)
    (hturn : coreTurn s = execFlateEncode s) : s.Finishes (flateEncodeResult s.snapshot) := by
  refine finishes_of_onCommand hi hw hturn (finishes_ite (fun _ => finishes_withWork_finish s _) fun _ => ?_)
  exact finishes_ite (fun _ => finishes_withWork_finish s.drawn _) fun _ => finishes_withWork_finish s.drawn _

/-- RC4 (45_rc4.md R360). -/
theorem finishes_rc4 (hi : s.inputs = []) (hw : s.work = .command)
    (hturn : coreTurn s = execRc4 s) : s.Finishes (rc4Result s.snapshot) := by
  refine finishes_of_onCommand hi hw hturn (finishes_ite (fun _ => finishes_withWork_finish s _) fun _ => ?_)
  simp only [Bool.or_eq_true, decide_eq_true_eq]
  refine finishes_ite (fun _ => finishes_withWork_finish s _) fun _ => ?_
  exact finishes_rc4Start (s := s.drawn) hi s.readKey s.readIn

/-- Every command word, from its dispatch on (30_encoding.md R110, R111; 40_pipeline.md R163). -/
theorem finishes_command (hi : s.inputs = []) (hw : s.work = .command) (hl : s.stages.length = s.params.stageMax) :
    s.Finishes (commandResult s.snapshot) := by
  have hturn := coreTurn_command hw
  have hop : s.snapshot.op = s.op := rfl
  rw [commandResult, hop]
  split_ifs at hturn ⊢
  · exact finishes_decode hi hw hl hturn
  · exact finishes_flateEncode hi hw hturn
  · exact finishes_rc4 hi hw hturn
  · exact finishes_of_onCommand hi hw hturn (finishes_withWork_finish s _)

/-- Settles O60: the command's turns end in its pseudocode's result with only working state changed, and the completion step
makes of that state what it makes of the one at the dispatch. -/
theorem commandRuns : Obligations.CommandRuns := by
  intro s hi hw hl
  exact (finishes_command hi hw hl).reaches_complete hi

end Sys2Proof.Machine
end

section
/-! SUPPORT. The register page, register by register: bits of a word that is made of flags, which reads a state answers, and what
a host write can do (10_state.md R30-R49; 20_memory.md R92). -/

namespace Sys2Proof.Machine

variable {s t : State} {off : Nat} {v : Word}

/-! ## Words made of bits -/

theorem testBit_natOfLsb (bs : List Bool) (i : Nat) : (natOfLsb bs).testBit i = bs.getD i false := by
  induction bs generalizing i with
  | nil => simp [natOfLsb]
  | cons b bs ih =>
    cases i with
    | zero => cases b <;> simp [natOfLsb]
    | succ i =>
      have hhalf : natOfLsb (b :: bs) / 2 = natOfLsb bs := by rw [natOfLsb]; have := b.toNat_le; omega
      rw [Nat.testBit_succ, hhalf, List.getD_cons_succ, ih]

theorem getLsbD_ofNat_natOfLsb {bs : List Bool} (h : bs.length ≤ 32) (i : Nat) :
    (BitVec.ofNat 32 (natOfLsb bs)).getLsbD i = bs.getD i false := by
  rw [BitVec.getLsbD_ofNat, testBit_natOfLsb]
  by_cases hi : i < 32
  · simp [hi]
  · rw [List.getD_eq_default _ _ (by omega), Bool.and_false]

/-- The low `m` bits of a word, taken one by one, are the word under the mask of those bits. -/
theorem ofNat_natOfLsb_getLsbD (v : Word) {m : Nat} (h : m ≤ 32) :
    BitVec.ofNat 32 (natOfLsb ((List.range m).map v.getLsbD)) = v &&& BitVec.ofNat 32 (2 ^ m - 1) := by
  apply BitVec.eq_of_getLsbD_eq
  intro i hi
  rw [getLsbD_ofNat_natOfLsb (by simpa using h), BitVec.getLsbD_and, BitVec.getLsbD_ofNat, Nat.testBit_two_pow_sub_one]
  by_cases him : i < m <;> simp [him, hi]

theorem statusWord_getLsbD (s : State) (i : Nat) : s.statusWord.getLsbD i = [s.busy, s.done, s.errorFlag].getD i false := by
  rw [← getLsbD_ofNat_natOfLsb (by simp) i, State.statusWord]
  congr 2
  simp only [natOfLsb]
  omega

theorem ctrlWord_getLsbD (s : State) (i : Nat) : (BitVec.ofNat 32 s.irqEn.toNat).getLsbD i = [s.irqEn].getD i false :=
  getLsbD_ofNat_natOfLsb (bs := [s.irqEn]) (by simp) i

/-! ## Reads -/

/-- A register is read as its word; no read of a buffer is one of these, since it moves the draw counter on. -/
theorem reads_iff : s.reads off v ↔ off < 0x1000 ∧ off % 4 = 0 ∧ s.regRead off = some v := by
  refine ⟨fun h => ?_, fun ⟨h, ha, hr⟩ => memRead_reg h ha hr⟩
  unfold State.reads State.memRead at h
  split_ifs at h with hpage hword hbuf
  · cases hr : s.regRead off with
    | none => rw [hr] at h; cases h
    | some u => rw [hr] at h; cases h; exact ⟨hpage, hword.2, rfl⟩
  · cases h
  · exact absurd (congrArg (·.1.draw) h) (Nat.succ_ne_self _)
  · cases h

theorem reads_status (s : State) : s.reads 0x024 s.statusWord := memRead_reg (by decide) (by decide) rfl

theorem reads_ctrl (s : State) : s.reads 0x020 (BitVec.ofNat 32 s.irqEn.toNat) := memRead_reg (by decide) (by decide) rfl

theorem reads_unique {u : Word} (h : s.reads off v) (h' : s.reads off u) : v = u :=
  Option.some.inj ((reads_iff.mp h).2.2.symm.trans (reads_iff.mp h').2.2)

/-- ID, VERSION and the parameters (10_state.md R31, R32). -/
theorem reads_hardwired (s : State) :
    s.reads 0x000 0x50444643 ∧ s.reads 0x004 0x00000001 ∧ s.reads 0x008 (BitVec.ofNat 32 s.params.inCap) ∧
      s.reads 0x00C (BitVec.ofNat 32 s.params.outCap) ∧ s.reads 0x010 (BitVec.ofNat 32 s.params.stageMax) := by
  refine ⟨?_, ?_, ?_, ?_, ?_⟩ <;> exact memRead_reg (by decide) (by decide) rfl

/-- No read of the register page changes anything (10_state.md R47). -/
theorem memRead_page (h : off < 0x1000) (n : Width) : (s.memRead off n).1 = s := by
  unfold State.memRead
  split_ifs
  · cases s.regRead off <;> rfl
  · rfl

/-- A read changes nothing but the model's counter of draws (20_memory.md R90; assumption log 4). -/
theorem memRead_state (s : State) (off : Nat) (n : Width) :
    (s.memRead off n).1 = { s with draw := (s.memRead off n).1.draw } := by
  by_cases h : off < 0x1000
  · rw [memRead_page h]
  · unfold State.memRead
    split_ifs <;> rfl

/-! ## Writes to CTRL, STATUS, CMD and the read-only registers -/

theorem acknowledge_eq (s : State) (v : Word) : s.acknowledge v = { s with done := s.done && !v.getLsbD 1 } := by
  unfold State.acknowledge
  cases v.getLsbD 1 <;> simp

theorem memWrite_ctrl (s : State) (v : Word) : s.memWrite 0x020 .w4 v = ({ s with irqEn := v.getLsbD 0 }, .okayWrite) :=
  memWrite_reg (by decide) (by decide) (.inr (.inl rfl)) rfl

theorem memWrite_status (s : State) (v : Word) :
    s.memWrite 0x024 .w4 v = ({ s with done := s.done && !v.getLsbD 1 }, .okayWrite) :=
  acknowledge_eq s v ▸ memWrite_reg (by decide) (by decide) (.inr (.inr rfl)) rfl

theorem memWrite_cmd (hb : s.busy = false) (w : Word) : s.memWrite 0x028 .w4 w = (s.startCommand w, .okayWrite) :=
  memWrite_reg (by decide) (by decide) (.inl hb) rfl

/-- The registers that the host cannot change by writing to them (10_state.md R30). -/
def readOnlyOffsets : List Nat := [0x000, 0x004, 0x008, 0x00C, 0x010, 0x030, 0x040, 0x044, 0x048]

theorem regWrite_readOnly (h : off ∈ readOnlyOffsets) : s.regWrite off v = some s := by
  simp only [readOnlyOffsets, List.mem_cons, List.not_mem_nil, or_false] at h
  rcases h with rfl | rfl | rfl | rfl | rfl | rfl | rfl | rfl | rfl <;> rfl

theorem memWrite_readOnly (h : off ∈ readOnlyOffsets) :
    s.memWrite off .w4 v = (s, if s.busy then .busError else .okayWrite) := by
  have hoff : ∀ o ∈ readOnlyOffsets, o < 0x1000 ∧ o % 4 = 0 ∧ ¬(o = 0x020 ∨ o = 0x024) := by decide
  obtain ⟨hpage, ha, hne⟩ := hoff off h
  cases hb : s.busy with
  | true => exact memWrite_busy hb hne
  | false => exact memWrite_reg hpage ha (.inl hb) (regWrite_readOnly h)

/-- Settles O4: the reads are the constants, and the five offsets are read-only. -/
theorem hardwiredRegisters : Obligations.HardwiredRegisters := by
  intro s
  have hsub : [0x000, 0x004, 0x008, 0x00C, 0x010] ⊆ readOnlyOffsets := by decide
  exact ⟨reads_hardwired s, fun off h v => memWrite_readOnly (hsub h)⟩

/-! ## What a host write can do -/

/-- Nothing but inputs of the next command differs: lengths and descriptors, of which there are as many as before. -/
def State.InputsWritten (s t : State) : Prop :=
  t.stages.length = s.stages.length ∧
    t = { s with inLen := t.inLen, keyLen := t.keyLen, nstages := t.nstages, stages := t.stages }

/-- The inversion of an accepted register write. CTRL, STATUS and CMD apart, it writes inputs of the next command; a write to a
read-only register, which changes nothing, counts among these. -/
theorem regWrite_cases {off : Nat} {v : Word} (h : s.regWrite off v = some t) :
    (off = 0x020 ∧ t = { s with irqEn := v.getLsbD 0 }) ∨ (off = 0x024 ∧ t = s.acknowledge v) ∨
    (off = 0x028 ∧ t = s.startCommand v) ∨ s.InputsWritten t := by
  unfold State.regWrite at h
  rcases ite_eq_iff.mp h with ⟨-, h⟩ | ⟨-, h⟩
  · cases h; exact .inr (.inr (.inr ⟨rfl, rfl⟩))
  rcases ite_eq_iff.mp h with ⟨hctrl, h⟩ | ⟨-, h⟩
  · cases h; exact .inl ⟨hctrl, rfl⟩
  rcases ite_eq_iff.mp h with ⟨hstatus, h⟩ | ⟨-, h⟩
  · cases h; exact .inr (.inl ⟨hstatus, rfl⟩)
  rcases ite_eq_iff.mp h with ⟨hcmd, h⟩ | ⟨-, h⟩
  · cases h; exact .inr (.inr (.inl ⟨hcmd, rfl⟩))
  refine .inr (.inr (.inr ?_))
  iterate 5
    rcases ite_eq_iff.mp h with ⟨-, h⟩ | ⟨-, h⟩
    · cases h; exact ⟨rfl, rfl⟩
  rcases ite_eq_iff.mp h with ⟨-, h⟩ | ⟨-, h⟩
  · cases h; exact ⟨List.length_set, rfl⟩
  · cases h

/-- The inversion of a host write: while a command runs only CTRL and STATUS change (20_memory.md R92). -/
theorem memWrite_cases (s : State) (off : Nat) (n : Width) (v : Word) :
    (s.memWrite off n v).1 = s ∨ (off = 0x020 ∧ (s.memWrite off n v).1 = { s with irqEn := v.getLsbD 0 }) ∨
    (off = 0x024 ∧ (s.memWrite off n v).1 = s.acknowledge v) ∨
    (s.busy = false ∧
      ((off = 0x028 ∧ (s.memWrite off n v).1 = s.startCommand v) ∨ s.InputsWritten (s.memWrite off n v).1 ∨
      (s.writableBuffer off n.bytes = true ∧
        (s.memWrite off n v).1 = { s with mem := s.mem.setBytes off (leBytes n.bytes v.toNat) }))) := by
  unfold State.memWrite
  split_ifs with hpage hreg hbuf
  · cases hw : s.regWrite off v with
    | none => exact .inl rfl
    | some u =>
      obtain ⟨-, -, hb | rfl | rfl⟩ := hreg
      · rcases regWrite_cases hw with h | h | h | h
        · exact .inr (.inl h)
        · exact .inr (.inr (.inl h))
        · exact .inr (.inr (.inr ⟨hb, .inl h⟩))
        · exact .inr (.inr (.inr ⟨hb, .inr (.inl h)⟩))
      · cases hw; exact .inr (.inl ⟨rfl, rfl⟩)
      · cases hw; exact .inr (.inr (.inl ⟨rfl, rfl⟩))
  · exact .inl rfl
  · exact .inr (.inr (.inr ⟨hbuf.1, .inr (.inr ⟨hbuf.2, rfl⟩)⟩))
  · exact .inl rfl

end Sys2Proof.Machine
end

section
/-! SUPPORT. Reset (10_state.md R61-R63; 70_reset_and_hazards.md R421): the fresh state it leaves is good, and what the host reads
of it. -/

namespace Sys2Proof.Machine

variable {p : Params} {inputs : List Event} {draw : Nat}

/-- The state after a reset, by what a reset does not fix (assumption logs 3, 4, 19). -/
def State.fresh (p : Params) (inputs : List Event) (draw : Nat) : State :=
  { State.reset with params := p, stages := List.replicate p.stageMax Desc.zero, inputs := inputs, draw := draw }

theorem State.reset_eq_fresh : State.reset = State.fresh Params.default [] 0 := rfl

theorem State.powerReset_eq_fresh (s : State) : s.powerReset = State.fresh s.params s.inputs (s.draw + 1) := rfl

theorem State.good_fresh {p : Params} (hp : p.wf) (inputs : List Event) (draw : Nat) : (State.fresh p inputs draw).Good where
  params := hp
  stages := List.length_replicate
  memWf := List.Pairwise.nil
  memInside := fun _ hc => absurd hc List.not_mem_nil
  notBusyAndDone := fun h => Bool.false_ne_true h.1
  busyPhase := iff_of_false Bool.false_ne_true Phase.noConfusion
  busyWork := iff_of_false Bool.false_ne_true fun h => h rfl
  busyClean := fun h => Bool.noConfusion h
  idleClean := fun _ => ⟨rfl, rfl, rfl⟩
  outLen := Nat.zero_le _
  record := .inl ⟨rfl, rfl, rfl⟩
  work := trivial

/-- Settles O3: the reset state is a fresh one with legal parameters. -/
theorem resetIsGood : Obligations.ResetIsGood := State.good_fresh (p := Params.default) (by decide) [] 0

theorem desc_fresh (k : Nat) : (State.fresh p inputs draw).desc k = Desc.zero := by
  simp only [State.desc, State.fresh, List.getD_eq_getElem?_getD, List.getElem?_replicate]
  split_ifs <;> rfl

theorem reads_fresh_zero : ∀ off ∈ [0x020, 0x024, 0x02C, 0x030, 0x034, 0x038, 0x040, 0x044, 0x048],
    (State.fresh p inputs draw).reads off 0x00000000 := by
  intro off h
  simp only [List.mem_cons, List.not_mem_nil, or_false] at h
  rcases h with rfl | rfl | rfl | rfl | rfl | rfl | rfl | rfl | rfl <;> exact memRead_reg (by decide) (by decide) rfl

theorem reads_fresh_desc (hp : p.stageMax ≤ 16) {k : Nat} (hk : k < p.stageMax) : ∀ r ∈ [0, 4, 8, 12],
    (State.fresh p inputs draw).reads (0x100 + 16 * k + r) 0x00000000 := by
  intro r h
  have hr : ∀ q ∈ [0, 4, 8, 12], q < 16 ∧ q % 4 = 0 ∧ Desc.zero.read q = 0 := by decide
  obtain ⟨hr16, hr4, hr0⟩ := hr r h
  refine memRead_reg (by omega) (by omega) ?_
  rw [regRead_stage hk hr16, desc_fresh, hr0]

/-- Settles O1: either state is a fresh one; and a descriptor of zeros has a kind that validation refuses. -/
theorem resetValues : Obligations.ResetValues := by
  intro s t hp h
  obtain ⟨p, inputs, draw, hwf, rfl⟩ : ∃ p inputs draw, p.wf ∧ t = State.fresh p inputs draw := by
    rcases h with rfl | h
    · exact ⟨_, _, _, by decide, State.reset_eq_fresh⟩
    · rw [step_reset_cons rfl] at h
      cases h
      exact ⟨_, _, _, hp, State.powerReset_eq_fresh _⟩
  obtain ⟨-, -, -, -, hmax⟩ := hwf
  refine ⟨reads_hardwired _, reads_fresh_zero, fun k hk => reads_fresh_desc hmax hk, rfl, ?_⟩
  intro u j hw hj hd
  have hzero : validateDesc Desc.zero = some 0 := by decide
  rw [coreTurn_validate hw hj, hd, hzero]

/-- Settles O2: after the reset step no command runs, so the Core's turn is idle. -/
theorem resetAbandonsCommand : Obligations.ResetAbandonsCommand := fun _ =>
  ⟨_, step_reset_cons rfl, rfl, rfl, rfl, rfl, rfl, rfl, rfl, rfl, rfl, fun _ => rfl, coreTurn_idle rfl, rfl, rfl⟩

end Sys2Proof.Machine
end

section
/-! SUPPORT. Every step keeps a good state good (10_state.md R34, R50-R59; 42_lzw.md R270; 45_rc4.md R365). A step is a turn of the
Core, a host access or a reset (`step_cases`): the units' working states are the business of `runsGood_turn`, and what is left is
what a host write and the completion do to the rest of the state. -/

namespace Sys2Proof.Machine

variable {s t : State}

/-! ## Good states, operation by operation -/

/-- CTRL, the queue, the response and the draw counter are no part of the invariant. -/
theorem State.Good.withExternals (hg : s.Good) (irqEn : Bool) (inputs : List Event) (resp : Option Response) (draw : Nat) :
    ({ s with irqEn := irqEn, inputs := inputs, resp := resp, draw := draw } : State).Good :=
  ⟨hg.params, hg.stages, hg.memWf, hg.memInside, hg.notBusyAndDone, hg.busyPhase, hg.busyWork, hg.busyClean, hg.idleClean,
    hg.outLen, hg.record, hg.work⟩

theorem State.Good.work_eq_none (hg : s.Good) (hb : s.busy = false) : s.work = .none := by
  by_contra hw
  exact Bool.false_ne_true (hb ▸ hg.busyWork.mpr hw)

theorem State.Good.busy_of_work (hg : s.Good) {w : Work} (h : s.work = w) (hw : w ≠ .none) : s.busy = true :=
  hg.busyWork.mpr (h ▸ hw)

/-- DONE may fall at any time (10_state.md R34). -/
theorem State.Good.acknowledge (hg : s.Good) (v : Word) : (s.acknowledge v).Good := by
  unfold State.acknowledge
  split_ifs
  · exact ⟨hg.params, hg.stages, hg.memWf, hg.memInside, fun h => Bool.false_ne_true h.2, hg.busyPhase, hg.busyWork,
      hg.busyClean, hg.idleClean, hg.outLen, hg.record, hg.work⟩
  · exact hg

/-- A new command finds the record clear and nothing listed in OUT_BUF (40_pipeline.md R150). -/
theorem State.Good.startCommand (hg : s.Good) (w : Word) : (s.startCommand w).Good where
  params := hg.params
  stages := hg.stages
  memWf := Memory.wf_clearOut hg.memWf
  memInside := fun c hc => hg.memInside c (Memory.mem_clearOut.mp hc).1
  notBusyAndDone := fun h => Bool.false_ne_true h.2
  busyPhase := iff_of_true rfl rfl
  busyWork := iff_of_true rfl Work.noConfusion
  busyClean := fun _ => ⟨rfl, rfl, rfl, rfl, fun _ hc => (Memory.mem_clearOut.mp hc).2⟩
  idleClean := fun h => Bool.noConfusion h
  outLen := Nat.zero_le _
  record := .inl ⟨rfl, rfl, rfl⟩
  work := trivial

/-- While no command runs, the next command's inputs are free. -/
theorem State.Good.inputsWritten (hg : s.Good) (hb : s.busy = false) (h : s.InputsWritten t) : t.Good := by
  obtain ⟨hl, ht⟩ := h
  obtain ⟨inLen, keyLen, nstages, stages, rfl⟩ :
      ∃ inLen keyLen nstages stages, t = { s with inLen := inLen, keyLen := keyLen, nstages := nstages, stages := stages } :=
    ⟨_, _, _, _, ht⟩
  exact ⟨hg.params, hl.trans hg.stages, hg.memWf, hg.memInside, hg.notBusyAndDone, hg.busyPhase, hg.busyWork, hg.busyClean,
    hg.idleClean, hg.outLen, hg.record, by simp only [State.workGood, hg.work_eq_none hb]⟩

/-- A write to KEY_BUF or IN_BUF lists bytes inside the window only (20_memory.md R86). -/
theorem State.Good.withBuffer (hg : s.Good) (hb : s.busy = false) {off : Nat} {n : Width} (v : Nat)
    (hw : s.writableBuffer off n.bytes = true) :
    ({ s with mem := s.mem.setBytes off (leBytes n.bytes v) } : State).Good where
  params := hg.params
  stages := hg.stages
  memWf := Memory.wf_setBytes off _ hg.memWf
  memInside := by
    intro c hc
    rcases Memory.mem_setBytes hc with ⟨h1, h2⟩ | hc
    · rw [leBytes_length] at h2
      rcases writableBuffer_iff.mp hw with ⟨-, h3, h4⟩ | ⟨-, h3, h4⟩
      · exact .inl ⟨h3.trans h1, h2.trans_le h4⟩
      · exact .inr (.inl ⟨h3.trans h1, h2.trans_le h4⟩)
    · exact hg.memInside c hc
  notBusyAndDone := hg.notBusyAndDone
  busyPhase := hg.busyPhase
  busyWork := hg.busyWork
  busyClean := fun h => absurd (hb ▸ h) Bool.false_ne_true
  idleClean := hg.idleClean
  outLen := hg.outLen
  record := hg.record
  work := by simp only [State.workGood, hg.work_eq_none hb]

theorem State.Good.memWrite (hg : s.Good) (off : Nat) (n : Width) (v : Word) : (s.memWrite off n v).1.Good := by
  rcases memWrite_cases s off n v with h | ⟨-, h⟩ | ⟨-, h⟩ | ⟨hb, ⟨-, h⟩ | h | ⟨hw, h⟩⟩
  · rw [h]; exact hg
  · rw [h]; exact hg.withExternals _ s.inputs s.resp s.draw
  · rw [h]; exact hg.acknowledge v
  · rw [h]; exact hg.startCommand v
  · exact hg.inputsWritten hb h
  · rw [h]; exact hg.withBuffer hb _ hw

theorem State.Good.access (hg : s.Good) (a : Access) : (s.access a).Good := by
  rcases access_cases s a with h | ⟨_, off, n, -, -, -, h⟩ | ⟨_, off, n, v, -, -, -, h⟩ <;> rw [h]
  · exact hg.withExternals s.irqEn s.inputs none s.draw
  · rw [memRead_state]; exact hg.withExternals s.irqEn s.inputs _ _
  · have hw := hg.memWrite off n v
    exact hw.withExternals _ _ _ _

/-! ## The Core's turns -/

/-- A turn inside a command changes working state only, and leaves that good. -/
theorem State.Good.moved (hg : s.Good) (hb : s.busy = true) (hm : s.Moved t) (hr : t.RunsGood) : t.Good := by
  obtain ⟨w, k, cur, draw, rfl⟩ : ∃ w k cur draw, t = { s with work := w, k := k, cur := cur, draw := draw } := ⟨_, _, _, _, hm⟩
  exact ⟨hg.params, hg.stages, hg.memWf, hg.memInside, hg.notBusyAndDone, hg.busyPhase, iff_of_true hb hr.2, hg.busyClean,
    fun h => absurd (h ▸ hb) Bool.false_ne_true, hg.outLen, hg.record, hr.1⟩

/-- A successful completion: the output fits in OUT_BUF, and the record is clear since the command's start. -/
theorem State.Good.complete_ok (hg : s.Good) {out : List Byte} (h : s.work = .finish (.ok out)) : (s.complete (.ok out)).Good := by
  have hb := hg.busy_of_work h Work.noConfusion
  obtain ⟨-, hcode, hstage, hinfo, -⟩ := hg.busyClean hb
  have hout : out.length ≤ s.params.outCap := by simpa only [State.workGood, h, Result.Good] using hg.work
  exact {
    params := hg.params
    stages := hg.stages
    memWf := Memory.wf_storeOut out hg.memWf
    memInside := by
      intro c hc
      rcases List.mem_append.mp hc with hc | hc
      · exact hg.memInside c (Memory.mem_clearOut.mp hc).1
      · obtain ⟨h1, h2⟩ := Memory.mem_cellsFrom hc
        exact .inr (.inr ⟨h1, lt_of_lt_of_le h2 (Nat.add_le_add_left hout _)⟩)
    notBusyAndDone := fun h => Bool.false_ne_true h.1
    busyPhase := iff_of_false Bool.false_ne_true Phase.noConfusion
    busyWork := iff_of_false Bool.false_ne_true fun h => h rfl
    busyClean := fun h => Bool.noConfusion h
    idleClean := fun _ => ⟨rfl, rfl, rfl⟩
    outLen := le_trans (by rw [State.complete, BitVec.toNat_ofNat]; exact Nat.mod_le _ _) hout
    record := .inl ⟨hcode, hstage, hinfo⟩
    work := trivial }

/-- A failed completion: OUT_LEN is still 0 from the command's start, and the code is one of 60_exceptions.md R380. -/
theorem State.Good.complete_err (hg : s.Good) {e : ErrCode} {k : Option Nat} {info : Word} (h : s.work = .finish (.err e k info)) :
    (s.complete (.err e k info)).Good := by
  have hb := hg.busy_of_work h Work.noConfusion
  exact {
    params := hg.params
    stages := hg.stages
    memWf := hg.memWf
    memInside := hg.memInside
    notBusyAndDone := fun h => Bool.false_ne_true h.1
    busyPhase := iff_of_false Bool.false_ne_true Phase.noConfusion
    busyWork := iff_of_false Bool.false_ne_true fun h => h rfl
    busyClean := fun h => Bool.noConfusion h
    idleClean := fun _ => ⟨rfl, rfl, rfl⟩
    outLen := hg.outLen
    record := .inr ⟨(hg.busyClean hb).1, e, rfl⟩
    work := trivial }

theorem State.Good.coreTurn (hg : s.Good) (h : coreTurn s = .next t) : t.Good := by
  by_cases hidle : s.work = .none
  · rw [coreTurn_idle hidle] at h; cases h; exact hg
  by_cases hf : ∃ r, s.work = .finish r
  · obtain ⟨r, hr⟩ := hf
    rw [coreTurn_finish hr] at h
    cases h
    cases r with
    | ok out => exact hg.complete_ok hr
    | err e k info => exact hg.complete_err hr
  · have hf' : ∀ r, s.work ≠ .finish r := not_exists.mp hf
    obtain ⟨u, hu, hruns⟩ := runsGood_turn hg hidle hf'
    rw [h] at hu
    cases hu
    exact hg.moved (hg.busyWork.mpr hidle) (coreTurn_moved h hf') hruns

/-- Settles O23: by the kinds of step, each of which keeps the invariant. -/
theorem stepKeepsGood : Obligations.StepKeepsGood := by
  intro s t hg h
  rcases step_cases h with ⟨-, h⟩ | ⟨rest, -, h⟩ | ⟨a, rest, -, rfl⟩ | ⟨rest, -, rfl⟩
  · exact hg.coreTurn h
  · exact (hg.withExternals s.irqEn rest s.resp s.draw).coreTurn h
  · exact (hg.withExternals s.irqEn rest s.resp s.draw).access a
  · exact State.good_fresh hg.params rest (s.draw + 1)

end Sys2Proof.Machine
end

section
/-! SUPPORT. The flags BUSY, DONE and ERROR, and the interrupt line (10_state.md R34, R48, R49). -/

namespace Sys2Proof.Machine

variable {s t : State}

theorem complete_busy (s : State) (r : Result) : (s.complete r).busy = false := by cases r <;> rfl

theorem complete_done (s : State) (r : Result) : (s.complete r).done = true := by cases r <;> rfl

theorem complete_irq (s : State) (r : Result) : (s.complete r).irq = s.irqEn := by cases r <;> exact Bool.true_and _

/-- No error has the code 0, which stands for none (60_exceptions.md R380). -/
theorem ErrCode.toByte_ne_zero (e : ErrCode) : e.toByte ≠ 0 := by cases e <;> decide

theorem errorFlag_iff : s.errorFlag = true ↔ s.errCode ≠ 0 := bne_iff_ne

theorem errorFlag_complete_err (s : State) (e : ErrCode) (k : Option Nat) (info : Word) :
    (s.complete (.err e k info)).errorFlag = true := errorFlag_iff.mpr e.toByte_ne_zero

/-- A success finds ERR_CODE 0 from its command's start. -/
theorem errorFlag_complete_ok (hg : s.Good) {out : List Byte} (h : s.work = .finish (.ok out)) :
    (s.complete (.ok out)).errorFlag = false := by
  obtain ⟨-, hcode, -⟩ := hg.busyClean (hg.busy_of_work h Work.noConfusion)
  exact bne_eq_false_iff_eq.mpr hcode

/-- BUSY, DONE and ERR_CODE, of which ERROR is made, are as before. -/
def State.SameFlags (s t : State) : Prop := t.busy = s.busy ∧ t.done = s.done ∧ t.errCode = s.errCode

theorem State.Moved.sameFlags (h : s.Moved t) : s.SameFlags t := by
  unfold State.Moved at h; rw [h]; exact ⟨rfl, rfl, rfl⟩

theorem State.InputsWritten.sameFlags (h : s.InputsWritten t) : s.SameFlags t := by
  rw [h.2]; exact ⟨rfl, rfl, rfl⟩

theorem memRead_sameFlags (s : State) (off : Nat) (n : Width) : s.SameFlags (s.memRead off n).1 := by
  rw [memRead_state]; exact ⟨rfl, rfl, rfl⟩

/-- Of all registers and buffers only STATUS and CMD reach a flag (10_state.md R48). -/
theorem memWrite_sameFlags {off : Nat} (ho : ¬(off = 0x024 ∨ off = 0x028)) (n : Width) (v : Word) :
    s.SameFlags (s.memWrite off n v).1 := by
  rcases memWrite_cases s off n v with h | ⟨-, h⟩ | ⟨hstatus, -⟩ | ⟨-, ⟨hcmd, -⟩ | h | ⟨-, h⟩⟩
  · rw [h]; exact ⟨rfl, rfl, rfl⟩
  · rw [h]; exact ⟨rfl, rfl, rfl⟩
  · exact absurd (.inl hstatus) ho
  · exact absurd (.inr hcmd) ho
  · exact h.sameFlags
  · rw [h]; exact ⟨rfl, rfl, rfl⟩

/-- Settles O5: bit by bit for the reads, register by register for the writes, and the invariant for the last clause. -/
theorem statusRegister : Obligations.StatusRegister := by
  refine ⟨fun s => ⟨_, reads_status s, ?_, ?_, ?_, fun i hi => ?_⟩, memWrite_status, fun s w hb => ?_, fun s r h => ?_, ?_⟩
  · exact statusWord_getLsbD s 0
  · exact statusWord_getLsbD s 1
  · rw [statusWord_getLsbD]; exact errorFlag_iff
  · rw [statusWord_getLsbD]; exact List.getD_eq_default _ _ hi
  · rw [memWrite_cmd hb]; exact ⟨rfl, rfl⟩
  · exact ⟨_, coreTurn_finish h, complete_busy s r, complete_done s r⟩
  · exact fun s t hg h => (stepKeepsGood s t hg h).notBusyAndDone

/-- Settles O6: the five events one by one; and what the other turns, writes and reads can change has no flag in it. -/
theorem flagEvents : Obligations.FlagEvents := by
  intro s hg
  refine ⟨⟨_, step_reset_cons rfl, rfl, rfl, rfl⟩, fun w hb => ⟨_, memWrite_cmd hb w, rfl, rfl, rfl⟩, fun out h => ?_,
    fun e k info h => ?_, fun v hv => ⟨_, memWrite_status s v, rfl, ?_, rfl⟩, fun t h hf => (coreTurn_moved h hf).sameFlags,
    fun off n v ho => memWrite_sameFlags ho n v, memRead_sameFlags s⟩
  · exact ⟨_, coreTurn_finish h, complete_busy _ _, complete_done _ _, errorFlag_complete_ok hg h⟩
  · exact ⟨_, coreTurn_finish h, complete_busy _ _, complete_done _ _, errorFlag_complete_err _ _ _ _⟩
  · simp [hv]

/-- Settles O7: the two bits as read, then each event. -/
theorem interruptLine : Obligations.InterruptLine := by
  intro s
  refine ⟨fun v c hv hc => ?_, fun v hv => ?_, fun v hv => ?_, fun w hb => ?_, fun r h => ⟨_, coreTurn_finish h, complete_irq s r⟩⟩
  · rw [reads_unique hv (reads_status s), reads_unique hc (reads_ctrl s), statusWord_getLsbD, ctrlWord_getLsbD]; rfl
  · rw [memWrite_status, hv]; simp [State.irq]
  · rw [memWrite_ctrl, hv]; exact ⟨Bool.and_false _, rfl⟩
  · rw [memWrite_cmd hb]; rfl

end Sys2Proof.Machine
end

section
/-! SUPPORT. Writes to the read/write registers (10_state.md R47): each is read back under its mask, and no other register reads
otherwise than before. -/

namespace Sys2Proof.Machine

variable {s : State} {off off' : Nat} {v : Word}

/-! ## The four registers of a descriptor -/

/-- The implemented bits of a descriptor's register (10_state.md R43). -/
def Desc.writeMask (r : Nat) : Word := if r = 0 then 0x000000FF else if r = 4 then 0x0000000F else 0xFFFFFFFF

theorem setWidth_setWidth_eq_and (v : Word) : (v.setWidth 8).setWidth 32 = v &&& 0x000000FF := by
  have hmask : v.toNat &&& (0x000000FF : Word).toNat = v.toNat % 256 := Nat.and_two_pow_sub_one_eq_mod v.toNat 8
  apply BitVec.eq_of_toNat_eq
  rw [BitVec.toNat_and, hmask, BitVec.toNat_setWidth, BitVec.toNat_setWidth]
  omega

theorem Desc.read_write_self (d : Desc) (v : Word) {r : Nat} (hr : r ∈ [0, 4, 8, 12]) :
    (d.write r v).read r = v &&& Desc.writeMask r := by
  simp only [List.mem_cons, List.not_mem_nil, or_false] at hr
  rcases hr with rfl | rfl | rfl | rfl
  · exact setWidth_setWidth_eq_and v
  · exact ofNat_natOfLsb_getLsbD v (m := 4) (by decide)
  · exact (BitVec.and_allOnes).symm
  · exact (BitVec.and_allOnes).symm

theorem Desc.read_write_ne (d : Desc) (v : Word) {r q : Nat} (hr : r ∈ [0, 4, 8, 12]) (hq : q ∈ [0, 4, 8, 12]) (h : q ≠ r) :
    (d.write r v).read q = d.read q := by
  simp only [List.mem_cons, List.not_mem_nil, or_false] at hr hq
  rcases hr with rfl | rfl | rfl | rfl
  · unfold Desc.read; rw [if_neg h, if_neg h]; rfl
  · unfold Desc.read; rw [if_neg h, if_neg h]; rfl
  · unfold Desc.read; rw [if_neg h, if_neg h]; rfl
  · obtain rfl | rfl | rfl := (by tauto : q = 0 ∨ q = 4 ∨ q = 8) <;> rfl

/-! ## What the other registers read -/

theorem regRead_withIrqEn (b : Bool) (h : off' ≠ 0x020) : ({ s with irqEn := b } : State).regRead off' = s.regRead off' := by
  unfold State.regRead; rw [if_neg h, if_neg h]; rfl

theorem regRead_withInLen (h : off' ≠ 0x02C) : ({ s with inLen := v } : State).regRead off' = s.regRead off' := by
  unfold State.regRead; rw [if_neg h, if_neg h]; rfl

theorem regRead_withKeyLen (h : off' ≠ 0x034) : ({ s with keyLen := v } : State).regRead off' = s.regRead off' := by
  unfold State.regRead; rw [if_neg h, if_neg h]; rfl

theorem regRead_withNstages (h : off' ≠ 0x038) : ({ s with nstages := v } : State).regRead off' = s.regRead off' := by
  unfold State.regRead; rw [if_neg h, if_neg h]; rfl

/-- Every aligned offset of an implemented descriptor is a register of it. -/
theorem stageOffset_cases (h : 0x100 ≤ off ∧ off < 0x100 + 16 * s.params.stageMax) (ha : off % 4 = 0) :
    ∃ k r, k < s.params.stageMax ∧ r ∈ [0, 4, 8, 12] ∧ off = 0x100 + 16 * k + r := by
  refine ⟨(off - 0x100) / 16, off % 16, by omega, ?_, by omega⟩
  simp only [List.mem_cons, List.not_mem_nil, or_false]
  omega

theorem regRead_setDesc_self {k r : Nat} (d : Desc) (hl : s.stages.length = s.params.stageMax) (hk : k < s.params.stageMax)
    (hr : r < 16) : ({ s with stages := s.stages.set k d } : State).regRead (0x100 + 16 * k + r) = some (d.read r) := by
  refine (regRead_stage (s := { s with stages := s.stages.set k d }) hk hr).trans ?_
  simp [State.desc, hl, hk]

theorem regRead_setDesc_ne {k j r : Nat} (d : Desc) (hj : j < s.params.stageMax) (hr : r < 16) (h : k ≠ j) :
    ({ s with stages := s.stages.set k d } : State).regRead (0x100 + 16 * j + r) = s.regRead (0x100 + 16 * j + r) := by
  refine (regRead_stage (s := { s with stages := s.stages.set k d }) hj hr).trans ?_
  rw [regRead_stage hj hr]
  simp [State.desc, List.getElem?_set_ne h]

theorem regRead_withStages {stages : List Desc} (h : s.isStageOffset off' = false) :
    ({ s with stages := stages } : State).regRead off' = s.regRead off' := by
  have h' : ¬s.isStageOffset off' = true := h ▸ Bool.false_ne_true
  have h'' : ¬({ s with stages := stages } : State).isStageOffset off' = true := h'
  unfold State.regRead; rw [if_neg h', if_neg h'']; rfl

/-- A write to one register of a descriptor: the other registers, of this descriptor and of others, read as before. -/
theorem regRead_withDesc {k r : Nat} (hl : s.stages.length = s.params.stageMax) (hk : k < s.params.stageMax)
    (hr : r ∈ [0, 4, 8, 12]) (ha : off' % 4 = 0) (h : off' ≠ 0x100 + 16 * k + r) :
    ({ s with stages := s.stages.set k ((s.desc k).write r v) } : State).regRead off' = s.regRead off' := by
  have hlt : ∀ q ∈ [0, 4, 8, 12], q < 16 := by decide
  cases hs : s.isStageOffset off' with
  | false => exact regRead_withStages hs
  | true =>
    obtain ⟨j, q, hj, hq, rfl⟩ := stageOffset_cases (s := s) (by simpa [State.isStageOffset] using hs) ha
    by_cases hkj : k = j
    · subst hkj
      rw [regRead_setDesc_self _ hl hk (hlt q hq), regRead_stage hk (hlt q hq), Desc.read_write_ne _ v hr hq fun hqr => h (hqr ▸ rfl)]
    · exact regRead_setDesc_ne _ hj (hlt q hq) hkj

/-! ## A write to a read/write register -/

/-- `t` is `s` after `v` was stored at `off` under `mask`: read back there, and no other register reads otherwise; what the
read/write registers are made of aside, nothing has changed. -/
structure State.Stored (s : State) (off : Nat) (v mask : Word) (t : State) : Prop where
  readBack : t.regRead off = some (v &&& mask)
  others : ∀ off', off' ≠ off → off' % 4 = 0 → t.regRead off' = s.regRead off'
  frame : t = { s with irqEn := t.irqEn, inLen := t.inLen, keyLen := t.keyLen, nstages := t.nstages, stages := t.stages }

/-- Each read/write register in turn. -/
theorem regWrite_stored {mask : Word} (hp : s.params.wf) (hl : s.stages.length = s.params.stageMax)
    (h : s.writeMask off = some mask) (v : Word) :
    off < 0x1000 ∧ off % 4 = 0 ∧ ∃ t, s.regWrite off v = some t ∧ s.Stored off v mask t := by
  obtain ⟨-, -, -, -, hmax⟩ := hp
  have hall : some v = some (v &&& 0xFFFFFFFF) := congrArg some BitVec.and_allOnes.symm
  unfold State.writeMask at h
  rcases ite_eq_iff.mp h with ⟨rfl, h⟩ | ⟨-, h⟩
  · cases h
    exact ⟨by decide, by decide, _, rfl, congrArg some (ofNat_natOfLsb_getLsbD v (m := 1) (by decide)),
      fun _ hne _ => regRead_withIrqEn _ hne, rfl⟩
  rcases ite_eq_iff.mp h with ⟨hlen, h⟩ | ⟨-, h⟩
  · cases h
    rcases hlen with rfl | rfl | rfl
    · exact ⟨by decide, by decide, _, rfl, hall, fun _ hne _ => regRead_withInLen hne, rfl⟩
    · exact ⟨by decide, by decide, _, rfl, hall, fun _ hne _ => regRead_withKeyLen hne, rfl⟩
    · exact ⟨by decide, by decide, _, rfl, hall, fun _ hne _ => regRead_withNstages hne, rfl⟩
  rcases ite_eq_iff.mp h with ⟨⟨hlo, hhi, ha⟩, h⟩ | ⟨-, h⟩
  · obtain ⟨k, r, hk, hr, rfl⟩ := stageOffset_cases ⟨hlo, hhi⟩ ha
    have hlt : ∀ q ∈ [0, 4, 8, 12], q < 16 := by decide
    have hr16 := hlt r hr
    have hmask : mask = Desc.writeMask r := by
      have hmod : (0x100 + 16 * k + r) % 16 = r := by omega
      rw [hmod] at h
      exact (Option.some.inj h).symm
    refine ⟨by omega, ha, _, regWrite_stage hk hr16, ?_, fun _ hne ha' => regRead_withDesc hl hk hr ha' hne, rfl⟩
    rw [regRead_setDesc_self _ hl hk hr16, Desc.read_write_self _ v hr, hmask]
  · cases h

/-- Settles O8: the stored registers by `regWrite_stored`, the read-only ones, the refusals while a command runs, the reads. -/
theorem registerWrites : Obligations.RegisterWrites := by
  intro s hp hl
  refine ⟨fun off v mask hm hb => ?_, fun off h v hb => ?_, fun off n v hb ho => memWrite_busy hb ho,
    fun off n h => memRead_page h n⟩
  · obtain ⟨hpage, ha, t, hw, hback, hothers, hframe⟩ := regWrite_stored hp hl hm v
    refine ⟨t, memWrite_reg hpage ha (hb.imp_right .inl) hw, reads_iff.mpr ⟨hpage, ha, hback⟩, fun off' u hne hu => ?_, hframe⟩
    obtain ⟨hpage', ha', hu⟩ := reads_iff.mp hu
    exact reads_iff.mpr ⟨hpage', ha', (hothers off' hne ha').trans hu⟩
  · rw [memWrite_readOnly h, hb]; rfl

end Sys2Proof.Machine
end

section
/-! SUPPORT. The stage index (10_state.md R50; 40_pipeline.md R166): the start of the stages and the completion apart, every turn
keeps it or ends a stage. That the index never passes NSTAGES is then the invariant's. -/

namespace Sys2Proof.Machine

variable {s t : State}

/-- The stage index is as before, or a stage has ended and the next dispatch is reached. -/
def State.KeepsOrEndsStage (s t : State) : Prop := t.k = s.k ∨ (t.k = s.k + 1 ∧ t.work = .stage)

/-! ## What leads from one state to the next -/

theorem keepsOrEndsStage_withWork (s : State) (w : Work) : s.KeepsOrEndsStage (s.withWork w) := .inl rfl

theorem keepsOrEndsStage_endStage (s : State) (out : List Byte) : s.KeepsOrEndsStage (s.endStage out) := by
  rcases endStage_cases s out with ⟨-, h⟩ | ⟨-, h⟩ <;> rw [h]
  · exact .inr ⟨rfl, rfl⟩
  · exact .inl rfl

theorem keepsOrEndsStage_settle {σ : Type} (s : State) (wrap : σ → Work) (r : UnitStep σ) :
    s.KeepsOrEndsStage (s.settle wrap r) := by
  cases r with
  | more st => exact keepsOrEndsStage_withWork s _
  | done out => exact keepsOrEndsStage_endStage s out
  | fail e info => exact keepsOrEndsStage_withWork s _

theorem keepsOrEndsStage_inflateNext (s : State) (r : Option InflateState) : s.KeepsOrEndsStage (s.inflateNext r) := by
  cases r <;> exact keepsOrEndsStage_withWork s _

theorem keepsOrEndsStage_ite {p : Prop} [Decidable p] {u : State} (ht : s.KeepsOrEndsStage t) (hu : s.KeepsOrEndsStage u) :
    s.KeepsOrEndsStage (if p then t else u) := by
  split
  · exact ht
  · exact hu

theorem keepsOrEndsStage_withInput {f : State → State} (hf : s.KeepsOrEndsStage (f s)) :
    s.KeepsOrEndsStage (State.withInput f s) := keepsOrEndsStage_ite (.inl rfl) hf

theorem keepsOrEndsStage_startUnit (s : State) (d : Desc) : s.KeepsOrEndsStage (s.startUnit d) :=
  keepsOrEndsStage_ite (keepsOrEndsStage_inflateNext s _) <| keepsOrEndsStage_ite (.inl rfl) <|
    keepsOrEndsStage_ite (.inl rfl) <| keepsOrEndsStage_ite (.inl rfl) (keepsOrEndsStage_endStage s _)

theorem keepsOrEndsStage_startPng (s : State) (st : PredictState) : s.KeepsOrEndsStage (s.startPng st) := by
  unfold State.startPng
  cases st.columns with
  | none => exact .inl rfl
  | some c => exact keepsOrEndsStage_ite (.inl rfl) (keepsOrEndsStage_ite (.inl rfl) (.inl rfl))

theorem keepsOrEndsStage_rc4Turn (s : State) (st : Rc4State) : s.KeepsOrEndsStage (s.rc4Turn st) := by
  refine keepsOrEndsStage_ite (.inl rfl) ?_
  cases st.data[st.out.length]? with
  | some x => exact .inl rfl
  | none => exact keepsOrEndsStage_ite (.inl rfl) (.inl rfl)

/-! ## The turns, unit by unit -/

theorem keepsOrEndsStage_command (h : s.work = .command) : ∃ t, coreTurn s = .next t ∧ s.KeepsOrEndsStage t := by
  rw [coreTurn_command h]
  split_ifs
  · exact ⟨_, onCommand_eq _ h, keepsOrEndsStage_withInput (keepsOrEndsStage_ite (.inl rfl) (.inl rfl))⟩
  · exact ⟨_, onCommand_eq _ h, keepsOrEndsStage_withInput (keepsOrEndsStage_ite (.inl rfl) (.inl rfl))⟩
  · exact ⟨_, onCommand_eq _ h, keepsOrEndsStage_withInput (keepsOrEndsStage_ite (.inl rfl) (.inl rfl))⟩
  · exact ⟨_, onCommand_eq _ h, .inl rfl⟩

theorem keepsOrEndsStage_validate {j : Nat} (h : s.work = .validate j) (hj : j < s.nstages.toNat) :
    ∃ t, coreTurn s = .next t ∧ s.KeepsOrEndsStage t := by
  refine ⟨_, coreTurn_validate h hj, ?_⟩
  cases validateDesc (s.desc j) <;> exact .inl rfl

theorem keepsOrEndsStage_stage (h : s.work = .stage) : ∃ t, coreTurn s = .next t ∧ s.KeepsOrEndsStage t := by
  rcases Nat.lt_or_ge s.k s.nstages.toNat with hk | hk
  · refine ⟨_, coreTurn_stage h hk, ?_⟩
    cases validateDesc (s.desc s.k) with
    | some info => exact .inl rfl
    | none => exact keepsOrEndsStage_startUnit s _
  · exact ⟨_, coreTurn_stage_end h hk, keepsOrEndsStage_ite (.inl rfl) (.inl rfl)⟩

theorem keepsOrEndsStage_inflate {st : InflateState} (h : s.work = .inflate st) :
    ∃ t, coreTurn s = .next t ∧ s.KeepsOrEndsStage t := by
  cases hm : st.mode with
  | header => exact ⟨_, coreTurn_inflate_header h hm, keepsOrEndsStage_inflateNext s _⟩
  | codeLens cl hlit hdist lens =>
    rcases Nat.lt_or_ge lens.length (hlit + hdist) with hl | hl
    · exact ⟨_, coreTurn_inflate_codeLen h hm hl, keepsOrEndsStage_inflateNext s _⟩
    · exact ⟨_, coreTurn_inflate_codes h hm hl, keepsOrEndsStage_inflateNext s _⟩
  | symbols => exact ⟨_, coreTurn_inflate_symbol h hm, keepsOrEndsStage_inflateNext s _⟩
  | distance n => exact ⟨_, coreTurn_inflate_distance h hm, keepsOrEndsStage_inflateNext s _⟩
  | trailer => exact ⟨_, coreTurn_inflate_trailer h hm, keepsOrEndsStage_ite (.inl rfl) (.inl rfl)⟩

theorem keepsOrEndsStage_predict {st : PredictState} (h : s.work = .predict st) :
    ∃ t, coreTurn s = .next t ∧ s.KeepsOrEndsStage t :=
  ⟨_, coreTurn_predict h, keepsOrEndsStage_ite (keepsOrEndsStage_endStage s _)
    (keepsOrEndsStage_ite (keepsOrEndsStage_startPng s st) (.inl rfl))⟩

theorem keepsOrEndsStage_png {st : PngState} (h : s.work = .png st) : ∃ t, coreTurn s = .next t ∧ s.KeepsOrEndsStage t := by
  cases hf : st.finished with
  | true => exact ⟨_, coreTurn_png_end h hf, keepsOrEndsStage_endStage s _⟩
  | false => exact ⟨_, coreTurn_png h hf, keepsOrEndsStage_settle s _ _⟩

theorem keepsOrEndsStage_lzw {st : LzwState} (hg : st.Good) (h : s.work = .lzw st) :
    ∃ t, coreTurn s = .next t ∧ s.KeepsOrEndsStage t := by
  obtain ⟨-, -, hw, -⟩ := hg
  rcases Nat.lt_or_ge (8 * s.cur.length) (st.pos + st.w) with ht | ht
  · exact ⟨_, coreTurn_lzw_truncated h (by omega) ht, .inl rfl⟩
  · exact ⟨_, coreTurn_lzw h ht, keepsOrEndsStage_settle s _ _⟩

theorem keepsOrEndsStage_a85 {st : A85State} (h : s.work = .a85 st) : ∃ t, coreTurn s = .next t ∧ s.KeepsOrEndsStage t := by
  cases hc : st.t.find? isWhitespace with
  | some c => exact ⟨_, (coreTurn_a85_ws h hc).trans (onA85_eq _ h), keepsOrEndsStage_settle s _ _⟩
  | none =>
    cases hi : st.t[st.i]? with
    | none =>
      exact ⟨_, (coreTurn_a85_end h hc (List.getElem?_eq_none_iff.mp hi)).trans (onA85_eq _ h), keepsOrEndsStage_settle s _ _⟩
    | some c => exact ⟨_, coreTurn_a85 h hc hi, keepsOrEndsStage_settle s _ _⟩

theorem keepsOrEndsStage_ahx {st : AhxState} (h : s.work = .ahx st) : ∃ t, coreTurn s = .next t ∧ s.KeepsOrEndsStage t := by
  cases hi : s.cur[st.i]? with
  | none => exact ⟨_, (coreTurn_ahx_end h (List.getElem?_eq_none_iff.mp hi)).trans (onAhx_eq _ h), keepsOrEndsStage_settle s _ _⟩
  | some c => exact ⟨_, coreTurn_ahx h hi, keepsOrEndsStage_settle s _ _⟩

/-- Every turn but a completion and the one that ends validation keeps the index or ends a stage. -/
theorem coreTurn_keepsOrEndsStage (hg : s.Good) (hf : ∀ r, s.work ≠ .finish r)
    (hv : ∀ j, s.work = .validate j → j < s.nstages.toNat) : ∃ t, coreTurn s = .next t ∧ s.KeepsOrEndsStage t := by
  have hw := hg.work
  rw [State.workGood] at hw
  cases h : s.work with
  | none => exact ⟨s, coreTurn_idle h, .inl rfl⟩
  | command => exact keepsOrEndsStage_command h
  | validate j => exact keepsOrEndsStage_validate h (hv j h)
  | stage => exact keepsOrEndsStage_stage h
  | inflate st => exact keepsOrEndsStage_inflate h
  | predict st => exact keepsOrEndsStage_predict h
  | png st => exact keepsOrEndsStage_png h
  | lzw st => rw [h] at hw; exact keepsOrEndsStage_lzw hw.2 h
  | a85 st => exact keepsOrEndsStage_a85 h
  | ahx st => exact keepsOrEndsStage_ahx h
  | rc4 st => exact ⟨_, coreTurn_rc4 h, keepsOrEndsStage_rc4Turn s st⟩
  | finish r => exact absurd h (hf r)

/-! ## The index and NSTAGES -/

/-- At a dispatch, or at the end of the chain, the index is at most NSTAGES. -/
theorem State.Good.k_le_nstages (hg : s.Good) (h : s.work = .stage) : s.k ≤ s.nstages.toNat := by
  have hw := hg.work
  rw [State.workGood, h] at hw
  exact hw.2.1

/-- Validation, while it runs, has not passed the last descriptor. -/
theorem State.Good.validated_le_nstages (hg : s.Good) {j : Nat} (h : s.work = .validate j) : j ≤ s.nstages.toNat := by
  have hw := hg.work
  rw [State.workGood, h] at hw
  exact hw.2.1

/-- Settles O35: a turn that ends a stage leaves a good state at the next dispatch, whose bound gives that of the stage ended. -/
theorem stageIndex : Obligations.StageIndex := by
  intro s t hg h hbusy
  have hgt := hg.coreTurn h
  refine ⟨?_, hgt.k_le_nstages⟩
  have hf : ∀ r, s.work ≠ .finish r := by
    intro r hr
    rw [coreTurn_finish hr] at h
    cases h
    exact Bool.false_ne_true ((complete_busy s r).symm.trans hbusy)
  by_cases hv : s.work = .validate s.nstages.toNat
  · rw [coreTurn_validate_end hv le_rfl] at h
    cases h
    exact .inr (.inr ⟨hv, rfl, rfl⟩)
  · have hlt : ∀ j, s.work = .validate j → j < s.nstages.toNat := fun j hj =>
      lt_of_le_of_ne (hg.validated_le_nstages hj) fun hjn => hv (hjn ▸ hj)
    obtain ⟨u, hu, hindex⟩ := coreTurn_keepsOrEndsStage hg hf hlt
    rw [h] at hu
    cases hu
    rcases hindex with hk | ⟨hk, hstage⟩
    · exact .inl hk
    · have hmoved := coreTurn_moved h hf
      have hn : t.nstages = s.nstages := by rw [hmoved]
      have hle := hgt.k_le_nstages hstage
      rw [hk, hn] at hle
      exact .inr (.inl ⟨hk, hstage, hle⟩)

end Sys2Proof.Machine
end

section
/-! SUPPORT. Which accesses reach a register or a buffer, and what a buffer access reads and writes (20_memory.md R80-R88, R93). -/

namespace Sys2Proof.Machine

variable {s : State} {off : Nat} {n : Width} {v : Word}

/-! ## Accesses that are accepted, and accesses that reach nothing -/

/-- The value of an accepted buffer read. -/
theorem memRead_buffer_okay {x : Word} (h : 0x1000 ≤ off) (hx : (s.memRead off n).2 = .okayRead x) :
    x = BitVec.ofNat 32 (natOfLe (s.bytesAt off n.bytes)) := by
  cases hr : s.readableBuffer off n.bytes with
  | true => rw [memRead_buffer h hr] at hx; cases hx; rfl
  | false => rw [memRead_buffer_bad h hr] at hx; cases hx

/-- The inversion of an accepted buffer write. -/
theorem memWrite_buffer_okay {t : State} (h : 0x1000 ≤ off) (ht : s.memWrite off n v = (t, .okayWrite)) :
    (s.busy = false ∧ s.writableBuffer off n.bytes = true) ∧ t = { s with mem := s.mem.setBytes off (leBytes n.bytes v.toNat) } := by
  by_cases hw : s.busy = false ∧ s.writableBuffer off n.bytes = true
  · rw [memWrite_buffer h hw.1 hw.2] at ht; cases ht; exact ⟨hw, rfl⟩
  · rw [memWrite_buffer_bad h hw] at ht; cases ht

/-- The access gets BUS_ERROR, whichever way it goes, and changes nothing. -/
def State.Refuses (s : State) (off : Nat) (n : Width) (v : Word) : Prop :=
  s.memRead off n = (s, .busError) ∧ s.memWrite off n v = (s, .busError)

theorem refuses_unlisted (h : off < 0x1000) (hl : ¬s.listed off) : s.Refuses off n v := by
  obtain ⟨hreg, hstage⟩ := not_or.mp hl
  have haligned : ∀ c ∈ [0x000, 0x004, 0x008, 0x00C, 0x010, 0x020, 0x024, 0x028, 0x02C, 0x030, 0x034, 0x038, 0x040, 0x044, 0x048],
      c / 4 * 4 = c := by decide
  have hne := fun hc => hreg ((haligned off hc).symm ▸ hc)
  have hs : s.isStageOffset off = false := by rw [Bool.eq_false_iff]; simpa [State.isStageOffset] using hstage
  exact ⟨memRead_reg_none h (regRead_none hne hs), memWrite_reg_none h (regWrite_none hne hs)⟩

/-- An access inside a window begins inside it. -/
theorem insideAligned_lt {base size : Nat} (h : insideAligned base size off n.bytes) : base ≤ off ∧ off < base + size := by
  obtain ⟨-, hlo, hhi⟩ := h
  have := n.bytes_pos
  omega

theorem refuses_outsideWindows (h : 0x1000 ≤ off) (hkey : ¬(0x001000 ≤ off ∧ off < 0x001100))
    (hin : ¬(0x100000 ≤ off ∧ off < 0x100000 + s.params.inCap)) (hout : ¬(0x200000 ≤ off ∧ off < 0x200000 + s.params.outCap)) :
    s.Refuses off n v := by
  have hw : ¬s.writableBuffer off n.bytes = true := fun hw => by
    rcases writableBuffer_iff.mp hw with hk | hi
    · exact hkey (insideAligned_lt hk)
    · exact hin (insideAligned_lt hi)
  have hr : ¬s.readableBuffer off n.bytes = true := fun hr => by
    rcases readableBuffer_iff.mp hr with hk | hi | ho
    · exact hkey (insideAligned_lt hk)
    · exact hin (insideAligned_lt hi)
    · exact hout (insideAligned_lt ho)
  exact ⟨memRead_buffer_bad h (Bool.eq_false_iff.mpr hr), memWrite_buffer_bad h fun hb => hw hb.2⟩

/-- Settles O9: narrow and misaligned accesses, unlisted offsets of the register page, and the gaps between the windows. -/
theorem registerPageAccess : Obligations.RegisterPageAccess := by
  intro s off n v h
  rcases h with ⟨hpage, hbad⟩ | ⟨hpage, hlisted⟩ | ⟨hbuf, hkey, hin, hout⟩
  · exact ⟨memRead_reg_bad hpage hbad, memWrite_reg_bad hpage hbad⟩
  · exact refuses_unlisted hpage hlisted
  · exact refuses_outsideWindows hbuf hkey hin hout

/-- The host never writes at or above the first offset of OUT_BUF (20_memory.md R88): IN_BUF ends below it. -/
theorem writableBuffer_lt_outBase (hp : s.params.wf) (hw : s.writableBuffer off n.bytes = true) : off < 0x200000 := by
  obtain ⟨-, ⟨-, hcap⟩, -⟩ := hp
  rcases writableBuffer_iff.mp hw with h | h
  · have := insideAligned_lt h; omega
  · have := insideAligned_lt h; omega

/-- Settles O10: the acceptance tests are the windows, in both directions; and no writable window reaches OUT_BUF. -/
theorem bufferAccess : Obligations.BufferAccess := by
  intro s off n v hp h
  simp only [← readableBuffer_iff, ← writableBuffer_iff]
  refine ⟨fun hr => ⟨_, congrArg Prod.snd (memRead_buffer h hr)⟩, fun hr => memRead_buffer_bad h (Bool.eq_false_iff.mpr hr),
    fun ⟨hb, hw⟩ => congrArg Prod.snd (memWrite_buffer h hb hw), memWrite_buffer_bad h, fun ho => ?_⟩
  exact memWrite_buffer_bad h fun ⟨_, hw⟩ => absurd (writableBuffer_lt_outBase hp hw) (Nat.not_lt.mpr ho)

/-! ## Byte order -/

theorem bytesAt_length (s : State) (a k : Nat) : (s.bytesAt a k).length = k := by simp [State.bytesAt]

theorem bytesAt_getD {a k i : Nat} (h : i < k) : (s.bytesAt a k).getD i 0 = s.byteAt (a + i) := by
  simp [State.bytesAt, h]

/-- The bytes of a width fit in a word, so the composed value is not cut off. -/
theorem natOfLe_bytesAt_lt (s : State) (a : Nat) (n : Width) : natOfLe (s.bytesAt a n.bytes) < 2 ^ 32 :=
  calc natOfLe (s.bytesAt a n.bytes) < 256 ^ n.bytes := by simpa only [bytesAt_length] using natOfLe_lt (s.bytesAt a n.bytes)
    _ ≤ 256 ^ 4 := Nat.pow_le_pow_right (by decide) n.bytes_le
    _ = 2 ^ 32 := by decide

theorem natOfLe_bytesAt (s : State) (a k : Nat) :
    natOfLe (s.bytesAt a k) = ((List.range k).map fun i => (s.byteAt (a + i)).toNat * 256 ^ i).sum := by
  rw [natOfLe_eq_sum, bytesAt_length]
  congr 1
  refine List.map_congr_left fun i hi => ?_
  rw [bytesAt_getD (List.mem_range.mp hi)]

theorem leBytes_getElem_word (v : Word) {k i : Nat} (h : i < k) :
    (leBytes k v.toNat)[i]'(by simpa using h) = v.extractLsb' (8 * i) 8 := by
  rw [leBytes_getElem _ _ _ h]
  apply BitVec.eq_of_toNat_eq
  rw [BitVec.toNat_ofNat, BitVec.extractLsb'_toNat, Nat.shiftRight_eq_div_pow, Nat.pow_mul]

/-- Settles O11: the composed value of a read, the bytes of a write and their frame, and narrow accesses to the register page. -/
theorem littleEndianPort : Obligations.LittleEndianPort := by
  refine ⟨fun s off n h => ⟨fun x hx => ?_, fun v t ht => ?_⟩, fun s off n h hn => ⟨?_, fun v => ?_⟩⟩
  · rw [memRead_buffer_okay h hx, BitVec.toNat_ofNat, Nat.mod_eq_of_lt (natOfLe_bytesAt_lt s off n), natOfLe_bytesAt]
  · obtain ⟨-, rfl⟩ := memWrite_buffer_okay h ht
    refine ⟨fun i hi => ?_, fun a ha => ?_, rfl⟩
    · rw [← leBytes_getElem_word v hi]
      exact Memory.get_setBytes_inside _ _ _ _ _
    · exact Memory.get_setBytes_outside _ _ _ _ (by rwa [leBytes_length])
  · rw [memRead_reg_bad h (.inl hn)]
  · rw [memWrite_reg_bad h (.inl hn)]

/-! ## The access that waits first -/

theorem apertureOffset_inside (s : State) (h : off < 0x400000) : s.apertureOffset (s.params.base + off) = some off := by
  rw [State.apertureOffset, if_pos ⟨Nat.le_add_right _ _, Nat.add_lt_add_left h _⟩, Nat.add_sub_cancel_left]

theorem apertureOffset_outside {addr : Nat} (h : addr < s.params.base ∨ s.params.base + 0x400000 ≤ addr) :
    s.apertureOffset addr = none := by
  rw [State.apertureOffset, if_neg]; omega

theorem access_read (s : State) (h : off < 0x400000) (n : Width) :
    s.access (.read (s.params.base + off) n) = { (s.memRead off n).1 with resp := some (s.memRead off n).2 } := by
  simp only [State.access, apertureOffset_inside s h]

theorem access_write (s : State) (h : off < 0x400000) (n : Width) (v : Word) :
    s.access (.write (s.params.base + off) n v) = { (s.memWrite off n v).1 with resp := some (s.memWrite off n v).2 } := by
  simp only [State.access, apertureOffset_inside s h]

theorem access_read_outside {addr : Nat} (h : addr < s.params.base ∨ s.params.base + 0x400000 ≤ addr) (n : Width) :
    s.access (.read addr n) = { s with resp := none } := by
  simp only [State.access, apertureOffset_outside h]

theorem access_write_outside {addr : Nat} (h : addr < s.params.base ∨ s.params.base + 0x400000 ≤ addr) (n : Width) (v : Word) :
    s.access (.write addr n v) = { s with resp := none } := by
  simp only [State.access, apertureOffset_outside h]

/-- Settles O14: the step is the access, and the access is the read or write at the aperture offset, if it has one. -/
theorem hostAccessStep : Obligations.HostAccessStep := by
  intro s rest addr n v
  refine ⟨?_, fun h => ⟨?_, ?_⟩⟩
  · rintro off h rfl
    refine ⟨⟨_, _, rfl, ?_⟩, _, _, rfl, ?_⟩
    · rw [step_access_cons rfl]; exact congrArg _ (access_read { s with inputs := rest } h n)
    · rw [step_access_cons rfl]; exact congrArg _ (access_write { s with inputs := rest } h n v)
  · rw [step_access_cons rfl]; exact congrArg _ (access_read_outside (s := { s with inputs := rest }) h n)
  · rw [step_access_cons rfl]; exact congrArg _ (access_write_outside (s := { s with inputs := rest }) h n v)

end Sys2Proof.Machine
end

section
/-! SUPPORT. Repeating an access (20_memory.md R90): every accepted write but one to CMD stores something that the same write
stores again. -/

namespace Sys2Proof.Machine

variable {s t : State} {off : Nat} {v : Word}

/-! ## The memory, in any form -/

theorem Memory.set_set_self (m : Memory) (a : Nat) (b : Byte) : (m.set a b).set a b = m.set a b := by
  induction m with
  | nil => simp [Memory.set]
  | cons c m ih =>
    obtain ⟨k, x⟩ := c
    rcases lt_trichotomy a k with h | rfl | h
    · simp [Memory.set, h]
    · simp [Memory.set]
    · simp [Memory.set, h.not_gt, h.ne', ih]

/-- Writes at two offsets commute. -/
theorem Memory.set_set_comm (m : Memory) {a x : Nat} (b c : Byte) (h : a < x) : (m.set x c).set a b = (m.set a b).set x c := by
  induction m with
  | nil => simp [Memory.set, h, h.not_gt, h.ne']
  | cons e m ih =>
    obtain ⟨k, y⟩ := e
    rcases lt_trichotomy a k with ha | rfl | ha
    · rcases lt_trichotomy x k with hx | rfl | hx
      · simp [Memory.set, ha, hx, h, h.not_gt, h.ne']
      · simp [Memory.set, h, h.not_gt, h.ne']
      · simp [Memory.set, ha, h.not_gt, h.ne', hx.not_gt, hx.ne']
    · simp [Memory.set, h.not_gt, h.ne']
    · simp [Memory.set, ha.not_gt, ha.ne', (ha.trans h).not_gt, (ha.trans h).ne', ih]

theorem Memory.set_setBytes_comm (m : Memory) {a x : Nat} (b : Byte) (bs : List Byte) (h : a < x) :
    (m.setBytes x bs).set a b = (m.set a b).setBytes x bs := by
  induction bs generalizing m x with
  | nil => rfl
  | cons c bs ih => rw [Memory.setBytes, Memory.setBytes, ih _ (by omega), Memory.set_set_comm _ _ _ h]

theorem Memory.setBytes_setBytes_self (m : Memory) (a : Nat) (bs : List Byte) :
    (m.setBytes a bs).setBytes a bs = m.setBytes a bs := by
  induction bs generalizing m a with
  | nil => rfl
  | cons b bs ih =>
    rw [Memory.setBytes, Memory.setBytes, Memory.set_setBytes_comm _ _ _ (Nat.lt_succ_self a), Memory.set_set_self, ih]

/-! ## The registers -/

theorem Desc.write_write_self (d : Desc) (r : Nat) (v : Word) : (d.write r v).write r v = d.write r v := by
  unfold Desc.write; split_ifs <;> rfl

/-- Repeating a write to a descriptor, whether the list has that descriptor or not. -/
theorem regWrite_desc_repeat {k r : Nat} (hk : k < s.params.stageMax) (hr : r < 16)
    (h : s.regWrite (0x100 + 16 * k + r) v = some t) : t.regWrite (0x100 + 16 * k + r) v = some t := by
  rw [regWrite_stage hk hr] at h
  cases h
  refine (regWrite_stage (s := { s with stages := s.stages.set k ((s.desc k).write r v) }) hk hr).trans ?_
  by_cases hl : k < s.stages.length
  · simp [State.desc, hl, Desc.write_write_self]
  · simp [List.set_eq_of_length_le (Nat.not_lt.mp hl)]

/-- Where a register takes a write. -/
theorem regWrite_offset (h : s.regWrite off v = some t) :
    off ∈ readOnlyOffsets ∨ off ∈ [0x020, 0x024, 0x028, 0x02C, 0x034, 0x038] ∨ s.isStageOffset off = true := by
  by_contra hno
  simp only [readOnlyOffsets, List.mem_cons, List.not_mem_nil, or_false, not_or] at hno
  have hnone : s.regWrite off v = none := regWrite_none (by simp [hno]) (by simpa using hno.2.2)
  rw [hnone] at h
  cases h

/-- A register write other than one to CMD stores what its repetition stores, and leaves BUSY alone. -/
theorem regWrite_repeat (h : s.regWrite off v = some t) (ho : off ≠ 0x028) (ha : off % 4 = 0) :
    t.regWrite off v = some t ∧ t.busy = s.busy := by
  rcases regWrite_offset h with hro | hrw | hst
  · rw [regWrite_readOnly hro] at h; cases h; exact ⟨regWrite_readOnly hro, rfl⟩
  · simp only [List.mem_cons, List.not_mem_nil, or_false] at hrw
    rcases hrw with rfl | rfl | rfl | rfl | rfl | rfl
    · cases h; exact ⟨rfl, rfl⟩
    · obtain rfl : s.acknowledge v = t := Option.some.inj h
      exact ⟨congrArg some (by simp [acknowledge_eq]), by rw [acknowledge_eq]⟩
    · exact absurd rfl ho
    · cases h; exact ⟨rfl, rfl⟩
    · cases h; exact ⟨rfl, rfl⟩
    · cases h; exact ⟨rfl, rfl⟩
  · obtain ⟨k, r, hk, hr, rfl⟩ := stageOffset_cases (s := s) (by simpa [State.isStageOffset] using hst) ha
    have hlt : ∀ q ∈ [0, 4, 8, 12], q < 16 := by decide
    refine ⟨regWrite_desc_repeat hk (hlt r hr) h, ?_⟩
    rw [regWrite_stage hk (hlt r hr)] at h
    cases h
    rfl

/-! ## Host writes -/

/-- An accepted write to the register page is that of a whole, aligned register. -/
theorem memWrite_page_okay {n : Width} (h : off < 0x1000) (ht : s.memWrite off n v = (t, .okayWrite)) :
    (n = .w4 ∧ off % 4 = 0 ∧ (s.busy = false ∨ off = 0x020 ∨ off = 0x024)) ∧ s.regWrite off v = some t := by
  rw [State.memWrite, if_pos h] at ht
  split_ifs at ht with hreg
  · cases hw : s.regWrite off v with
    | none => rw [hw] at ht; cases ht
    | some u => rw [hw] at ht; cases ht; exact ⟨hreg, rfl⟩
  · cases ht

theorem memWrite_repeat {n : Width} (ht : s.memWrite off n v = (t, .okayWrite)) (ho : off ≠ 0x028) :
    t.memWrite off n v = (t, .okayWrite) := by
  by_cases h : off < 0x1000
  · obtain ⟨⟨rfl, ha, hb⟩, hw⟩ := memWrite_page_okay h ht
    obtain ⟨hrepeat, hbusy⟩ := regWrite_repeat hw ho ha
    exact memWrite_reg h ha (hbusy ▸ hb) hrepeat
  · obtain ⟨⟨hb, hw⟩, rfl⟩ := memWrite_buffer_okay (Nat.not_lt.mp h) ht
    refine (memWrite_buffer (s := { s with mem := s.mem.setBytes off (leBytes n.bytes v.toNat) }) (Nat.not_lt.mp h) hb hw).trans ?_
    simp only [Memory.setBytes_setBytes_self]

/-- An accepted CMD write starts a command. -/
theorem memWrite_cmd_okay (ht : s.memWrite 0x028 .w4 v = (t, .okayWrite)) : t = s.startCommand v :=
  Option.some.inj (memWrite_page_okay (by decide) ht).2.symm

/-- Settles O12: reads move the draw counter only, writes repeat, and a started command refuses the next CMD write. -/
theorem repeatedAccess : Obligations.RepeatedAccess := by
  refine fun s off n v => ⟨memRead_state s off n, fun t ht ho => memWrite_repeat ht ho, fun t ht => ?_⟩
  rw [memWrite_cmd_okay ht]
  exact ⟨rfl, rfl, memWrite_busy rfl (by decide)⟩

end Sys2Proof.Machine
end

section
/-! SUPPORT. While a command runs (20_memory.md R91-R95; 60_exceptions.md R384): what the host reads and writes, that the inputs
stay as they are, and that no result is visible. -/

namespace Sys2Proof.Machine

variable {s t : State} {a : Nat}

/-! ## Single bytes -/

theorem Memory.mem_of_get {m : Memory} {b : Byte} (h : m.get a = some b) : (a, b) ∈ m := by
  induction m with
  | nil => cases h
  | cons c m ih =>
    obtain ⟨k, x⟩ := c
    rw [Memory.get] at h
    split_ifs at h with hk
    · cases h; exact hk ▸ List.mem_cons_self
    · exact List.mem_cons_of_mem _ (ih h)

theorem State.outUnspecified.get_eq_none (h : s.outUnspecified) (ha : outBase ≤ a) : s.mem.get a = none := by
  cases hb : s.mem.get a with
  | none => rfl
  | some b => exact absurd (h _ (Memory.mem_of_get hb)) (Nat.not_lt.mpr ha)

theorem insideAligned_one {base size : Nat} : insideAligned base size a 1 ↔ base ≤ a ∧ a < base + size := by
  unfold insideAligned; omega

/-- A byte of a buffer as the host reads it. -/
theorem memRead_byte (h : insideAligned 0x001000 256 a 1 ∨ insideAligned 0x100000 s.params.inCap a 1 ∨
    insideAligned 0x200000 s.params.outCap a 1) : (s.memRead a .w1).2 = .okayRead ((s.byteAt a).setWidth 32) := by
  have hpage : 0x1000 ≤ a := by simp only [insideAligned_one] at h; omega
  rw [memRead_buffer hpage (readableBuffer_iff (n := .w1).mpr h)]
  have hval : natOfLe (s.bytesAt a Width.w1.bytes) = (s.byteAt a).toNat := by simp [Width.bytes, State.bytesAt, natOfLe]
  rw [hval, BitVec.ofNat_toNat]

/-! ## The host's accesses -/

theorem State.Good.done_of_busy (hg : s.Good) (hb : s.busy = true) : s.done = false :=
  Bool.eq_false_iff.mpr fun hd => hg.notBusyAndDone ⟨hb, hd⟩

/-- STATUS of a running command: BUSY alone (10_state.md R34; 20_memory.md R92). -/
theorem State.Good.statusWord_busy (hg : s.Good) (hb : s.busy = true) : s.statusWord = 0x00000001 := by
  obtain ⟨-, hcode, -⟩ := hg.busyClean hb
  simp [State.statusWord, State.errorFlag, hb, hg.done_of_busy hb, hcode]

theorem flagsWord_toNat (d : Desc) :
    d.flagsWord.toNat = d.predP.toNat + 2 * d.colsP.toNat + 4 * d.cnameP.toNat + 8 * d.ctypeP.toNat := by
  cases d with | mk kind p c n t => cases p <;> cases c <;> cases n <;> cases t <;> rfl

/-- The four registers of a descriptor that a good state has (10_state.md R43). -/
theorem State.Good.reads_desc (hg : s.Good) {k r : Nat} {d : Desc} (hd : s.stages[k]? = some d) (hr : r < 16) (hr4 : r % 4 = 0) :
    s.reads (0x100 + 16 * k + r) (d.read r) := by
  have hk : k < s.params.stageMax := hg.stages ▸ (List.getElem?_eq_some_iff.mp hd).1
  obtain ⟨-, -, -, -, hmax⟩ := hg.params
  have hdesc : s.desc k = d := by simp [State.desc, hd]
  exact reads_iff.mpr ⟨by omega, by omega, hdesc ▸ regRead_stage hk hr⟩

/-- A written byte lies in KEY_BUF or IN_BUF while a command runs (20_memory.md R92). -/
theorem State.Good.inside_of_get (hg : s.Good) (hb : s.busy = true) {b : Byte} (h : s.mem.get a = some b) :
    insideAligned 0x001000 256 a 1 ∨ insideAligned 0x100000 s.params.inCap a 1 := by
  obtain ⟨-, -, -, -, hout⟩ := hg.busyClean hb
  have hmem := Memory.mem_of_get h
  simp only [insideAligned_one]
  rcases hg.memInside _ hmem with hk | hi | ⟨ho, -⟩
  · exact .inl hk
  · exact .inr hi
  · exact absurd (hout _ hmem) (Nat.not_lt.mpr ho)

/-- Settles O15: the writes, the registers one by one, written bytes of the inputs, and bytes of OUT_BUF. -/
theorem accessWhileBusy : Obligations.AccessWhileBusy := by
  intro s hg hb
  obtain ⟨hlen, hcode, hstage, hinfo, hout⟩ := hg.busyClean hb
  refine ⟨memWrite_ctrl s, memWrite_status s, fun off n v ho => memWrite_busy hb ho, ⟨?_, ?_, ?_, ?_, ?_, ?_, ?_, ?_⟩,
    fun a b h => ?_, fun a h => ?_⟩
  · have hctrl : BitVec.ofNat 32 s.irqEn.toNat = if s.irqEn then 0x00000001 else 0x00000000 := by cases s.irqEn <;> rfl
    exact hctrl ▸ reads_ctrl s
  · exact hg.statusWord_busy hb ▸ reads_status s
  · exact memRead_reg (by decide) (by decide) rfl
  · exact memRead_reg (by decide) (by decide) rfl
  · exact memRead_reg (by decide) (by decide) rfl
  · exact memRead_reg (by decide) (by decide) rfl
  · intro off h
    simp only [List.mem_cons, List.not_mem_nil, or_false] at h
    rcases h with rfl | rfl | rfl | rfl
    · exact memRead_reg (by decide) (by decide) (congrArg some hlen)
    · exact memRead_reg (by decide) (by decide) (congrArg (fun c : BitVec 8 => some (c.setWidth 32)) hcode)
    · exact memRead_reg (by decide) (by decide) (congrArg some hstage)
    · exact memRead_reg (by decide) (by decide) (congrArg some hinfo)
  · intro k d hd
    have hreads := fun r hr hr4 => hg.reads_desc (r := r) hd hr hr4
    refine ⟨hreads 0 (by decide) (by decide), ⟨d.flagsWord, ?_, flagsWord_toNat d⟩, ?_, ?_⟩
    · rw [Nat.add_right_comm 0x100 4]; exact hreads 4 (by decide) (by decide)
    · rw [Nat.add_right_comm 0x100 8]; exact hreads 8 (by decide) (by decide)
    · rw [Nat.add_right_comm 0x100 12]; exact hreads 12 (by decide) (by decide)
  · have hin := hg.inside_of_get hb h
    refine ⟨hin, (memRead_byte (hin.imp_right .inl)).trans ?_⟩
    rw [State.byteAt, h, Option.getD_some]
  · refine (memRead_byte (.inr (.inr h))).trans ?_
    rw [State.byteAt, hout.get_eq_none (insideAligned_one.mp h).1, Option.getD_none]

/-! ## The inputs of the running command -/

/-- What a command reads is as before: lengths, descriptors, parameters, KEY_BUF and IN_BUF (20_memory.md R91). -/
def State.SameInputs (s t : State) : Prop :=
  t.inLen = s.inLen ∧ t.keyLen = s.keyLen ∧ t.nstages = s.nstages ∧ t.stages = s.stages ∧ t.params = s.params ∧
    ∀ a, a < 0x200000 → t.mem.get a = s.mem.get a

theorem State.SameInputs.refl (s : State) : s.SameInputs s := ⟨rfl, rfl, rfl, rfl, rfl, fun _ _ => rfl⟩

theorem State.Moved.sameInputs (h : s.Moved t) : s.SameInputs t := by
  unfold State.Moved at h; rw [h]; exact .refl s

/-- The completion step writes OUT_BUF only. -/
theorem complete_sameInputs (s : State) (r : Result) : s.SameInputs (s.complete r) := by
  cases r with
  | ok out => exact ⟨rfl, rfl, rfl, rfl, rfl, fun a ha => (Memory.get_storeOut s.mem out a).trans (if_pos ha)⟩
  | err e k info => exact .refl s

theorem coreTurn_sameInputs (h : coreTurn s = .next t) : s.SameInputs t := by
  by_cases hf : ∃ r, s.work = .finish r
  · obtain ⟨r, hr⟩ := hf
    rw [coreTurn_finish hr] at h
    cases h
    exact complete_sameInputs s r
  · exact (coreTurn_moved h (not_exists.mp hf)).sameInputs

theorem memWrite_busy_sameInputs (hb : s.busy = true) (off : Nat) (n : Width) (v : Word) : s.SameInputs (s.memWrite off n v).1 := by
  rcases memWrite_cases s off n v with h | ⟨-, h⟩ | ⟨-, h⟩ | ⟨hidle, -⟩
  · rw [h]; exact .refl s
  · rw [h]; exact .refl s
  · rw [h, acknowledge_eq]; exact .refl s
  · exact absurd (hidle ▸ hb) Bool.false_ne_true

theorem access_busy_sameInputs (hb : s.busy = true) (a : Access) : s.SameInputs (s.access a) := by
  rcases access_cases s a with h | ⟨_, off, n, -, -, -, h⟩ | ⟨_, off, n, v, -, -, -, h⟩ <;> rw [h]
  · exact .refl s
  · rw [memRead_state]; exact .refl s
  · exact memWrite_busy_sameInputs hb off n v

/-- Settles O16: by the kinds of step; a reset is excluded. -/
theorem commandInputsFrozen : Obligations.CommandInputsFrozen := by
  intro s t hb hreset h
  rcases step_cases h with ⟨-, h⟩ | ⟨rest, -, h⟩ | ⟨a, rest, -, rfl⟩ | ⟨rest, hi, -⟩
  · exact coreTurn_sameInputs h
  · exact coreTurn_sameInputs (s := { s with inputs := rest }) h
  · exact access_busy_sameInputs (s := { s with inputs := rest }) hb a
  · exact absurd (congrArg List.head? hi) hreset

/-! ## The result -/

/-- Settles O17: such a turn moves the working state only, and a running command has no visible result to begin with. -/
theorem resultsOnlyAtCompletion : Obligations.ResultsOnlyAtCompletion := by
  intro s t h hf
  have hm := coreTurn_moved h hf
  refine ⟨hm, fun hg hb => ?_⟩
  obtain ⟨hlen, hcode, hstage, hinfo, hout⟩ := hg.busyClean hb
  obtain ⟨hbusy, hdone, herr⟩ := hm.sameFlags
  unfold State.Moved at hm
  exact ⟨hbusy.trans hb, hdone.trans (hg.done_of_busy hb), by rw [hm]; exact hlen, herr.trans hcode,
    by rw [hm]; exact hstage, by rw [hm]; exact hinfo, fun a ha => by rw [hm]; exact hout.get_eq_none ha⟩

end Sys2Proof.Machine
end

section
/-! SUPPORT. The decoder, format by format (30_encoding.md R110-R121): when it answers, which front of the window it has read.
From that, what decodes is well formed, and the encoder writes what was read. -/

namespace Sys2Proof

open Machine

variable {bits : List Bool} {i : Instr} {n : Nat}

/-! ## A window begins with a word, a byte, a code -/

theorem toNat_ofNat_of_lt {k v : Nat} (h : v < 2 ^ k) : (BitVec.ofNat k v).toNat = v := by
  rw [BitVec.toNat_ofNat, Nat.mod_eq_of_lt h]

theorem lsbBits_natOfLsb_take {k : Nat} (h : k ≤ bits.length) : lsbBits k (natOfLsb (bits.take k)) = bits.take k :=
  (lsbBits_natOfLsb _ _ (List.length_take_of_le h)).symm

theorem natOfLsb_take_lt {k : Nat} (h : k ≤ bits.length) : natOfLsb (bits.take k) < 2 ^ k := by
  simpa only [List.length_take_of_le h] using natOfLsb_lt (bits.take k)

theorem exists_wordBits_append (h : 32 ≤ bits.length) : ∃ w rest, bits = wordBits w ++ rest := by
  refine ⟨BitVec.ofNat 32 (natOfLsb (bits.take 32)), bits.drop 32, ?_⟩
  rw [wordBits, toNat_ofNat_of_lt (natOfLsb_take_lt h), lsbBits_natOfLsb_take h, List.take_append_drop]

theorem exists_byteBits_append (h : 8 ≤ bits.length) : ∃ b rest, bits = byteBits b ++ rest := by
  refine ⟨BitVec.ofNat 8 (natOfLsb (bits.take 8)), bits.drop 8, ?_⟩
  rw [byteBits, toNat_ofNat_of_lt (natOfLsb_take_lt h), lsbBits_natOfLsb_take h, List.take_append_drop]

theorem msbBits_natOfMsb (bs : List Bool) : msbBits bs.length (natOfMsb bs) = bs := by
  rw [msbBits, natOfMsb, ← lsbBits_natOfLsb bs.reverse bs.length List.length_reverse, List.reverse_reverse]

theorem exists_msbBits_append {k : Nat} (h : k ≤ bits.length) : ∃ code < 2 ^ k, ∃ rest, bits = msbBits k code ++ rest := by
  have hlt := natOfMsb_lt (bits.take k)
  have hbits := msbBits_natOfMsb (bits.take k)
  rw [List.length_take_of_le h] at hlt hbits
  exact ⟨_, hlt, bits.drop k, by rw [hbits, List.take_append_drop]⟩

/-! ## When the decoder answers -/

theorem decode_cmd_ok (h : decode .cmd bits = .ok (i, n)) :
    ∃ w rest, bits = wordBits w ++ rest ∧ i = decodeCmd w ∧ n = 32 := by
  by_cases hl : bits.length < 32
  · rw [decode, if_pos hl] at h; cases h
  · obtain ⟨w, rest, rfl⟩ := exists_wordBits_append (Nat.not_lt.mp hl)
    rw [decode_cmd] at h; cases h
    exact ⟨w, rest, rfl, rfl, rfl⟩

theorem decode_pred_ok (h : decode .pred bits = .ok (i, n)) :
    ∃ w rest, bits = wordBits w ++ rest ∧ i = decodePred w ∧ n = 32 := by
  by_cases hl : bits.length < 32
  · rw [decode, if_pos hl] at h; cases h
  · obtain ⟨w, rest, rfl⟩ := exists_wordBits_append (Nat.not_lt.mp hl)
    rw [decode_pred] at h; cases h
    exact ⟨w, rest, rfl, rfl, rfl⟩

theorem decode_pngRow_ok (h : decode .pngRow bits = .ok (i, n)) :
    ∃ b rest, bits = byteBits b ++ rest ∧ i = decodePngRow b ∧ n = 8 := by
  by_cases hl : bits.length < 8
  · rw [decode, if_pos hl] at h; cases h
  · obtain ⟨b, rest, rfl⟩ := exists_byteBits_append (Nat.not_lt.mp hl)
    rw [decode_pngRow] at h; cases h
    exact ⟨b, rest, rfl, rfl, rfl⟩

theorem decode_stage_ok (h : decode .stage bits = .ok (i, n)) :
    (∃ kind flags predictor columns, i = decodeStage kind flags predictor columns) ∧ n = 128 ∧ 128 ≤ bits.length := by
  by_cases hl : bits.length < 128
  · rw [decode, if_pos hl] at h; cases h
  · rw [decode, if_neg hl] at h; cases h
    exact ⟨⟨_, _, _, _, rfl⟩, rfl, Nat.not_lt.mp hl⟩

theorem decode_lzwCode_ok {w dl : Nat} {afterClear : Bool} (h : decode (.lzwCode w dl afterClear) bits = .ok (i, n)) :
    ∃ code < 2 ^ w, ∃ rest, bits = msbBits w code ++ rest ∧ i = decodeLzwCode dl afterClear code ∧ n = w := by
  by_cases hl : bits.length < w
  · rw [decode, if_pos hl] at h; cases h
  · obtain ⟨code, hlt, rest, rfl⟩ := exists_msbBits_append (Nat.not_lt.mp hl)
    rw [decode_lzwCode _ _ hlt] at h; cases h
    exact ⟨code, hlt, rest, rfl, rfl, rfl⟩

/-- The end of the text, or a character, for which the decoder has looked at the byte after it only where there is one. -/
theorem decode_a85Char_ok {atStart pending : Bool} (h : decode (.a85Char atStart pending) bits = .ok (i, n)) :
    (i = .a85End ∧ n = 0) ∨ ∃ c next, (i, n) = decodeA85Char atStart pending c next ∧ 8 ≤ bits.length ∧
      (next.isSome → 16 ≤ bits.length) := by
  by_cases h0 : bits = []
  · rw [decode, if_pos h0] at h; cases h
    exact .inl ⟨rfl, rfl⟩
  by_cases h8 : bits.length < 8
  · rw [decode, if_neg h0, if_pos h8] at h; cases h
  · rw [decode, if_neg h0, if_neg h8] at h
    refine .inr ⟨_, _, (Except.ok.inj h).symm, Nat.not_lt.mp h8, fun hn => ?_⟩
    by_contra h16
    rw [if_pos (Nat.not_le.mp h16)] at hn
    cases hn

theorem decode_ahxChar_ok (h : decode .ahxChar bits = .ok (i, n)) :
    (i = .ahxEnd ∧ n = 0) ∨ ∃ c, i = decodeAhxChar c ∧ n = 8 ∧ 8 ≤ bits.length := by
  by_cases h0 : bits = []
  · rw [decode, if_pos h0] at h; cases h
    exact .inl ⟨rfl, rfl⟩
  by_cases h8 : bits.length < 8
  · rw [decode, if_neg h0, if_pos h8] at h; cases h
  · rw [decode, if_neg h0, if_neg h8] at h; cases h
    exact .inr ⟨_, rfl, rfl, Nat.not_lt.mp h8⟩

theorem decode_zlibBlock_ok (h : decode .zlibBlock bits = .ok (i, n)) :
    ∃ bfinal b0 b1 rest, bits = bfinal :: b0 :: b1 :: rest ∧ i = decodeZlibBlock bfinal (natOfLsb [b0, b1]) ∧ n = 3 := by
  match bits with
  | bfinal :: b0 :: b1 :: rest => cases h; exact ⟨bfinal, b0, b1, rest, rfl, rfl, rfl⟩
  | [] => cases h
  | [_] => cases h
  | [_, _] => cases h

theorem decodeSymbol_ok {t : PrefixCode} {classify : Nat → Option Instr} (h : decodeSymbol t classify bits = .ok (i, n)) :
    ∃ sym, readSymbol t bits = .ok (sym, n) ∧ classify sym = some i := by
  unfold decodeSymbol at h
  split at h
  · next sym len hread =>
    split at h
    · next j hclass => cases h; exact ⟨sym, hread, hclass⟩
    · cases h
  · cases h

/-! ## The symbols of a deflate code (41_flate.md R206) -/

theorem readSymbol_length_le {t : PrefixCode} {sym : Nat} (h : readSymbol t bits = .ok (sym, n)) : n ≤ min 15 bits.length := by
  have hlen := walkCode_len _ _ _ h
  simpa only [List.length_take, Nat.zero_add] using hlen.2

theorem natOfMsb_concat (pre : List Bool) (b : Bool) : natOfMsb (pre ++ [b]) = 2 * natOfMsb pre + b.toNat := by
  rw [natOfMsb, List.reverse_append, List.reverse_singleton, List.singleton_append, natOfLsb, natOfMsb, Nat.add_comm]

/-- A walk that has read `pre` answers the symbol whose code word is the front of `pre` and what follows it. -/
theorem lookupCode_of_walkCode {t : PrefixCode} {sym : Nat} : ∀ (bs pre : List Bool),
    walkCode t (natOfMsb pre) pre.length bs = .ok (sym, n) → lookupCode t n (natOfMsb ((pre ++ bs).take n)) = some sym
  | [], _, h => by cases h
  | b :: bs, pre, h => by
    have hlen : (pre ++ [b]).length = pre.length + 1 := List.length_append
    rw [walkCode, ← natOfMsb_concat, ← hlen] at h
    rw [List.append_cons]
    split at h
    · next hlook => cases h; rwa [List.take_left]
    · exact lookupCode_of_walkCode bs (pre ++ [b]) h

theorem mem_of_lookupCode {t : PrefixCode} {len code sym : Nat} (h : lookupCode t len code = some sym) :
    { sym := sym, len := len, code := code } ∈ t := by
  obtain ⟨e, hfind, rfl⟩ := Option.map_eq_some_iff.mp h
  have he := List.find?_some hfind
  simp only [Bool.and_eq_true, decide_eq_true_eq] at he
  obtain ⟨rfl, rfl⟩ := he
  exact List.mem_of_find?_eq_some hfind

theorem codeWord_of_prefixFree {t : PrefixCode} (ht : prefixFree t) {e : CodeEntry} (he : e ∈ t) :
    codeWord t e.sym = some e := by
  have hnodup : (t.map CodeEntry.sym).Nodup := List.pairwise_map.mpr (ht.2.imp And.left)
  cases hf : codeWord t e.sym with
  | none => exact absurd (List.find?_eq_none.mp hf e he) (by simp)
  | some f =>
    obtain ⟨hmem, hsym⟩ := codeWord_mem hf
    rw [List.inj_on_of_nodup_map hnodup hmem he hsym]

/-- The code word of a symbol that was read is what was read. -/
theorem encodeSymbol_of_readSymbol {t : PrefixCode} (ht : prefixFree t) {sym : Nat} (h : readSymbol t bits = .ok (sym, n)) :
    encodeSymbol t sym = bits.take n := by
  have hn := readSymbol_length_le h
  have hlook := lookupCode_of_walkCode (bits.take 15) [] h
  rw [List.nil_append, List.take_take, Nat.min_eq_left (by omega)] at hlook
  have hbits := msbBits_natOfMsb (bits.take n)
  rw [List.length_take_of_le (by omega)] at hbits
  rw [encodeSymbol, codeWord_of_prefixFree ht (mem_of_lookupCode hlook)]
  exact hbits

/-! ## Each class of code: well formed, and encoded as it was -/

theorem decodeCmd_wf (w : Word) : (decodeCmd w).wf = true := by
  unfold decodeCmd
  split_ifs with h1 h2 h3
  · rfl
  · rfl
  · rfl
  · simp only [Instr.wf, Bool.and_eq_true, bne_iff_ne]
    exact ⟨⟨h1, h2⟩, h3⟩

theorem encode_decodeCmd (w : Word) : encode .cmd (decodeCmd w) = wordBits w := by
  unfold decodeCmd
  split_ifs <;> subst_vars <;> rfl

/-- Every kind but the five of R112 is unknown. -/
theorem kind_unknown {k : BitVec 8} (h1 : k ≠ 1) (h2 : k ≠ 2) (h3 : k ≠ 3) (h4 : k ≠ 4) (h5 : k ≠ 5) :
    k = 0 ∨ 5 < k.toNat := by
  simp only [ne_eq, ← BitVec.toNat_inj, BitVec.reduceToNat] at *
  omega

theorem decodeStage_wf (kind flags predictor columns : Word) : (decodeStage kind flags predictor columns).wf = true := by
  unfold decodeStage
  by_cases h1 : kind.setWidth 8 = (1 : BitVec 8)
  · simp only [if_pos h1]; rfl
  simp only [if_neg h1]
  split_ifs with h2 h3 h4 h5 hflags
  · rfl
  · rfl
  · rfl
  · exact hflags
  · rfl
  · simp only [Instr.wf, Bool.or_eq_true, beq_iff_eq, decide_eq_true_eq]
    exact kind_unknown h1 h2 h3 h4 h5

/-- Every `Predictor` value but the seven of R115 is unsupported. -/
theorem predictor_unsupported {v : Word} (h10 : v ≠ 10) (h11 : v ≠ 11) (h12 : v ≠ 12) (h13 : v ≠ 13) (h14 : v ≠ 14)
    (h15 : v ≠ 15) : ¬(10 ≤ v.toNat ∧ v.toNat ≤ 15) := by
  simp only [ne_eq, ← BitVec.toNat_inj, BitVec.reduceToNat] at *
  omega

theorem decodePred_wf (v : Word) : (decodePred v).wf = true := by
  unfold decodePred
  split_ifs with h1 h10 h11 h12 h13 h14 h15
  case neg =>
    simp only [Instr.wf, Bool.and_eq_true, bne_iff_ne, Bool.not_eq_true', ← Bool.decide_and, decide_eq_false_iff_not]
    exact ⟨h1, predictor_unsupported h10 h11 h12 h13 h14 h15⟩
  all_goals rfl

theorem encode_decodePred (v : Word) : encode .pred (decodePred v) = wordBits v := by
  unfold decodePred
  split_ifs <;> subst_vars <;> rfl

theorem decodePngRow_wf (ft : Byte) : (decodePngRow ft).wf = true := by
  unfold decodePngRow
  split_ifs with h0 h1 h2
  case neg =>
    simp only [Instr.wf, decide_eq_true_eq, ← BitVec.toNat_inj, BitVec.reduceToNat] at *
    omega
  all_goals rfl

theorem encode_decodePngRow (ft : Byte) : encode .pngRow (decodePngRow ft) = byteBits ft := by
  unfold decodePngRow
  split_ifs <;> subst_vars <;> rfl

theorem decodeLzwCode_wf (dl : Nat) (afterClear : Bool) {code : Nat} (h : code < 2 ^ 12) :
    (decodeLzwCode dl afterClear code).wf = true := by
  have htoNat := toNat_ofNat_of_lt h
  unfold decodeLzwCode
  split_ifs with h1 h2 h3
  · rfl
  · rfl
  · rfl
  all_goals
    simp only [Instr.wf, htoNat, decide_eq_true_eq]
    omega

theorem encode_decodeLzwCode (w dl : Nat) (afterClear : Bool) {code : Nat} (h : code < 2 ^ 12) :
    encode (.lzwCode w dl afterClear) (decodeLzwCode dl afterClear code) = msbBits w code := by
  unfold decodeLzwCode
  split_ifs with h1 h2 h3
  · rw [encode, encodeLzw, toNat_ofNat_of_lt h1]
  · rw [h2]; rfl
  · rw [h3]; rfl
  all_goals rw [encode, encodeLzw, toNat_ofNat_of_lt h]

theorem decodeA85Char_wf (atStart pending : Bool) (c : Byte) (next : Option Byte) :
    (decodeA85Char atStart pending c next).1.wf = true := by
  unfold decodeA85Char
  split_ifs with hws hbegin hend hz hdigit
  · exact hws
  · rfl
  · rfl
  · rfl
  · exact hdigit
  · simp [Instr.wf, hws, hdigit]

/-- Only the two-byte marks take a second byte, and only where there is one. -/
theorem decodeA85Char_length (atStart pending : Bool) (c : Byte) (next : Option Byte) :
    (decodeA85Char atStart pending c next).2 = 8 ∨ (decodeA85Char atStart pending c next).2 = 16 ∧ next.isSome := by
  unfold decodeA85Char
  split_ifs with hws hbegin hend
  · exact .inl rfl
  · simp only [Bool.and_eq_true, decide_eq_true_eq] at hbegin
    exact .inr ⟨rfl, hbegin.2 ▸ rfl⟩
  · simp only [Bool.and_eq_true, decide_eq_true_eq] at hend
    exact .inr ⟨rfl, hend.2 ▸ rfl⟩
  all_goals exact .inl rfl

theorem decodeAhxChar_wf (c : Byte) : (decodeAhxChar c).wf = true := by
  unfold decodeAhxChar
  split_ifs with hend hws hdigit
  · rfl
  · exact hws
  · exact hdigit
  · simp only [Instr.wf, hws, hdigit, Bool.not_false, Bool.true_and, bne_iff_ne]
    exact hend

theorem decodeZlibBlock_wf (bfinal : Bool) (btype : Nat) : (decodeZlibBlock bfinal btype).wf = true := by
  unfold decodeZlibBlock
  split_ifs <;> rfl

theorem encode_decodeZlibBlock (bfinal b0 b1 : Bool) :
    encode .zlibBlock (decodeZlibBlock bfinal (natOfLsb [b0, b1])) = [bfinal, b0, b1] := by
  cases b0 <;> cases b1 <;> rfl

/-- A deflate symbol is encoded by its number, whatever its class. -/
theorem encode_of_symbol {sym : Nat} (f : Format) (h : i.symbol = some sym) : encode f i = encodeDeflate f sym := by
  cases i <;> cases h <;> rfl

theorem classifyLitLen_some {sym : Nat} (h : classifyLitLen sym = some i) : i.wf = true ∧ i.symbol = some sym := by
  unfold classifyLitLen at h
  split_ifs at h with h1 h2 h3 h4 <;> cases h
  · exact ⟨rfl, congrArg some (toNat_ofNat_of_lt h1)⟩
  · exact ⟨rfl, congrArg some h2.symm⟩
  · exact ⟨by simp only [Instr.wf, Bool.and_eq_true, decide_eq_true_eq]; omega, rfl⟩
  · exact ⟨by simp only [Instr.wf, Bool.or_eq_true, beq_iff_eq]; omega, rfl⟩

theorem classifyDist_some {sym : Nat} (h : classifyDist sym = some i) : i.wf = true ∧ i.symbol = some sym := by
  unfold classifyDist at h
  split_ifs at h with h1 h2 <;> cases h
  · exact ⟨decide_eq_true h1, rfl⟩
  · exact ⟨by simp only [Instr.wf, Bool.or_eq_true, beq_iff_eq]; omega, rfl⟩

theorem classifyCodeLen_some {sym : Nat} (h : classifyCodeLen sym = some i) : i.wf = true ∧ i.symbol = some sym := by
  unfold classifyCodeLen at h
  split_ifs at h with h1 h2 h3 h4 <;> cases h
  · exact ⟨decide_eq_true h1, rfl⟩
  · exact ⟨rfl, congrArg some h2.symm⟩
  · exact ⟨rfl, congrArg some h3.symm⟩
  · exact ⟨rfl, congrArg some h4.symm⟩

section

variable {t : PrefixCode} {classify : Nat → Option Instr}
  (hclassify : ∀ {sym : Nat} {j : Instr}, classify sym = some j → j.wf = true ∧ j.symbol = some sym)

include hclassify

theorem decodeSymbol_wf (h : decodeSymbol t classify bits = .ok (i, n)) : i.wf = true ∧ n ≤ bits.length := by
  obtain ⟨sym, hread, hclass⟩ := decodeSymbol_ok h
  exact ⟨(hclassify hclass).1, (readSymbol_length_le hread).trans (Nat.min_le_right _ _)⟩

theorem encode_of_decodeSymbol (ht : prefixFree t) {f : Format} (hf : ∀ sym, encodeDeflate f sym = encodeSymbol t sym)
    (h : decodeSymbol t classify bits = .ok (i, n)) : encode f i = bits.take n := by
  obtain ⟨sym, hread, hclass⟩ := decodeSymbol_ok h
  rw [encode_of_symbol f (hclassify hclass).2, hf, encodeSymbol_of_readSymbol ht hread]

end

/-! ## The statements -/

/-- The round trip of each instruction in turn. -/
theorem decode_encode (i : Instr) : Laws.Encoding.Statement i :=
  match i with
  | .decode => Laws.Encoding.decode
  | .flateEncode => Laws.Encoding.flateEncode
  | .rc4 => Laws.Encoding.rc4
  | .illegalCommand w => Laws.Encoding.illegalCommand w
  | .flate predictor columns => Laws.Encoding.flate predictor columns
  | .ahx => Laws.Encoding.ahx
  | .lzw => Laws.Encoding.lzw
  | .a85 => Laws.Encoding.a85
  | .crypt => Laws.Encoding.crypt
  | .cryptNamed cname ctype => Laws.Encoding.cryptNamed cname ctype
  | .kindUnknown kind => Laws.Encoding.kindUnknown kind
  | .predNone => Laws.Encoding.predNone
  | .predPng10 => Laws.Encoding.predPng10
  | .predPng11 => Laws.Encoding.predPng11
  | .predPng12 => Laws.Encoding.predPng12
  | .predPng13 => Laws.Encoding.predPng13
  | .predPng14 => Laws.Encoding.predPng14
  | .predPng15 => Laws.Encoding.predPng15
  | .predUnsupported value => Laws.Encoding.predUnsupported value
  | .pngNone => Laws.Encoding.pngNone
  | .pngSub => Laws.Encoding.pngSub
  | .pngUp => Laws.Encoding.pngUp
  | .pngUnsupported ft => Laws.Encoding.pngUnsupported ft
  | .lzwLiteral b => Laws.Encoding.lzwLiteral b
  | .lzwClear => Laws.Encoding.lzwClear
  | .lzwStop => Laws.Encoding.lzwStop
  | .lzwDict code => Laws.Encoding.lzwDict code
  | .lzwSelf code => Laws.Encoding.lzwSelf code
  | .lzwInvalid code => Laws.Encoding.lzwInvalid code
  | .a85Begin => Laws.Encoding.a85Begin
  | .a85Digit c => Laws.Encoding.a85Digit c
  | .a85Z => Laws.Encoding.a85Z
  | .a85End => Laws.Encoding.a85End
  | .a85Ws c => Laws.Encoding.a85Ws c
  | .a85Invalid c => Laws.Encoding.a85Invalid c
  | .ahxDigit c => Laws.Encoding.ahxDigit c
  | .ahxWs c => Laws.Encoding.ahxWs c
  | .ahxEnd => Laws.Encoding.ahxEnd
  | .ahxInvalid c => Laws.Encoding.ahxInvalid c
  | .zlibStored bfinal => Laws.Encoding.zlibStored bfinal
  | .zlibFixed bfinal => Laws.Encoding.zlibFixed bfinal
  | .zlibDynamic bfinal => Laws.Encoding.zlibDynamic bfinal
  | .zlibReserved bfinal => Laws.Encoding.zlibReserved bfinal
  | .defLiteral b => Laws.Encoding.defLiteral b
  | .defEob => Laws.Encoding.defEob
  | .defLength sym => Laws.Encoding.defLength sym
  | .defLenInvalid sym => Laws.Encoding.defLenInvalid sym
  | .defDist sym => Laws.Encoding.defDist sym
  | .defDistInvalid sym => Laws.Encoding.defDistInvalid sym
  | .defClLiteral len => Laws.Encoding.defClLiteral len
  | .defClRepeat => Laws.Encoding.defClRepeat
  | .defClZero3 => Laws.Encoding.defClZero3
  | .defClZero11 => Laws.Encoding.defClZero11

/-- Settles O24: the hypotheses about what follows are those of the round trip. -/
theorem decodeEncode : Obligations.DecodeEncode :=
  fun i f rest hwf hspells hdigit hinvalid => decode_encode i f rest hwf hspells ⟨hdigit, hinvalid⟩

/-- Settles O25: format by format, by the class that the decoder answers and the bits that it has read. -/
theorem decodedIsWellFormed : Obligations.DecodedIsWellFormed := by
  intro f bits i n h hwidth
  cases f with
  | cmd =>
    obtain ⟨w, rest, rfl, rfl, rfl⟩ := decode_cmd_ok h
    exact ⟨decodeCmd_wf w, by simp⟩
  | stage =>
    obtain ⟨⟨kind, flags, predictor, columns, rfl⟩, rfl, hlen⟩ := decode_stage_ok h
    exact ⟨decodeStage_wf kind flags predictor columns, hlen⟩
  | pred =>
    obtain ⟨w, rest, rfl, rfl, rfl⟩ := decode_pred_ok h
    exact ⟨decodePred_wf w, by simp⟩
  | pngRow =>
    obtain ⟨b, rest, rfl, rfl, rfl⟩ := decode_pngRow_ok h
    exact ⟨decodePngRow_wf b, by simp⟩
  | lzwCode w dl afterClear =>
    obtain ⟨code, hcode, rest, rfl, rfl, rfl⟩ := decode_lzwCode_ok h
    have h12 : code < 2 ^ 12 := hcode.trans_le (Nat.pow_le_pow_right (by decide) (hwidth _ _ _ rfl))
    exact ⟨decodeLzwCode_wf dl afterClear h12, by simp⟩
  | a85Char atStart pending =>
    rcases decode_a85Char_ok h with ⟨rfl, rfl⟩ | ⟨c, next, hc, h8, h16⟩
    · exact ⟨rfl, Nat.zero_le _⟩
    · have hwf := decodeA85Char_wf atStart pending c next
      have hlen := decodeA85Char_length atStart pending c next
      rw [← hc] at hwf hlen
      rcases hlen with rfl | ⟨rfl, hnext⟩
      · exact ⟨hwf, h8⟩
      · exact ⟨hwf, h16 hnext⟩
  | ahxChar =>
    rcases decode_ahxChar_ok h with ⟨rfl, rfl⟩ | ⟨c, rfl, rfl, hlen⟩
    · exact ⟨rfl, Nat.zero_le _⟩
    · exact ⟨decodeAhxChar_wf c, hlen⟩
  | zlibBlock =>
    obtain ⟨bfinal, b0, b1, rest, rfl, rfl, rfl⟩ := decode_zlibBlock_ok h
    exact ⟨decodeZlibBlock_wf bfinal _, by simp⟩
  | litLen t => exact decodeSymbol_wf classifyLitLen_some h
  | dist t => exact decodeSymbol_wf classifyDist_some h
  | codeLen t => exact decodeSymbol_wf classifyCodeLen_some h

/-- Settles O26: in each of the formats, the window begins with what the encoder writes. -/
theorem encodeDecode : Obligations.EncodeDecode := by
  intro f bits i n h hf
  rcases hf with rfl | rfl | rfl | rfl | ⟨w, dl, afterClear, rfl, -, h12⟩ | ⟨t, ht, rfl | rfl | rfl⟩
  · obtain ⟨w, rest, rfl, rfl, rfl⟩ := decode_cmd_ok h
    rw [encode_decodeCmd, List.take_left' (wordBits_length w)]
  · obtain ⟨w, rest, rfl, rfl, rfl⟩ := decode_pred_ok h
    rw [encode_decodePred, List.take_left' (wordBits_length w)]
  · obtain ⟨b, rest, rfl, rfl, rfl⟩ := decode_pngRow_ok h
    rw [encode_decodePngRow, List.take_left' (byteBits_length b)]
  · obtain ⟨bfinal, b0, b1, rest, rfl, rfl, rfl⟩ := decode_zlibBlock_ok h
    exact encode_decodeZlibBlock bfinal b0 b1
  · obtain ⟨code, hcode, rest, rfl, rfl, rfl⟩ := decode_lzwCode_ok h
    rw [encode_decodeLzwCode _ _ _ (hcode.trans_le (Nat.pow_le_pow_right (by decide) h12)), take_append_msb]
  · exact encode_of_decodeSymbol classifyLitLen_some ht (fun _ => rfl) h
  · exact encode_of_decodeSymbol classifyDist_some ht (fun _ => rfl) h
  · exact encode_of_decodeSymbol classifyCodeLen_some ht (fun _ => rfl) h

/-- Settles O27: each word evaluated. -/
theorem knownWords : Obligations.KnownWords := by
  refine ⟨rfl, rfl, ?_, rfl, rfl, rfl, rfl, rfl⟩
  have hstage := decode_stage_words 0x00000001 0x00000003 0x0000000C 0x00000002 []
  rw [List.append_nil] at hstage
  exact hstage

end Sys2Proof
end

section
/-! SUPPORT. Command words that are no command (30_encoding.md R111; 40_pipeline.md R163): the command that an accepted CMD write
starts ends at the completion after its dispatch. -/

namespace Sys2Proof.Machine

variable {s t : State}

theorem exec_illegalCommand (h : s.work = .command) (w : Word) :
    exec (.illegalCommand w) s = .next (s.raiseCommand .illegalCommand w) :=
  onCommand_eq (fun s => s.raiseCommand .illegalCommand w) h

theorem coreTurn_illegalCommand (h : s.work = .command) (h1 : s.op ≠ 1) (h2 : s.op ≠ 2) (h3 : s.op ≠ 3) :
    coreTurn s = .next (s.raiseCommand .illegalCommand s.op) := by
  rw [coreTurn_command h, if_neg h1, if_neg h2, if_neg h3]
  exact exec_illegalCommand h s.op

/-- With no event waiting, a run begins with a turn of the Core. -/
theorem run_succ_of_coreTurn (hi : s.inputs = []) (h : coreTurn s = .next t) (n : Nat) :
    Sys2Proof.core.run (n + 1) s = Sys2Proof.core.run n t := by
  have hstep : Sys2Proof.core.step s = .next t := (step_core hi).trans h
  simp only [Host.Core.run, hstep]

/-- From its dispatch on the command takes two turns: the one that raises the error, and the completion step. -/
theorem run_illegalCommand (hi : s.inputs = []) (h : s.work = .command) (h1 : s.op ≠ 1) (h2 : s.op ≠ 2) (h3 : s.op ≠ 3) :
    Sys2Proof.core.run 2 s = .next (s.complete (.err .illegalCommand none s.op)) := by
  calc
    Sys2Proof.core.run 2 s = Sys2Proof.core.run 1 (s.raiseCommand .illegalCommand s.op) :=
      run_succ_of_coreTurn hi (coreTurn_illegalCommand h h1 h2 h3) 1
    _ = Sys2Proof.core.run 0 ((s.raiseCommand .illegalCommand s.op).complete (.err .illegalCommand none s.op)) :=
      run_succ_of_coreTurn (s := s.raiseCommand .illegalCommand s.op) hi (coreTurn_finish rfl) 0
    _ = .next (s.complete (.err .illegalCommand none s.op)) := rfl

/-- Settles O31: the CMD write starts the command, whose two turns end in the error's record. -/
theorem illegalCommand : Obligations.IllegalCommand :=
  ⟨fun _ w h => exec_illegalCommand h w, fun s w hb hi h1 h2 h3 =>
    ⟨_, _, memWrite_cmd hb w, run_illegalCommand (s := s.startCommand w) hi rfl h1 h2 h3, rfl, rfl, rfl, rfl, rfl, rfl⟩⟩

end Sys2Proof.Machine
end

section
/-! SUPPORT. The stored encoder round-trips (41_flate.md R230, R231; 40_pipeline.md R161): bits read at the boundary of a byte, one
stored chunk, the chunks by induction, and the trailer. -/

namespace Sys2Proof.Machine

/-! ## Bits from a byte on -/

/-- Whole bytes in front of a stream only move the cursor. -/
theorem bitLsb_append (pre s : List Byte) (k : Nat) : bitLsb (pre ++ s) (8 * pre.length + k) = bitLsb s k := by
  have hdiv : (8 * pre.length + k) / 8 = pre.length + k / 8 := by omega
  have hmod : (8 * pre.length + k) % 8 = k % 8 := by omega
  rw [bitLsb, bitLsb, hdiv, hmod, List.getElem?_append_right (Nat.le_add_right _ _), Nat.add_sub_cancel_left]

theorem windowLsb_append (pre s : List Byte) (k n : Nat) :
    windowLsb (pre ++ s) (8 * pre.length + k) n = windowLsb s k n := by
  induction n generalizing k with
  | zero => rfl
  | succ n ih => rw [windowLsb, windowLsb, bitLsb_append, Nat.add_assoc, ih]

theorem getBits_append (pre s : List Byte) (k n : Nat) : getBits (pre ++ s) (8 * pre.length + k) n = getBits s k n := by
  rw [getBits, getBits, windowLsb_append]

theorem natOfLsb_append (xs ys : List Bool) : natOfLsb (xs ++ ys) = natOfLsb xs + 2 ^ xs.length * natOfLsb ys := by
  induction xs with
  | nil => simp [natOfLsb]
  | cons x xs ih => rw [List.cons_append, natOfLsb, natOfLsb, ih, List.length_cons, Nat.pow_succ]; ring

theorem natOfLsb_byteBits (b : Byte) : natOfLsb (byteBits b) = b.toNat := by
  rw [byteBits, natOfLsb_lsbBits, Nat.mod_eq_of_lt b.isLt]

/-- Sixteen bits from a byte on are the two bytes, least significant first. -/
theorem getBits_two_bytes (b c : Byte) (s : List Byte) : getBits (b :: c :: s) 0 16 = some (b.toNat + 256 * c.toNat) := by
  have hb : windowLsb (b :: c :: s) 0 8 = byteBits b := windowLsb_byte (b :: c :: s) 0 (by simp)
  have hc : windowLsb (b :: c :: s) (0 + 8) 8 = byteBits c := windowLsb_byte (b :: c :: s) 1 (by simp)
  have hw : windowLsb (b :: c :: s) 0 (8 + 8) = byteBits b ++ byteBits c := by
    rw [windowLsb_add _ _ _ _ (by rw [hb, byteBits_length]), hb, hc]
  rw [getBits, hw, natOfLsb_append, natOfLsb_byteBits, natOfLsb_byteBits, byteBits_length]
  exact if_pos (by simp)

theorem getBits_le16Bytes {v : Nat} (h : v < 65536) (s : List Byte) : getBits (le16Bytes v ++ s) 0 16 = some v := by
  rw [le16Bytes, List.cons_append, List.cons_append, List.nil_append, getBits_two_bytes]
  congr 1
  simp only [BitVec.toNat_ofNat]
  omega

/-- The header bits of a stored chunk: BFINAL, then BTYPE 0. -/
theorem getBits_chunk_header (final : Bool) (s : List Byte) :
    getBits (BitVec.ofNat 8 final.toNat :: s) 0 1 = some final.toNat ∧
      getBits (BitVec.ofNat 8 final.toNat :: s) 1 2 = some 0 := by
  cases final <;> exact ⟨rfl, rfl⟩

/-! ## Whole bytes -/

theorem takeBytes_append (pre bs s : List Byte) : takeBytes (pre ++ (bs ++ s)) pre.length bs.length = some bs := by
  rw [takeBytes, List.drop_left, List.take_left, if_pos rfl]

/-! ## One chunk -/

@[simp] theorem le16Bytes_length (v : Nat) : (le16Bytes v).length = 2 := rfl

theorem storedChunk_length (final : Bool) (c : List Byte) : (storedChunk final c).length = 5 + c.length := by
  simp only [storedChunk, List.length_cons, List.length_append, le16Bytes_length]; omega

/-- The complement of a 16-bit length is one too. -/
theorem complement16_lt {n : Nat} (h : n ≤ 65535) : n ^^^ 0xFFFF < 65536 :=
  Nat.xor_lt_two_pow (n := 16) (by omega) (by decide)

/-- The block of a stored chunk (41_flate.md R200), read from behind the three bits of its header. -/
theorem storedBlock_storedChunk (pre c s : List Byte) (final : Bool) (hc : c.length ≤ 65535) :
    storedBlock (pre ++ (storedChunk final c ++ s)) (8 * pre.length + 3) =
      some (c, 8 * (pre.length + (storedChunk final c).length)) := by
  have halign : alignPos (8 * pre.length + 3) = 8 * (pre.length + 1) := by rw [alignPos]; omega
  have hlen : getBits (pre ++ (storedChunk final c ++ s)) (8 * (pre.length + 1)) 16 = some c.length := by
    have h := getBits_append (pre ++ [BitVec.ofNat 8 final.toNat])
      (le16Bytes c.length ++ (le16Bytes (c.length ^^^ 0xFFFF) ++ (c ++ s))) 0 16
    rw [getBits_le16Bytes (by omega)] at h
    simpa [storedChunk] using h
  have hnlen : getBits (pre ++ (storedChunk final c ++ s)) (8 * (pre.length + 1) + 16) 16 = some (c.length ^^^ 0xFFFF) := by
    have h := getBits_append (pre ++ [BitVec.ofNat 8 final.toNat] ++ le16Bytes c.length)
      (le16Bytes (c.length ^^^ 0xFFFF) ++ (c ++ s)) 0 16
    rw [getBits_le16Bytes (complement16_lt hc)] at h
    simpa [storedChunk, Nat.mul_add, Nat.add_assoc] using h
  have hbytes : takeBytes (pre ++ (storedChunk final c ++ s)) ((8 * (pre.length + 1) + 32) / 8) c.length = some c := by
    have hpos : (8 * (pre.length + 1) + 32) / 8 = pre.length + 5 := by omega
    have h := takeBytes_append (pre ++ [BitVec.ofNat 8 final.toNat] ++ le16Bytes c.length ++ le16Bytes (c.length ^^^ 0xFFFF)) c s
    rw [hpos]
    simpa [storedChunk, Nat.add_assoc] using h
  rw [storedBlock, halign, storedChunk_length]
  simp only [hlen, hnlen, hbytes, Nat.xor_xor_cancel_right, ne_eq, not_true_eq_false, if_false, Option.map_some]
  congr 2
  omega

/-! ## The chunks -/

/-- One round of INFLATE's loop over blocks on a stored chunk (41_flate.md R199, R200). -/
theorem inflateBlocks_storedChunk (pre c s out : List Byte) (final : Bool) (fuel : Nat) (hc : c.length ≤ 65535) :
    inflateBlocks (pre ++ (storedChunk final c ++ s)) (fuel + 1) (8 * pre.length) out =
      if final then some (8 * (pre ++ storedChunk final c).length, out ++ c)
      else inflateBlocks (pre ++ (storedChunk final c ++ s)) fuel (8 * (pre ++ storedChunk final c).length) (out ++ c) := by
  obtain ⟨hfinal, htype⟩ := getBits_chunk_header final (le16Bytes c.length ++ le16Bytes (c.length ^^^ 0xFFFF) ++ c ++ s)
  have hbf : getBits (pre ++ (storedChunk final c ++ s)) (8 * pre.length) 1 = some final.toNat :=
    (getBits_append pre _ 0 1).trans hfinal
  have hbt : getBits (pre ++ (storedChunk final c ++ s)) (8 * pre.length + 1) 2 = some 0 :=
    (getBits_append pre _ 1 2).trans htype
  have hblock : inflateBlock (pre ++ (storedChunk final c ++ s)) 0 (8 * pre.length + 3) out =
      some (8 * (pre ++ storedChunk final c).length, out ++ c) := by
    rw [inflateBlock, if_pos rfl, storedBlock_storedChunk pre c s final hc, List.length_append, Option.map_some]
  rw [inflateBlocks, hbf, hbt]
  simp only [hblock]
  cases final <;> rfl

/-- The loop over blocks reads all chunks of `d` and stops behind the last one. -/
theorem inflateBlocks_storedChunks (n : Nat) (pre d s out : List Byte) (fuel : Nat) (hd : d.length ≤ 65535 * (n + 1))
    (hf : n < fuel) :
    inflateBlocks (pre ++ (storedChunks n d ++ s)) fuel (8 * pre.length) out =
      some (8 * (pre ++ storedChunks n d).length, out ++ d) := by
  induction n generalizing pre d out fuel with
  | zero =>
    obtain ⟨fuel, rfl⟩ := Nat.exists_eq_add_of_lt hf
    exact inflateBlocks_storedChunk pre d s out true _ (by omega)
  | succ n ih =>
    obtain ⟨fuel, rfl⟩ : ∃ f, fuel = f + 1 := ⟨fuel - 1, by omega⟩
    rw [storedChunks]
    by_cases hlast : d.length ≤ 65535
    · rw [if_pos hlast]
      exact inflateBlocks_storedChunk pre d s out true fuel hlast
    · rw [if_neg hlast, List.append_assoc, inflateBlocks_storedChunk _ _ _ _ _ _ (by simp), if_neg Bool.false_ne_true,
        ← List.append_assoc pre, ih _ _ _ _ (by rw [List.length_drop]; omega) (by omega), List.append_assoc pre,
        List.append_assoc out, List.take_append_drop]

/-- One header of five bytes for each piece of 65535 bytes, and for an empty `d` too (41_flate.md R231). -/
theorem storedChunks_length (n : Nat) (d : List Byte) (hd : d.length ≤ 65535 * (n + 1)) :
    (storedChunks n d).length = 5 * max 1 ((d.length + 65534) / 65535) + d.length := by
  induction n generalizing d with
  | zero => rw [storedChunks, storedChunk_length]; omega
  | succ n ih =>
    rw [storedChunks]
    by_cases hlast : d.length ≤ 65535
    · rw [if_pos hlast, storedChunk_length]; omega
    · rw [if_neg hlast, List.length_append, storedChunk_length, ih _ (by rw [List.length_drop]; omega), List.length_take,
        List.length_drop]
      omega

/-- The units of fuel that `storedEnc` gives suffice for its pieces. -/
theorem length_le_chunks (d : List Byte) : d.length ≤ 65535 * (d.length / 65535 + 1) := by omega

/-! ## The trailer and the whole stream -/

theorem adler32_lt (d : List Byte) : adler32 d < 2 ^ 32 := by
  obtain ⟨ha, hb⟩ := adler_fold_lt d (1, 0) (by decide) (by decide)
  rw [adler32]
  omega

theorem natOfBe32_be32 {v : Nat} (h : v < 2 ^ 32) : natOfBe32 (be32 v) = v := by
  simp only [natOfBe32, be32, List.foldl_cons, List.foldl_nil, BitVec.toNat_ofNat]
  omega

theorem trailerValue_be32 (pre : List Byte) {v : Nat} (h : v < 2 ^ 32) :
    trailerValue (pre ++ be32 v) (8 * pre.length) = some v := by
  have halign : alignPos (8 * pre.length) / 8 = pre.length := by rw [alignPos]; omega
  have hbytes := takeBytes_append pre (be32 v) []
  rw [List.append_nil] at hbytes
  rw [trailerValue, halign]
  exact (congrArg (Option.map natOfBe32) hbytes).trans (congrArg some (natOfBe32_be32 h))

theorem storedEnc_length (d : List Byte) :
    (storedEnc d).length = 2 + 5 * max 1 ((d.length + 65534) / 65535) + d.length + 4 := by
  rw [storedEnc, List.length_append, List.length_append, storedChunks_length _ _ (length_le_chunks d)]
  simp only [be32, List.length_cons, List.length_nil]
  omega

/-- A stream whose header, blocks and trailer all pass (41_flate.md R196). -/
theorem inflate_eq_some {cmf flg : Byte} {rest out : List Byte} {pos : Nat} (hok : zlibHeaderOk cmf flg = true)
    (hblocks : inflateBlocks (cmf :: flg :: rest) (8 * (cmf :: flg :: rest).length + 1) 16 [] = some (pos, out))
    (htrailer : trailerValue (cmf :: flg :: rest) pos = some (adler32 out)) : inflate (cmf :: flg :: rest) = some out := by
  rw [inflate_cons, if_pos hok, hblocks]
  exact if_pos htrailer

/-- INFLATE undoes STORED_ENC (41_flate.md R231). -/
theorem inflate_storedEnc (d : List Byte) : inflate (storedEnc d) = some d := by
  have hfuel : d.length / 65535 < 8 * (storedEnc d).length + 1 := by rw [storedEnc_length]; omega
  have hblocks := inflateBlocks_storedChunks (d.length / 65535) [0x78, 0x01] d (be32 (adler32 d)) [] _ (length_le_chunks d) hfuel
  have htrailer := trailerValue_be32 ([0x78, 0x01] ++ storedChunks (d.length / 65535) d) (adler32_lt d)
  rw [List.append_assoc] at htrailer
  exact inflate_eq_some (by decide) hblocks htrailer

/-- The free encoder answers only where it round-trips, STORED_ENC elsewhere (assumption log 5). -/
theorem inflate_deflateEnc (d : List Byte) : inflate (deflateEnc d) = some d := by
  rw [deflateEnc]
  by_cases h : inflate (Config.freeEncoder d) = some d
  · rw [if_pos h, h]
  · rw [if_neg h, inflate_storedEnc]

/-! ## The commands -/

/-- A success of FLATE_ENCODE is the encoder's output for the input (40_pipeline.md R160). -/
theorem eq_deflateEnc_of_ok {x : Snapshot} {z : List Byte} (hop : x.op = 2) (h : commandResult x = .ok z) :
    z = deflateEnc x.input := by
  rw [commandResult, hop, if_neg (by decide), if_pos rfl, flateEncodeResult] at h
  split_ifs at h
  exact (Result.ok.inj h).symm

/-- A Flate stage with `Predictor` 1 is INFLATE (41_flate.md R191). -/
theorem flateDecode_of_inflate {z d : List Byte} (h : inflate z = some d) (columns : Option Word) :
    flateDecode z 1 columns = .ok d := by
  rw [flateDecode, h]
  exact if_pos rfl

/-- A descriptor of a FLATE stage passes validation (40_pipeline.md R153). -/
theorem validateDesc_flate {desc : Desc} (h : desc.kind = 1) : validateDesc desc = none := by
  rw [validateDesc_eq, if_pos (.inl h)]

theorem runStage_flate {desc : Desc} {z d : List Byte} (hk : desc.kind = 1) (hp : desc.predP = false) (h : inflate z = some d) :
    runStage desc z = .ok d := by
  rw [runStage, if_pos hk, hp, if_neg Bool.false_ne_true]
  exact flateDecode_of_inflate h _

/-- DECODE through one FLATE stage without a predictor, of data that inflates to `d` (40_pipeline.md R151). -/
theorem decodeStream_flate {y : Snapshot} {desc : Desc} {d : List Byte} (hin : y.inLen ≤ y.params.inCap) (hn : y.nstages = 1)
    (hmax : 1 ≤ y.params.stageMax) (hdesc : y.descs.head? = some desc) (hk : desc.kind = 1) (hp : desc.predP = false)
    (hinf : inflate y.input = some d) (hout : d.length ≤ y.params.outCap) : decodeStream y = .ok d := by
  obtain ⟨rest, hrest⟩ := List.head?_eq_some_iff.mp hdesc
  have hchain : y.descs.take 1 = [desc] := by rw [hrest]; rfl
  have hvalid : validateChain 0 [desc] = none := by rw [validateChain, validateDesc_flate hk]; rfl
  have hrun : runStages y.params.outCap 0 [desc] y.input = .ok d := by
    rw [runStages, runStage_flate hk hp hinf]
    exact if_neg (Nat.not_lt.mpr hout)
  rw [decodeStream_eq, hn, if_neg (Nat.not_lt.mpr hin), if_neg (Nat.not_lt.mpr hmax), hchain, hvalid, hrun]
  exact if_neg (Nat.not_lt.mpr hout)

/-- Settles O57: INFLATE's loop over the chunks, by induction on their number; then FLATE_ENCODE's `z` inflates to its input, and
DECODE's one stage is INFLATE. -/
theorem encoderRoundTrip : Obligations.EncoderRoundTrip := by
  refine ⟨fun d => ⟨inflate_storedEnc d, storedEnc_length d, inflate_deflateEnc d⟩, ?_⟩
  intro x y z desc hx hz hy hinput hlen hfit hn hmax hdesc hk hp hout
  have hinf : inflate y.input = some x.input := by rw [hinput, eq_deflateEnc_of_ok hx hz, inflate_deflateEnc]
  rw [commandResult, if_pos hy]
  exact decodeStream_flate (hlen ▸ hfit) hn hmax hdesc hk hp hinf hout

end Sys2Proof.Machine
end

section
/-! SUPPORT. The command cycle at its two ends, the dispatch of DECODE and FLATE_ENCODE, and the descriptors in validation and at
their dispatch (40_pipeline.md R150-R160; 60_exceptions.md R380, R390). -/

namespace Sys2Proof.Machine

variable {s : State}

/-! ## Command start and completion -/

/-- Settles O18: the accepted write is `startCommand`, which drops what OUT_BUF holds and leaves the other buffers. -/
theorem commandStart : Obligations.CommandStart := by
  intro s w
  refine ⟨fun hb => ⟨s.mem.clearOut, memWrite_cmd hb w, fun a ha => ?_, fun a ha => ?_⟩, fun hb => ?_, fun hb => ?_⟩
  · rw [Memory.get_clearOut, if_pos ha]
  · rw [Memory.get_clearOut, if_neg (Nat.not_lt.mpr ha)]
  · exact memWrite_busy hb (by decide)
  · rw [memWrite_cmd hb]; rfl

/-- The fifteen codes of 60_exceptions.md R380, in its order. -/
def errorCodes : List (ErrCode × BitVec 8) :=
  [.unsupportedFilter, .unsupportedPredictor, .unsupportedPngFilter, .truncatedLzwStream, .invalidA85Char, .invalidA85Group,
    .invalidHexDigitCount, .illegalCommand, .invalidParam, .inflateError, .predictorRowLength, .invalidLzwCode, .lzwDictFull,
    .invalidHexChar, .capacityExceeded].map fun e => (e, e.toByte)

theorem mem_errorCodes {e : ErrCode} {n : BitVec 8} : (e, n) ∈ errorCodes ↔ n = e.toByte := by
  cases e <;> simp [errorCodes]

/-- Settles O19: the table is the one of `ErrCode.toByte`, and the turn is `complete`, whose memory is `storeOut`'s. -/
theorem completion : Obligations.Completion := by
  refine ⟨fun e => ⟨e.toByte, mem_errorCodes.mpr rfl⟩, fun s => ⟨fun out hw => ?_, fun e n stage info hn hw => ?_⟩⟩
  · refine ⟨s.mem.storeOut out, coreTurn_finish hw, fun a ha => ?_, fun i => ?_⟩
    · rw [Memory.get_storeOut, if_pos ha]
    · rw [Memory.get_storeOut, if_neg (Nat.not_lt.mpr (Nat.le_add_right _ i)), Nat.add_sub_cancel_left]
  · obtain rfl : n = e.toByte := mem_errorCodes.mp hn
    exact coreTurn_finish hw

/-! ## The dispatch of DECODE and FLATE_ENCODE -/

theorem withInput_of_lt (f : State → State) (h : s.params.inCap < s.inLen.toNat) :
    s.withInput f = { s with work := .finish (.err .invalidParam none 1) } := if_pos h

theorem withInput_of_le (f : State → State) (h : s.inLen.toNat ≤ s.params.inCap) : s.withInput f = f s :=
  if_neg (Nat.not_lt.mpr h)

/-- Settles O28: the check of IN_LEN, then that of NSTAGES. -/
theorem decodeCommand : Obligations.DecodeCommand := by
  intro s hw
  have hexec : exec .decode s = .next (s.withInput _) := onCommand_eq _ hw
  refine ⟨fun hlong => ?_, fun hin hst => ?_, fun hin hst => ?_⟩
  · rw [hexec, withInput_of_lt _ hlong]
  · rw [hexec, withInput_of_le _ hin, if_pos hst]; rfl
  · rw [hexec, withInput_of_le _ hin, if_neg (Nat.not_lt.mpr hst)]; rfl

theorem drawn_withWork (s : State) (w : Work) : s.drawn.withWork w = { s with work := w, draw := s.draw + 1 } := rfl

/-- Settles O29: the check of IN_LEN, the round trip of the encoder, and the capacity check. -/
theorem flateEncodeCommand : Obligations.FlateEncodeCommand := by
  intro s hw
  have hexec : exec .flateEncode s = .next (s.withInput _) := onCommand_eq _ hw
  refine ⟨fun hlong => ?_, fun hin => ⟨_, s.draw + 1, inflate_deflateEnc _, rfl, fun hfit => ?_, fun hbig => ?_⟩⟩
  · rw [hexec, withInput_of_lt _ hlong]
  · rw [hexec, withInput_of_le _ hin, ← drawn_withWork]
    exact congrArg _ (if_neg (Nat.not_lt.mpr hfit))
  · rw [hexec, withInput_of_le _ hin, ← drawn_withWork]
    exact congrArg _ (if_pos hbig)

/-! ## The descriptors of known kinds -/

theorem exec_flate_eq (predictor columns : Option Word) (s : State) : exec (.flate predictor columns) s =
    s.onStage fun s => s.inflateNext (inflateStart s.cur (effectivePredictor predictor) columns) := rfl

theorem exec_ahx_eq (s : State) : exec .ahx s = s.onStage fun s => s.withWork (.ahx ahxStart) := rfl

theorem exec_lzw_eq (s : State) : exec .lzw s = s.onStage fun s => s.withWork (.lzw lzwStart) := rfl

theorem exec_a85_eq (s : State) : exec .a85 s = s.onStage fun s => s.withWork (.a85 (a85Start s.cur)) := rfl

theorem exec_crypt_eq (s : State) : exec .crypt s = s.onStage fun s => s.endStage s.cur := rfl

/-! ## Validation -/

/-- The payload of 40_pipeline.md R154, as a sum and as the disjunction the rule writes. -/
theorem cryptNamed_info (cname ctype : Bool) : BitVec.ofNat 32 (5 + 256 * cname.toNat + 512 * ctype.toNat) =
    0x05 ||| (BitVec.ofBool cname).setWidth 32 <<< 8 ||| (BitVec.ofBool ctype).setWidth 32 <<< 9 := by
  cases cname <;> cases ctype <;> decide

section
variable {j : Nat} (h : s.work = .validate j)
include h

theorem exec_known_validate {i : Instr} (hi : (∃ p c, i = .flate p c) ∨ i = .ahx ∨ i = .lzw ∨ i = .a85 ∨ i = .crypt) :
    exec i s = .next { s with work := .validate (j + 1) } := by
  rcases hi with ⟨p, c, rfl⟩ | rfl | rfl | rfl | rfl
  · rw [exec_flate_eq, onStage_validate _ h]
  · rw [exec_ahx_eq, onStage_validate _ h]
  · rw [exec_lzw_eq, onStage_validate _ h]
  · rw [exec_a85_eq, onStage_validate _ h]
  · rw [exec_crypt_eq, onStage_validate _ h]

theorem exec_kindUnknown_validate (kind : BitVec 8) : exec (.kindUnknown kind) s =
    .next { s with work := .finish (.err .unsupportedFilter (some j) (kind.setWidth 32)) } :=
  onBadStage_validate (kind.setWidth 32) h

theorem exec_cryptNamed_validate (cname ctype : Bool) : exec (.cryptNamed cname ctype) s =
    .next { s with work := .finish (.err .unsupportedFilter (some j)
      (0x05 ||| (BitVec.ofBool cname).setWidth 32 <<< 8 ||| (BitVec.ofBool ctype).setWidth 32 <<< 9)) } := by
  rw [← cryptNamed_info]
  exact onBadStage_validate _ h

end

theorem validateDesc_unknown {d : Desc} (h : d.kind ∉ [0x01, 0x02, 0x03, 0x04, 0x05]) :
    validateDesc d = some (d.kind.setWidth 32) := by
  have hknown : ¬(d.kind = 1 ∨ d.kind = 2 ∨ d.kind = 3 ∨ d.kind = 4) := by
    intro hk
    exact h (by rcases hk with hk | hk | hk | hk <;> simp [hk])
  have hcrypt : d.kind ≠ 5 := fun hk => h (by simp [hk])
  rw [validateDesc_eq, if_neg hknown, if_neg hcrypt]

theorem validateDesc_cryptNamed {d : Desc} (hk : d.kind = 0x05) (h : d.cnameP = true ∨ d.ctypeP = true) :
    validateDesc d =
      some (0x05 ||| (BitVec.ofBool d.cnameP).setWidth 32 <<< 8 ||| (BitVec.ofBool d.ctypeP).setWidth 32 <<< 9) := by
  rw [validateDesc_eq, hk, if_neg (by decide), if_pos rfl, if_pos (by simpa using h), cryptNamed_info]

theorem validateDesc_passes {d : Desc}
    (h : d.kind ∈ [0x01, 0x02, 0x03, 0x04] ∨ (d.kind = 0x05 ∧ d.cnameP = false ∧ d.ctypeP = false)) :
    validateDesc d = none := by
  rcases h with h | ⟨hk, hcname, hctype⟩
  · rw [validateDesc_eq, if_pos (by simpa using h)]
  · rw [validateDesc_eq, hk, hcname, hctype]; rfl

/-- Settles O32: the instructions, then the turn on each kind of descriptor. -/
theorem validation : Obligations.Validation := by
  refine ⟨fun s j h => ⟨fun i => exec_known_validate h, exec_kindUnknown_validate h, exec_cryptNamed_validate h⟩,
    fun s j h hj => ?_⟩
  have hturn := coreTurn_validate h hj
  refine ⟨fun hk => ?_, fun hk hnamed => ?_, fun hpass => ?_⟩
  · rw [hturn, validateDesc_unknown hk]
  · rw [hturn, validateDesc_cryptNamed hk hnamed]
  · rw [hturn, validateDesc_passes hpass]

/-! ## Dispatch -/

/-- INFLATE starts where the input has two bytes that make a zlib header (41_flate.md R196). -/
theorem inflateStart_eq (inp : List Byte) (predictor : Word) (columns : Option Word) :
    inflateStart inp predictor columns =
      if 2 ≤ inp.length ∧ zlibHeaderOk (inp.getD 0 0) (inp.getD 1 0) = true then
        some { pos := 16, bfinal := false, btype := 0, litLen := [], dist := [], mode := .header, out := [], adlerA := 1,
               adlerB := 0, predictor := predictor, columns := columns }
      else none := by
  match inp with
  | [] => rfl
  | [_] => rfl
  | cmf :: flg :: rest => simp [inflateStart]

/-- Settles O33: the start of each unit, and of INFLATE only behind a header that passes. -/
theorem stageDispatch : Obligations.StageDispatch := by
  intro s hw
  refine ⟨?_, ?_, ?_, fun predictor columns => ?_, fun hfit => ?_⟩
  · rw [exec_ahx_eq, onStage_stage _ hw]; rfl
  · rw [exec_lzw_eq, onStage_stage _ hw]; rfl
  · rw [exec_a85_eq, onStage_stage _ hw]; rfl
  · rw [exec_flate_eq, onStage_stage _ hw, inflateStart_eq]
    split_ifs <;> rfl
  · rw [exec_crypt_eq, onStage_stage _ hw, endStage_of_le hfit]

/-- Settles O59: the dispatch starts the unit, and each unit ends as its pseudocode says. -/
theorem stageRuns : Obligations.StageRuns := fun _ hi hw hk hv => reaches_stage hi hw hk hv

end Sys2Proof.Machine
end

section
/-! SUPPORT. The Flate stage around its blocks: the zlib header in front (41_flate.md R197, R198), and the predictor behind, with
the rows of PNG byte by byte (R191-R194, R224-R229). -/

namespace Sys2Proof.Machine

variable {s : State}

/-! ## The zlib header -/

theorem extractLsb'_low_ne_eight (b : Byte) : b.extractLsb' 0 4 ≠ 8 ↔ b.toNat % 16 ≠ 8 := by
  rw [Ne, ← BitVec.toNat_inj, BitVec.extractLsb'_toNat, Nat.shiftRight_zero]; rfl

theorem extractLsb'_high_toNat (b : Byte) : (b.extractLsb' 4 4).toNat = b.toNat / 16 := by
  have hb := b.isLt
  rw [BitVec.extractLsb'_toNat, Nat.shiftRight_eq_div_pow]; omega

/-- The header check over the fields of CMF and FLG as the rule names them (41_flate.md R197). -/
theorem zlibHeaderOk_iff (cmf flg : Byte) : zlibHeaderOk cmf flg = true ↔
    ¬((cmf.toNat * 256 + flg.toNat) % 31 ≠ 0 ∨ cmf.extractLsb' 0 4 ≠ 8 ∨ 7 < (cmf.extractLsb' 4 4).toNat ∨
      flg.getLsbD 5 = true) := by
  rw [extractLsb'_low_ne_eight, extractLsb'_high_toNat, zlibHeaderOk]
  simp only [Bool.and_eq_true, beq_iff_eq, decide_eq_true_eq, Bool.not_eq_true', not_or, not_not, Nat.not_lt,
    Bool.not_eq_true, and_assoc]

theorem exec_flate_stage (hw : s.work = .stage) (predictor columns : Option Word) : exec (.flate predictor columns) s =
    .next (s.inflateNext (inflateStart s.cur (effectivePredictor predictor) columns)) := by
  rw [exec_flate_eq, onStage_stage _ hw]

/-- Settles O34: INFLATE starts exactly where the header check passes. -/
theorem zlibHeader : Obligations.ZlibHeader := by
  intro s predictor columns cmf flg rest hw hcur
  have hexec := exec_flate_stage hw predictor columns
  rw [inflateStart_eq, hcur] at hexec
  rw [← zlibHeaderOk_iff, hexec]
  have hlen : 2 ≤ (cmf :: flg :: rest).length := Nat.le_add_left 2 rest.length
  refine ⟨fun hbad => ?_, fun hok => ?_⟩
  · rw [if_neg fun h => (zlibHeaderOk_iff cmf flg).mp h.2 hbad, inflateNext_none]
  · rw [if_pos ⟨hlen, hok⟩]
    exact ⟨_, rfl, rfl, rfl, rfl⟩

/-! ## The predictor values -/

/-- Settles O36: the inflated data is the stage's output; and of the values that a turn reads, all but seven are refused. -/
theorem predictorNoneAndUnsupported : Obligations.PredictorNoneAndUnsupported := by
  intro s st hw
  have hnone : exec .predNone s = .next (s.endStage st.x) := onPredict_eq (fun s st => s.endStage st.x) hw
  refine ⟨fun hfit => ?_, fun hbig => ?_, fun value => ?_, fun value h1 hpng hv => ?_⟩
  · rw [hnone, endStage_of_le hfit]
  · rw [hnone, endStage_of_lt hbig]
  · exact onPredict_eq (fun s _ => s.raiseStage .unsupportedPredictor value) hw
  · subst hv
    have hne : st.predictor ≠ 1 := fun h => h1 (by rw [h]; decide)
    rw [coreTurn_predict hw, if_neg hne, if_neg hpng]; rfl

/-- The six PNG predictors behave identically (41_flate.md R192). -/
theorem exec_predPng {st : PredictState} (hw : s.work = .predict st) {i : Instr}
    (hi : i ∈ [Instr.predPng10, .predPng11, .predPng12, .predPng13, .predPng14, .predPng15]) :
    exec i s = .next (s.startPng st) := by
  simp only [List.mem_cons, List.not_mem_nil, or_false] at hi
  rcases hi with rfl | rfl | rfl | rfl | rfl | rfl <;> exact onPredict_eq State.startPng hw

/-- The checks of `Columns` and of the row length, where `Columns` is present (41_flate.md R224, R225). -/
theorem startPng_some {st : PredictState} {c : Word} (hc : st.columns = some c) (s : State) : s.startPng st =
    if c.toInt < 1 then s.raiseStage .invalidParam 5
    else if st.x.length % (c.toNat + 1) ≠ 0 then s.raiseStage .predictorRowLength 0
    else s.withWork (.png { x := st.x, cols := c.toNat, r := 0, prev := List.replicate c.toNat 0, out := [] }) := by
  rw [State.startPng, hc]

/-- Settles O37: the three checks in their order. -/
theorem predictorPng : Obligations.PredictorPng := by
  intro s st hw i hi
  rw [exec_predPng hw hi]
  refine ⟨fun hnone => ?_, fun c hc => ?_⟩
  · rw [State.startPng, hnone]; rfl
  · rw [startPng_some hc, Nat.dvd_iff_mod_eq_zero]
    refine ⟨fun hlt => ?_, fun hge hrow => ?_, fun hge hrow => ?_⟩
    · rw [if_pos hlt]; rfl
    · rw [if_neg (not_lt.mpr hge), if_pos hrow]; rfl
    · rw [if_neg (not_lt.mpr hge), if_neg (not_not.mpr hrow)]; rfl

/-! ## The rows -/

/-- The data bytes of a row that lies inside the data. -/
theorem rowData_length {st : PngState} (h : (st.r + 1) * (st.cols + 1) ≤ st.x.length) : st.rowData.length = st.cols := by
  rw [Nat.succ_mul] at h
  rw [PngState.rowData, PngState.rowLength, List.length_take, List.length_drop]
  omega

theorem rowData_getD {st : PngState} {i : Nat} (hi : i < st.cols) :
    st.rowData.getD i 0 = st.x.getD (st.r * (st.cols + 1) + 1 + i) 0 := by
  simp only [PngState.rowData, PngState.rowLength, List.getD_eq_getElem?_getD, List.getElem?_take, if_pos hi, List.getElem?_drop]

/-- Sub adds the byte on the left; `left` stands there for the first byte (41_flate.md R227). -/
theorem subRow_getD (left : Byte) (ys : List Byte) {i : Nat} (hi : i < ys.length) :
    (subRow left ys).getD i 0 = ys.getD i 0 + if i = 0 then left else (subRow left ys).getD (i - 1) 0 := by
  induction ys generalizing left i with
  | nil => exact absurd hi (Nat.not_lt_zero i)
  | cons y ys ih =>
    cases i with
    | zero => rfl
    | succ i =>
      have hrest := ih (y + left) (Nat.lt_of_succ_lt_succ hi)
      rw [subRow, List.getD_cons_succ, List.getD_cons_succ, hrest]
      cases i <;> rfl

theorem upRow_getD (prev : List Byte) {ys : List Byte} {i : Nat} (hi : i < ys.length) :
    (upRow prev ys).getD i 0 = ys.getD i 0 + prev.getD i 0 := by
  simp [upRow, List.getD_eq_getElem?_getD, hi]

/-- A turn at a row executes what its filter-type byte says (41_flate.md R226-R229). -/
theorem coreTurn_png_row {st : PngState} (hw : s.work = .png st) {ft : Byte} (hft : st.x[st.r * (st.cols + 1)]? = some ft) :
    coreTurn s = exec (decodePngRow ft) s := by
  obtain ⟨hlt, -⟩ := List.getElem?_eq_some_iff.mp hft
  have hfin : st.finished = false := decide_eq_false (Nat.not_le.mpr hlt)
  have htype : st.filterType = ft := by
    rw [PngState.filterType, PngState.rowLength, List.getD_eq_getElem?_getD, hft, Option.getD_some]
  have hsite : s.site = .code .pngRow (byteBits ft) := by simp [State.site, hw, hfin, htype]
  have hdec := decode_pngRow ft []
  rw [List.append_nil] at hdec
  rw [coreTurn_code hsite hdec]
  simp only [State.advance, hw]

/-- Settles O38: each filter type's row, byte by byte, and the choice among them. -/
theorem pngRowReconstruction : Obligations.PngRows := by
  intro s st hw ⟨hcols, _⟩ hrow
  have hlen := rowData_length hrow
  have hput : ∀ y : PngState → List Byte,
      State.onPng (fun st => .more (st.putRow (y st))) s = .next (s.withWork (.png (st.putRow (y st)))) :=
    fun _ => onPng_eq _ hw
  refine ⟨⟨st.rowData, hput _, hlen, fun i hi => rowData_getD hi⟩,
    ⟨subRow 0 st.rowData, hput fun st => subRow 0 st.rowData, (subRow_length 0 _).trans hlen, ?_, fun i hi => ?_⟩,
    ⟨upRow st.prev st.rowData, hput fun st => upRow st.prev st.rowData, List.length_mapIdx.trans hlen, fun i hi => ?_⟩,
    fun ft => onPng_eq (fun _ => .fail .unsupportedPngFilter (ft.setWidth 32)) hw, fun ft hft => coreTurn_png_row hw hft⟩
  · rw [subRow_getD 0 _ (hlen ▸ hcols), rowData_getD hcols]
    exact BitVec.add_zero _
  · rw [subRow_getD 0 _ (hlen ▸ hi), rowData_getD hi]
    exact BitVec.toNat_add _ _
  · rw [upRow_getD _ (hlen ▸ hi), rowData_getD hi]
    exact BitVec.toNat_add _ _

end Sys2Proof.Machine
end

section
/-! SUPPORT. The blocks of inflate: a stored block's bytes (41_flate.md R200), the fixed codes (R201), the header of a dynamic
block (R202), its code-length sequence (R204), and its two codes (R203, R205; 30_encoding.md R123). -/

namespace Sys2Proof.Machine

variable {s : State} {st : InflateState} {inp : List Byte} {pos : Nat} {lens : List Nat}

/-! ## A stored block -/

/-- Eight bits at a byte's boundary (41_flate.md R200). -/
theorem getBits_byte {i : Nat} (hi : i < inp.length) : getBits inp (8 * i) 8 = some inp[i].toNat := by
  rw [getBits, windowLsb_byte inp i hi, byteBits_length, if_pos rfl, natOfLsb_byteBits]

theorem getBits_stored_byte {i n t : Nat} (hfit : i + n ≤ inp.length) (ht : t < n) :
    getBits inp (8 * (i + t)) 8 = some (((inp.drop i).take n).getD t 0).toNat := by
  have hlt : i + t < inp.length := by omega
  rw [getBits_byte hlt, List.getD_eq_getElem?_getD, List.getElem?_take, if_pos ht, List.getElem?_drop,
    List.getElem?_eq_getElem hlt, Option.getD_some]

theorem takeBytes_eq (inp : List Byte) (i n : Nat) :
    takeBytes inp i n = if n ≤ inp.length - i then some ((inp.drop i).take n) else none := by
  rw [takeBytes, List.length_take, List.length_drop]
  exact if_congr min_eq_left_iff rfl rfl

/-- Where LEN and NLEN are there and complements, the block is as long as LEN says or cut off. -/
theorem storedBlock_eq {len nlen : Nat} (hlen : getBits inp (alignPos pos) 16 = some len)
    (hnlen : getBits inp (alignPos pos + 16) 16 = some nlen) (hc : len = nlen ^^^ 0xFFFF) :
    storedBlock inp pos = if alignPos pos + 32 + 8 * len ≤ 8 * inp.length then
      some ((inp.drop ((alignPos pos + 32) / 8)).take len, alignPos pos + 32 + 8 * len) else none := by
  have hbits : 16 ≤ 8 * inp.length - (alignPos pos + 16) := by
    have h := getBits_isSome inp (alignPos pos + 16) 16
    rw [hnlen] at h
    exact of_decide_eq_true h.symm
  have halign : alignPos pos % 8 = 0 := Nat.mul_mod_left _ 8
  have hfit : len ≤ inp.length - (alignPos pos + 32) / 8 ↔ alignPos pos + 32 + 8 * len ≤ 8 * inp.length := by omega
  rw [storedBlock]
  simp only [hlen, hnlen, if_neg (not_not.mpr hc), takeBytes_eq, hfit]
  split_ifs <;> rfl

/-- Every ground on which a stored block is refused. -/
theorem storedBlock_eq_none (h : getBits inp (alignPos pos) 16 = none ∨ getBits inp (alignPos pos + 16) 16 = none ∨
      ∃ len nlen, getBits inp (alignPos pos) 16 = some len ∧ getBits inp (alignPos pos + 16) 16 = some nlen ∧
        (len ≠ nlen ^^^ 0xFFFF ∨ 8 * inp.length < alignPos pos + 32 + 8 * len)) :
    storedBlock inp pos = none := by
  rcases h with h | h | ⟨len, nlen, hlen, hnlen, hbad⟩
  · simp only [storedBlock, h]
  · simp only [storedBlock, h]
    cases getBits inp (alignPos pos) 16 <;> rfl
  · by_cases hc : len = nlen ^^^ 0xFFFF
    · rw [storedBlock_eq hlen hnlen hc, if_neg (Nat.not_le.mpr (hbad.resolve_left (not_not.mpr hc)))]
    · simp only [storedBlock, hlen, hnlen, if_pos hc]

theorem exec_zlibStored (hw : s.work = .inflate st) (hm : st.mode = .header) (bfinal : Bool) :
    exec (.zlibStored bfinal) s = .next (s.inflateNext ((storedBlock s.cur st.pos).map fun r =>
      ({ st with pos := r.2, bfinal := bfinal, btype := 0 }.emit r.1).endBlock)) :=
  onInflate_eq (fun st => st.stored s.cur bfinal) hw (congrArg InflateMode.atHeader hm)

/-- Settles O49: the bytes are those of the input behind NLEN. -/
theorem zlibStoredBlock : Obligations.ZlibStoredBlock := by
  intro s st bfinal hw hm
  have hexec := exec_zlibStored hw hm bfinal
  refine ⟨fun len nlen hlen hnlen hc hfit => ?_, fun hbad => ?_⟩
  · have hblock := storedBlock_eq (pos := st.pos) hlen hnlen hc
    have hbytes : (alignPos st.pos + 32) / 8 + len ≤ s.cur.length := by rw [alignPos]; omega
    rw [hblock.trans (if_pos hfit)] at hexec
    refine ⟨_, ?_, fun t ht => ?_, hexec⟩
    · rw [List.length_take, List.length_drop]; omega
    · rw [← getBits_stored_byte hbytes ht, alignPos]
      congr 1
      omega
  · rw [hexec, storedBlock_eq_none hbad]; rfl

/-! ## The fixed codes -/

/-- What build_code assigns (41_flate.md R203). -/
theorem codeWord_canonicalCode (h : ∀ l ∈ lens, l ≤ 15) (sym : Nat) : codeWord (canonicalCode lens) sym =
    if lens.getD sym 0 = 0 then none else
      some { sym := sym, len := lens.getD sym 0
             code := firstCode lens (lens.getD sym 0) + (lens.take sym).count (lens.getD sym 0) } := by
  have hlen : lens.getD sym 0 < 16 := by
    rw [List.getD_eq_getElem?_getD]
    cases hs : lens[sym]? with
    | none => decide
    | some l => exact Nat.lt_succ_of_le (h l (List.mem_of_getElem? hs))
  have hcode := codeWord_assignCodes lens 0 ((List.range 16).map (firstCode lens)) rfl h sym
  have hfirst : ((List.range 16).map (firstCode lens)).getD (lens.getD sym 0) 0 = firstCode lens (lens.getD sym 0) := by
    rw [List.getD_eq_getElem?_getD, List.getElem?_map, List.getElem?_range hlen]; rfl
  rwa [Nat.zero_add, hfirst] at hcode

theorem codeWord_canonicalCode_some (h : ∀ l ∈ lens, l ≤ 15) {sym l code : Nat} (hl : lens.getD sym 0 = l) (h0 : l ≠ 0)
    (hcode : firstCode lens l + (lens.take sym).count l = code) :
    codeWord (canonicalCode lens) sym = some { sym := sym, len := l, code := code } := by
  rw [codeWord_canonicalCode h, hl, if_neg h0, hcode]

/-- The code words' lengths are those of the symbols that have one. -/
theorem assignCodes_lengths (sym : Nat) (next lens : List Nat) :
    (assignCodes sym next lens).map CodeEntry.len = lens.filter (· ≠ 0) := by
  induction lens generalizing sym next with
  | nil => rfl
  | cons l ls ih =>
    by_cases h : l = 0 <;> simp [assignCodes, h, ih]

/-- The Kraft sum over the words is the one over the lengths (41_flate.md R203). -/
theorem kraftSum_canonicalCode (lens : List Nat) :
    ((canonicalCode lens).map fun e => 2 ^ (15 - e.len)).sum = kraftSum lens := by
  rw [kraftSum, ← assignCodes_lengths 0 ((List.range 16).map (firstCode lens)) lens, List.map_map]; rfl

theorem fixedLitLenLengths_getD (sym : Nat) : fixedLitLenLengths.getD sym 0 =
    if sym ≤ 143 then 8 else if sym ≤ 255 then 9 else if sym ≤ 279 then 7 else if sym ≤ 287 then 8 else 0 := by
  simp only [fixedLitLenLengths, List.getD_eq_getElem?_getD, List.getElem?_append, List.getElem?_replicate,
    List.length_append, List.length_replicate, apply_ite (Option.getD · 0), Option.getD_some, Option.getD_none]
  split_ifs <;> omega

/-- How many symbols below `sym` have the length 7, 8 or 9 (41_flate.md R201). -/
theorem fixedLitLenLengths_count (sym : Nat) :
    (fixedLitLenLengths.take sym).count 7 = min (sym - 256) 24 ∧
    (fixedLitLenLengths.take sym).count 8 = min sym 144 + min (sym - 280) 8 ∧
    (fixedLitLenLengths.take sym).count 9 = min (sym - 144) 112 := by
  simp only [fixedLitLenLengths, List.take_append, List.take_replicate, List.count_append, List.count_replicate,
    List.length_append, List.length_replicate, Nat.reduceBEq, Nat.reduceAdd, Bool.false_eq_true, if_true, if_false]
  omega

theorem fixedLitLenLengths_le : ∀ l ∈ fixedLitLenLengths, l ≤ 15 := by
  simp only [fixedLitLenLengths, List.mem_append, List.mem_replicate]
  omega

theorem count_fixedLitLenLengths (l : Nat) :
    fixedLitLenLengths.count l = if l = 7 then 24 else if l = 8 then 152 else if l = 9 then 112 else 0 := by
  simp only [fixedLitLenLengths, List.count_append, List.count_replicate, beq_iff_eq, eq_comm (b := l)]
  split_ifs <;> omega

theorem kraftSum_fixedLitLenLengths : kraftSum fixedLitLenLengths = 2 ^ 15 := by
  rw [← firstCode_kraftSum _ fixedLitLenLengths_le]
  simp [firstCode, codeCount, count_fixedLitLenLengths]

theorem fixedLitLenLengths_firstCode : firstCode fixedLitLenLengths 7 = 0 ∧ firstCode fixedLitLenLengths 8 = 0x30 ∧
    firstCode fixedLitLenLengths 9 = 0x190 := by
  simp [firstCode, codeCount, count_fixedLitLenLengths]

theorem codeWord_fixedLitLen (sym : Nat) : codeWord fixedLitLen sym =
    if sym ≤ 143 then some { sym := sym, len := 8, code := 0x30 + sym }
    else if sym ≤ 255 then some { sym := sym, len := 9, code := 0x190 + (sym - 144) }
    else if sym ≤ 279 then some { sym := sym, len := 7, code := sym - 256 }
    else if sym ≤ 287 then some { sym := sym, len := 8, code := 0xC0 + (sym - 280) } else none := by
  obtain ⟨hfirst7, hfirst8, hfirst9⟩ := fixedLitLenLengths_firstCode
  obtain ⟨hcount7, hcount8, hcount9⟩ := fixedLitLenLengths_count sym
  have hlen := fixedLitLenLengths_getD sym
  have hword := @codeWord_canonicalCode_some _ fixedLitLenLengths_le sym
  split_ifs at hlen ⊢
  · exact hword hlen (by decide) (by rw [hfirst8, hcount8]; omega)
  · exact hword hlen (by decide) (by rw [hfirst9, hcount9]; omega)
  · exact hword hlen (by decide) (by rw [hfirst7, hcount7]; omega)
  · exact hword hlen (by decide) (by rw [hfirst8, hcount8]; omega)
  · rw [fixedLitLen, codeWord_canonicalCode fixedLitLenLengths_le, if_pos hlen]

theorem codeWord_fixedDist (sym : Nat) :
    codeWord fixedDist sym = if sym ≤ 31 then some { sym := sym, len := 5, code := sym } else none := by
  have hlen : (List.replicate 32 5).getD sym 0 = if sym ≤ 31 then 5 else 0 := by
    simp only [List.getD_eq_getElem?_getD, List.getElem?_replicate, ← Nat.lt_succ_iff, apply_ite (Option.getD · 0),
      Option.getD_some, Option.getD_none]
  have hfirst : firstCode (List.replicate 32 5) 5 = 0 := by decide
  have hle : ∀ l ∈ List.replicate 32 5, l ≤ 15 := by decide
  split_ifs at hlen ⊢
  · exact codeWord_canonicalCode_some hle hlen (by decide)
      (by rw [hfirst, List.take_replicate, List.count_replicate_self]; omega)
  · rw [fixedDist, codeWord_canonicalCode hle, if_pos hlen]

/-- Settles O50: the words of the two codes, and their Kraft sums. -/
theorem zlibFixedBlock : Obligations.ZlibFixedBlock := by
  refine ⟨fun s st bfinal hw hm => ?_, codeWord_fixedLitLen, codeWord_fixedDist, ?_, ?_⟩
  · exact onInflate_eq (fun st => some (st.fixed bfinal)) hw (congrArg InflateMode.atHeader hm)
  · rw [fixedLitLen, kraftSum_canonicalCode, kraftSum_fixedLitLenLengths]
  · rw [fixedDist, kraftSum_canonicalCode]; decide

/-! ## The header of a dynamic block -/

/-- A dynamic header is read exactly where all of it is there, in range, and its code-length code is accepted (41_flate.md
R202). -/
theorem dynamicHeader_eq_some_iff {h : DynamicHeader} : dynamicHeader inp pos = some h ↔
    ∃ l d c cl t, getBits inp pos 5 = some l ∧ getBits inp (pos + 5) 5 = some d ∧ getBits inp (pos + 10) 4 = some c ∧
      l + 257 ≤ 286 ∧ d + 1 ≤ 30 ∧
      readCodeLenLengths inp (pos + 14) (codeLenOrder.take (c + 4)) (List.replicate 19 0) = some cl ∧
      buildCode .codeLen cl = some t ∧
      h = { cl := t, hlit := l + 257, hdist := d + 1, pos := pos + 14 + 3 * (c + 4) } := by
  constructor
  · intro e
    unfold dynamicHeader at e
    split at e
    · next l d c hl hd hc =>
      simp only [Bool.or_eq_true, decide_eq_true_eq] at e
      split at e
      · cases e
      · next hrange =>
        split at e
        · next cl hcl =>
          obtain ⟨t, ht, rfl⟩ := Option.map_eq_some_iff.mp e
          exact ⟨l, d, c, cl, t, hl, hd, hc, by omega, by omega, hcl, ht, rfl⟩
        · cases e
    · cases e
  · rintro ⟨l, d, c, cl, t, hl, hd, hc, hlit, hdist, hcl, ht, rfl⟩
    have hrange : ¬((l + 257 > 286 || d + 1 > 30) = true) := by
      rw [Bool.or_eq_true, decide_eq_true_eq, decide_eq_true_eq]; omega
    simp only [dynamicHeader, hl, hd, hc, if_neg hrange, hcl, ht, Option.map_some]

theorem exec_zlibDynamic (hw : s.work = .inflate st) (hm : st.mode = .header) (bfinal : Bool) :
    exec (.zlibDynamic bfinal) s = .next (s.inflateNext ((dynamicHeader s.cur st.pos).map fun h =>
      { st with pos := h.pos, bfinal := bfinal, btype := 2, mode := .codeLens h.cl h.hlit h.hdist [] })) :=
  onInflate_eq (fun st => st.dynamic s.cur bfinal) hw (congrArg InflateMode.atHeader hm)

theorem codeLenOrder_getD_take {n j : Nat} (h : j < n) : (codeLenOrder.take n).getD j 0 = codeLenOrder.getD j 0 := by
  rw [List.getD_eq_getElem?_getD, List.getElem?_take, if_pos h, List.getD_eq_getElem?_getD]

/-- Every length has its place in ORDER; the ones that are not read come late in it (41_flate.md R202). -/
theorem codeLenOrder_unread {n i : Nat} (hi : i < 19) (h : i ∉ codeLenOrder.take n) :
    ∃ j < 19, n ≤ j ∧ codeLenOrder.getD j 0 = i := by
  have hplaces : ∀ i < 19, ∃ j < 19, codeLenOrder.getD j 0 = i := by decide
  obtain ⟨j, hj, rfl⟩ := hplaces i hi
  refine ⟨j, hj, Nat.le_of_not_lt fun hlt => h ?_, rfl⟩
  have hlen : j < (codeLenOrder.take n).length := by rw [List.length_take]; exact Nat.lt_min.mpr ⟨hlt, hj⟩
  rw [← codeLenOrder_getD_take hlt, List.getD_eq_getElem _ _ hlen]
  exact List.getElem_mem hlen

/-- The loop over ORDER reads the first `n` of its places and leaves zeros in the others. -/
theorem readCodeLenLengths_order {n : Nat} (hl : lens.length = 19)
    (h : ∀ j < 19, if j < n then getBits inp (pos + 3 * j) 3 = some (lens.getD (codeLenOrder.getD j 0) 0)
      else lens.getD (codeLenOrder.getD j 0) 0 = 0) :
    readCodeLenLengths inp pos (codeLenOrder.take n) (List.replicate 19 0) = some lens := by
  have hbound : ∀ o ∈ codeLenOrder, o < 19 := by decide
  refine readCodeLenLengths_eq inp _ pos _ lens ((List.take_sublist _ _).nodup (by decide)) hl.symm
    (fun o ho => hl ▸ hbound o (List.mem_of_mem_take ho)) (fun j hj => ?_) (fun i hi hunread => ?_)
  · obtain ⟨hn, h19⟩ : j < n ∧ j < 19 := Nat.lt_min.mp (by rwa [List.length_take] at hj)
    have hread := h j h19
    rw [if_pos hn] at hread
    rw [hread, codeLenOrder_getD_take hn]
  · obtain ⟨j, h19, hn, rfl⟩ := codeLenOrder_unread (hl ▸ hi) hunread
    have hzero := h j h19
    rw [if_neg (Nat.not_lt.mpr hn)] at hzero
    rw [hzero, List.getD_replicate _ (hl ▸ hi)]

theorem getBits_lt {n v : Nat} (h : getBits inp pos n = some v) : v < 2 ^ n := by
  unfold getBits at h
  simp only at h
  split at h
  · next hlen =>
    have hlt := natOfLsb_lt (windowLsb inp pos n)
    rw [hlen] at hlt
    cases h
    exact hlt
  · cases h

/-- Settles O51: a header that is read has passed every check, so that each failing one excludes it. -/
theorem zlibDynamicAndReserved : Obligations.ZlibDynamicAndReserved := by
  intro s st bfinal hw hm
  have hexec := exec_zlibDynamic hw hm bfinal
  have hbad : dynamicHeader s.cur st.pos = none → exec (.zlibDynamic bfinal) s = .next (s.inflateNext none) :=
    fun h => by rw [hexec, h]; rfl
  refine ⟨fun l d c lens t hl hd hc hlit hdist ⟨hlen, hplaces⟩ ht => ?_, fun hcut => hbad ?_, fun l hl hlit => hbad ?_,
    fun d hd hdist => hbad ?_, fun c hc => ⟨fun j hj hcut => hbad ?_, fun lens ⟨hlen, hplaces⟩ ht => hbad ?_⟩,
    onInflate_eq (fun _ => none) hw (congrArg InflateMode.atHeader hm)⟩
  · have hread := readCodeLenLengths_order hlen hplaces
    rw [hexec, dynamicHeader_eq_some_iff.mpr ⟨l, d, c, lens, t, hl, hd, hc, hlit, hdist, hread, ht, rfl⟩]
    rfl
  all_goals
    refine Option.eq_none_iff_forall_ne_some.mpr fun h hsome => ?_
    obtain ⟨l', d', c', cl, t, hl', hd', hc', hlit', hdist', hcl, ht', -⟩ := dynamicHeader_eq_some_iff.mp hsome
  · simp [hl', hd', hc'] at hcut
  · cases hl.symm.trans hl'; omega
  · cases hd.symm.trans hd'; omega
  · cases hc.symm.trans hc'
    have hlen : j < (codeLenOrder.take (c + 4)).length := by
      have := getBits_lt hc
      rw [List.length_take]; exact Nat.lt_min.mpr ⟨hj, by simp only [codeLenOrder, List.length_cons, List.length_nil]; omega⟩
    rw [readCodeLenLengths_none s.cur _ (st.pos + 14) _ j hlen hcut] at hcl
    cases hcl
  · cases hc.symm.trans hc'
    rw [readCodeLenLengths_order hlen hplaces] at hcl
    cases hcl
    rw [ht] at ht'
    cases ht'

end Sys2Proof.Machine
end

section
/-! SUPPORT. The symbols of inflate: literals and the end of a block (41_flate.md R207), lengths (R208), distances and their
copies (R209, R210), and the code-length sequence with the two codes it ends in (R203-R205; 30_encoding.md R123). -/

namespace Sys2Proof.Machine

variable {s : State} {st : InflateState} {inp : List Byte} {pos : Nat} {lens : List Nat}

/-! ## Literals and the end of a block -/

/-- Settles O52: both are one step of the unit, which no check can fail. -/
theorem defLiteralAndEndOfBlock : Obligations.DefLiteralAndEndOfBlock := fun _ _ hw hm =>
  ⟨fun b => onInflate_eq (fun st => some (st.emit [b])) hw (congrArg InflateMode.atSymbol hm),
    onInflate_eq (fun st => some st.endBlock) hw (congrArg InflateMode.atSymbol hm)⟩

/-! ## The tables of lengths and distances -/

/-- A table of bases and extra bits with the symbols it is about, from `first` on. -/
def symbolTable (first : Nat) (table : List (Nat × Nat)) : List (Nat × Nat × Nat) :=
  (table.zipIdx first).map fun row => (row.2, row.1)

theorem mem_symbolTable {first sym base extra : Nat} {table : List (Nat × Nat)} :
    (sym, base, extra) ∈ symbolTable first table ↔ first ≤ sym ∧ table[sym - first]? = some (base, extra) := by
  rw [← List.mk_mem_zipIdx_iff_le_and_getElem?_sub, symbolTable, List.mem_map]
  constructor
  · rintro ⟨⟨row, i⟩, hmem, heq⟩
    cases heq
    exact hmem
  · exact fun hmem => ⟨_, hmem, rfl⟩

/-! ## Lengths -/

theorem lengthOf_eq {sym base extra : Nat} (h : (sym, base, extra) ∈ symbolTable 257 lengthTable) :
    lengthOf inp pos sym = (getBits inp pos extra).map fun x => (base + x, pos + extra) := by
  obtain ⟨hle, hrow⟩ := mem_symbolTable.mp h
  simp only [lengthOf, if_neg (Nat.not_lt.mpr hle), hrow]

theorem exec_defLength (hw : s.work = .inflate st) (hm : st.mode = .symbols) (sym : Nat) : exec (.defLength sym) s =
    .next (s.inflateNext ((lengthOf s.cur st.pos sym).map fun r => { st with pos := r.2, mode := .distance r.1 })) :=
  onInflate_eq (fun st => st.lengthSymbol s.cur sym) hw (congrArg InflateMode.atSymbol hm)

/-- Settles O53: the rule's table is the model's, with its symbols. -/
theorem defLengths : Obligations.DefLengths := by
  intro s st hw hm
  refine ⟨fun sym base extra hmem => ?_, fun sym => onInflate_eq (fun _ => none) hw (congrArg InflateMode.atSymbol hm)⟩
  have hexec := exec_defLength hw hm sym
  rw [lengthOf_eq (base := base) (extra := extra) hmem] at hexec
  refine ⟨fun x hx => ?_, fun hcut => ?_⟩
  · rw [hexec, hx]; rfl
  · rw [hexec, hcut]; rfl

/-! ## Distances and copies -/

theorem distanceOf_eq {dsym base extra : Nat} (h : (dsym, base, extra) ∈ symbolTable 0 distanceTable) :
    distanceOf inp pos dsym = (getBits inp pos extra).map fun x => (base + x, pos + extra) := by
  obtain ⟨-, hrow⟩ := mem_symbolTable.mp h
  rw [Nat.sub_zero] at hrow
  simp only [distanceOf, hrow]

theorem copyBack_length (d n : Nat) (out : List Byte) : (copyBack d n out).length = out.length + n := by
  induction n generalizing out with
  | zero => rfl
  | succ n ih => rw [copyBack, ih, List.length_append, List.length_singleton, Nat.add_assoc, Nat.add_comm 1]

/-- A copy leaves what was there. -/
theorem copyBack_getElem? (d n : Nat) {out : List Byte} {i : Nat} (hi : i < out.length) :
    (copyBack d n out)[i]? = out[i]? := by
  rw [← copyBack_append, List.getElem?_append_left hi]

/-- Each byte of a copy is the byte `d` before it, of the copy itself where it overlaps (41_flate.md R210). -/
theorem copyBack_getElem?_back {d n : Nat} {out : List Byte} (hd : 1 ≤ d) (hle : d ≤ out.length) {t : Nat} (ht : t < n) :
    (copyBack d n out)[out.length + t]? = (copyBack d n out)[out.length + t - d]? := by
  induction n generalizing out t with
  | zero => exact absurd ht (Nat.not_lt_zero t)
  | succ n ih =>
    rw [copyBack]
    have hlen : (out ++ [out.getD (out.length - d) 0]).length = out.length + 1 := List.length_append
    cases t with
    | zero =>
      have hback : out.length - d < out.length := by omega
      rw [Nat.add_zero, copyBack_getElem? d n (by omega), copyBack_getElem? d n (by omega), List.getElem?_concat_length,
        List.getElem?_append_left hback, List.getD_eq_getElem _ _ hback, List.getElem?_eq_getElem hback]
    | succ t =>
      have hrest := ih (out := out ++ [out.getD (out.length - d) 0]) (by omega) (Nat.lt_of_succ_lt_succ ht)
      rwa [hlen, Nat.add_assoc, Nat.add_comm 1] at hrest

theorem exec_defDist {n : Nat} (hw : s.work = .inflate st) (hm : st.mode = .distance n) (dsym : Nat) :
    exec (.defDist dsym) s = .next (s.inflateNext ((distanceOf s.cur st.pos dsym).bind fun r =>
      if r.1 > st.out.length then none
      else some ({ st with pos := r.2, mode := .symbols }.emit ((copyBack r.1 n st.out).drop st.out.length)))) := by
  refine (onInflate_eq (fun st => st.distanceSymbol s.cur dsym) hw (congrArg InflateMode.atDistance hm)).trans ?_
  rw [InflateState.distanceSymbol, hm]
  cases distanceOf s.cur st.pos dsym <;> rfl

/-- Settles O54: the rule's table is the model's, and the copy appends what lies `d` back, byte by byte. -/
theorem defDistances : Obligations.DefDistances := by
  intro s st n hw hm
  refine ⟨fun dsym base extra hmem => ?_, fun dsym => onInflate_eq (fun _ => none) hw (congrArg InflateMode.atDistance hm)⟩
  have hbase : ∀ row ∈ symbolTable 0 distanceTable, 1 ≤ row.2.1 := by decide
  have hpos : 1 ≤ base := hbase (dsym, base, extra) hmem
  have hexec := exec_defDist hw hm dsym
  rw [distanceOf_eq (base := base) (extra := extra) hmem] at hexec
  refine ⟨fun x hx => ⟨fun hle => ?_, fun hlt => ?_⟩, fun hcut => ?_⟩
  · rw [hx, Option.map_some, Option.bind_some, if_neg (Nat.not_lt.mpr hle)] at hexec
    refine ⟨_, ?_, fun t ht => ?_, hexec⟩
    · rw [List.length_drop, copyBack_length, Nat.add_sub_cancel_left]
    · rw [copyBack_append]
      exact copyBack_getElem?_back (Nat.le_add_right_of_le hpos) hle ht
  · rw [hexec, hx, Option.map_some, Option.bind_some, if_pos hlt]; rfl
  · rw [hexec, hcut]; rfl

/-! ## The code-length sequence -/

/-- Lengths are appended as long as they do not run over the total (41_flate.md R204). -/
theorem lengths_eq {cl : PrefixCode} {hlit hdist : Nat} (hm : st.mode = .codeLens cl hlit hdist lens)
    (new : List Nat → List Nat) : st.lengths new = if (lens ++ new lens).length ≤ hlit + hdist then
      some { st with mode := .codeLens cl hlit hdist (lens ++ new lens) } else none := by
  rw [InflateState.lengths, hm]
  simp only [appendLengths, gt_iff_lt, ← Nat.not_le]
  split_ifs <;> rfl

theorem inflateNext_ite {p : Prop} [Decidable p] (st : InflateState) : s.inflateNext (if p then some st else none) =
    if p then { s with work := .inflate st } else { s with work := .finish (.err .inflateError (some s.k) 0) } := by
  split_ifs <;> rfl

section
variable {cl : PrefixCode} {hlit hdist base extra : Nat} {value : List Nat → Option Nat} (hw : s.work = .inflate st)
  (hm : st.mode = .codeLens cl hlit hdist lens)
include hw hm

/-- A repeat with its extra bits appends one length that many times (41_flate.md R204). -/
theorem onInflate_repeatLength {v x : Nat} (hv : value lens = some v) (hx : getBits s.cur st.pos extra = some x) :
    s.onInflate InflateMode.atCodeLens (fun st => st.repeatLength s.cur base extra value) =
      .next (if (lens ++ List.replicate (base + x) v).length ≤ hlit + hdist then
        { s with work := .inflate { st with
            pos := st.pos + extra, mode := .codeLens cl hlit hdist (lens ++ List.replicate (base + x) v) } }
      else { s with work := .finish (.err .inflateError (some s.k) 0) }) := by
  have hstep : st.repeatLength s.cur base extra value =
      { st with pos := st.pos + extra }.lengths fun _ => List.replicate (base + x) v := by
    simp only [InflateState.repeatLength, hm, hv, hx]
  rw [onInflate_eq _ hw (congrArg InflateMode.atCodeLens hm), hstep,
    lengths_eq (st := { st with pos := st.pos + extra }) hm, inflateNext_ite]

/-- A repeat with nothing to repeat, or without its extra bits (41_flate.md R204, R214). -/
theorem onInflate_repeatLength_none (h : value lens = none ∨ getBits s.cur st.pos extra = none) :
    s.onInflate InflateMode.atCodeLens (fun st => st.repeatLength s.cur base extra value) =
      .next { s with work := .finish (.err .inflateError (some s.k) 0) } := by
  have hstep : st.repeatLength s.cur base extra value = none := by
    simp only [InflateState.repeatLength, hm]
    rcases h with h | h <;> rw [h]
    cases value lens <;> rfl
  rw [onInflate_eq _ hw (congrArg InflateMode.atCodeLens hm), hstep, inflateNext_none]

end

/-- Settles O55: a code length, and the three repeats with and without their bits. -/
theorem defCodeLengths : Obligations.DefCodeLengths := by
  intro s st cl hlit hdist lens hw hm
  refine ⟨fun len => ?_, fun hnil => ?_, fun last x hlast hx => ?_, fun hcut => ?_, fun x hx => ?_, fun hcut => ?_,
    fun x hx => ?_, fun hcut => ?_⟩
  · refine (onInflate_eq (fun st => st.lengths fun _ => [len]) hw (congrArg InflateMode.atCodeLens hm)).trans ?_
    rw [lengths_eq hm, inflateNext_ite]
  · exact onInflate_repeatLength_none (value := fun lens => lens.getLast?) hw hm (.inl (by rw [hnil]; rfl))
  · exact onInflate_repeatLength (value := fun lens => lens.getLast?) hw hm hlast hx
  · exact onInflate_repeatLength_none hw hm (.inr hcut)
  · exact onInflate_repeatLength (value := fun _ => some 0) hw hm rfl hx
  · exact onInflate_repeatLength_none hw hm (.inr hcut)
  · exact onInflate_repeatLength (value := fun _ => some 0) hw hm rfl hx
  · exact onInflate_repeatLength_none hw hm (.inr hcut)

/-! ## build_code -/

theorem acceptsCode_of_complete (kind : CodeKind) (h : kraftSum lens = 2 ^ 15) : acceptsCode kind lens = true := by
  unfold acceptsCode
  exact if_pos h

theorem acceptsCode_of_oversubscribed (kind : CodeKind) (h : 2 ^ 15 < kraftSum lens) : acceptsCode kind lens = false := by
  unfold acceptsCode
  rw [if_neg h.ne', if_pos h]

/-- The two incomplete codes that are accepted (41_flate.md R203). -/
theorem acceptsCode_of_incomplete (kind : CodeKind) (h : kraftSum lens < 2 ^ 15) : acceptsCode kind lens = true ↔
    ((kind = .litLen ∨ kind = .dist) ∧ lens.filter (· ≠ 0) = [1]) ∨ (kind = .dist ∧ lens.filter (· ≠ 0) = []) := by
  unfold acceptsCode
  rw [if_neg h.ne, if_neg (Nat.lt_asymm h)]
  cases kind <;> simp

theorem buildCode_eq_some_iff {kind : CodeKind} {t : PrefixCode} :
    buildCode kind lens = some t ↔ acceptsCode kind lens = true ∧ canonicalCode lens = t := by
  rw [buildCode]
  split_ifs with h <;> simp [h]

theorem exists_buildCode_iff {kind : CodeKind} : (∃ t, buildCode kind lens = some t) ↔ acceptsCode kind lens = true := by
  simp only [buildCode_eq_some_iff, exists_and_left, exists_eq', and_true]

theorem kraftSum_le_of_acceptsCode {kind : CodeKind} (h : acceptsCode kind lens = true) : kraftSum lens ≤ 2 ^ 15 := by
  refine Nat.le_of_not_lt fun hgt => ?_
  rw [acceptsCode_of_oversubscribed kind hgt] at h
  cases h

/-! ## No code word begins with another -/

theorem codeCount_eq {b : Nat} (hb : b ≠ 0) (lens : List Nat) : codeCount lens b = lens.count b := if_neg hb

/-- A code word lies below the end of the codes of its length. -/
theorem canonicalCode_code_lt (h : ∀ l ∈ lens, l ≤ 15) {e : CodeEntry} (he : e ∈ canonicalCode lens) :
    e.code < firstCode lens e.len + codeCount lens e.len := by
  obtain ⟨hsym, hlen, hne, hcode⟩ := canonicalCode_entry h he
  have hcount := count_take_lt hsym lens.length hsym
  rw [List.take_length, ← hlen] at hcount
  rw [hcode, codeCount_eq hne]
  exact Nat.add_lt_add_left hcount _

/-- Where the code is not over-subscribed, the codes of each length fit that many bits. -/
theorem firstCode_add_codeCount_le (h : ∀ l ∈ lens, l ≤ 15) (hk : kraftSum lens ≤ 2 ^ 15) {b : Nat} (hb : b ≤ 15) :
    firstCode lens b + codeCount lens b ≤ 2 ^ b := by
  have hscaled : (firstCode lens b + codeCount lens b) * 2 ^ (15 - b) ≤ 2 ^ b * 2 ^ (15 - b) := by
    rw [← Nat.pow_add, Nat.add_sub_cancel' hb]
    rcases hb.lt_or_eq with hlt | rfl
    · have hstep := firstCode_step lens hlt
      have hsum := firstCode_kraftSum lens h
      omega
    · rwa [firstCode_kraftSum lens h, Nat.sub_self, Nat.pow_zero, Nat.mul_one]
  exact Nat.le_of_mul_le_mul_right hscaled (Nat.two_pow_pos _)

/-- No code word begins with another one that is not longer (30_encoding.md R123). -/
theorem canonicalCode_not_begins_with (h : ∀ l ∈ lens, l ≤ 15) {e f : CodeEntry} (he : e ∈ canonicalCode lens)
    (hf : f ∈ canonicalCode lens) (hne : e.sym ≠ f.sym) (hle : e.len ≤ f.len) :
    f.code / 2 ^ (f.len - e.len) ≠ e.code := by
  obtain ⟨hesym, helen, -, hecode⟩ := canonicalCode_entry h he
  obtain ⟨hfsym, hflen, -, hfcode⟩ := canonicalCode_entry h hf
  rcases hle.lt_or_eq with hlt | heq
  · have hend : e.code + 1 ≤ firstCode lens e.len + codeCount lens e.len := canonicalCode_code_lt h he
    have hbelow : (e.code + 1) * 2 ^ (f.len - e.len) ≤ f.code :=
      calc (e.code + 1) * 2 ^ (f.len - e.len)
          ≤ (firstCode lens e.len + codeCount lens e.len) * 2 ^ (f.len - e.len) := Nat.mul_le_mul_right _ hend
        _ ≤ firstCode lens f.len := firstCode_step lens hlt
        _ ≤ f.code := hfcode ▸ Nat.le_add_right _ _
    exact (Nat.lt_of_succ_le ((Nat.le_div_iff_mul_le (Nat.two_pow_pos _)).mpr hbelow)).ne'
  · rw [heq, Nat.sub_self, Nat.pow_zero, Nat.div_one, hfcode, hecode, heq]
    rcases Nat.lt_or_gt_of_ne hne with hlt | hgt
    · have hcount := count_take_lt hesym f.sym hlt
      rw [← helen, heq] at hcount
      omega
    · have hcount := count_take_lt hfsym e.sym hgt
      rw [← hflen] at hcount
      omega

theorem prefixFree_canonicalCode (h : ∀ l ∈ lens, l ≤ 15) (hk : kraftSum lens ≤ 2 ^ 15) :
    prefixFree (canonicalCode lens) := by
  refine ⟨fun e he => ?_, ?_⟩
  · obtain ⟨hsym, hlen, hne, -⟩ := canonicalCode_entry h he
    have h15 : e.len ≤ 15 := hlen ▸ h _ (List.getElem_mem hsym)
    exact ⟨Nat.pos_of_ne_zero hne, h15, (canonicalCode_code_lt h he).trans_le (firstCode_add_codeCount_le h hk h15)⟩
  · refine (assignCodes_sorted lens 0 _).imp_of_mem fun he hf hlt => ?_
    exact ⟨hlt.ne, canonicalCode_not_begins_with h he hf hlt.ne, canonicalCode_not_begins_with h hf he hlt.ne'⟩

/-! ## The end of the code-length sequence -/

/-- The two codes of a dynamic block, once its sequence is complete (41_flate.md R202, R205). -/
theorem coreTurn_dynamicCodes {cl : PrefixCode} {hlit hdist : Nat} (hw : s.work = .inflate st)
    (hm : st.mode = .codeLens cl hlit hdist lens) (hl : lens.length = hlit + hdist) :
    coreTurn s = .next (s.inflateNext ((dynamicCodes hlit hdist lens).map fun c =>
      { st with litLen := c.1, dist := c.2, mode := .symbols })) := by
  rw [coreTurn_inflate_codes hw hm hl.ge, InflateState.buildCodes, hm]

theorem dynamicCodes_eq {hlit hdist : Nat} (hl : lens.length = hlit + hdist) : dynamicCodes hlit hdist lens =
    if lens.getD 256 0 = 0 then none else
      (buildCode .litLen (lens.take hlit)).bind fun ll => (buildCode .dist (lens.drop hlit)).map fun d => (ll, d) := by
  have hdrop : (lens.drop hlit).take hdist = lens.drop hlit := List.take_of_length_le (by rw [List.length_drop]; omega)
  rw [dynamicCodes, hdrop]
  cases buildCode .litLen (lens.take hlit) <;> cases buildCode .dist (lens.drop hlit) <;> rfl

/-- Settles O56: acceptance by the Kraft sum, the words of the canonical code, and the turn that builds a block's codes. -/
theorem builtCodesArePrefixFree : Obligations.BuiltCodesArePrefixFree := by
  refine ⟨fun kind lens h => ⟨fun hgt => ?_, fun heq => ?_, fun hlt => ?_, fun t ht => ?_⟩, ?_⟩
  · rw [buildCode, acceptsCode_of_oversubscribed kind hgt]; rfl
  · exact exists_buildCode_iff.mpr (acceptsCode_of_complete kind heq)
  · exact exists_buildCode_iff.trans (acceptsCode_of_incomplete kind hlt)
  · obtain ⟨hacc, rfl⟩ := buildCode_eq_some_iff.mp ht
    refine ⟨prefixFree_canonicalCode h (kraftSum_le_of_acceptsCode hacc), fun sym => ?_⟩
    rw [codeWord_canonicalCode h, firstCode_eq]
  · intro s st cl hlit hdist lens hw hm hl
    rw [coreTurn_dynamicCodes hw hm hl, dynamicCodes_eq hl]
    refine ⟨fun heob => ?_, fun hrefused => ?_, fun ll d heob hll hd => ?_⟩
    · rw [if_pos heob]; rfl
    · have hnone : ((buildCode .litLen (lens.take hlit)).bind fun ll =>
          (buildCode .dist (lens.drop hlit)).map fun d => (ll, d)) = none := by
        rcases hrefused with hll | hd
        · rw [hll]; rfl
        · rw [hd]; exact Option.bind_fun_none _
      rw [hnone, ite_self]; rfl
    · rw [if_neg heob, hll, hd]; rfl

end Sys2Proof.Machine
end

section
/-! SUPPORT. LZW, code by code (42_lzw.md R260-R270): the bits that make a code, the class that the decoder gives it, and what the
insertion of an entry changes. -/

namespace Sys2Proof.Machine

variable {s : State} {st : LzwState}

/-! ## The bits of a code -/

theorem testBit_natOfMsb (bs : List Bool) {j : Nat} (h : j < bs.length) :
    some ((natOfMsb bs).testBit (bs.length - 1 - j)) = bs[j]? := by
  rw [natOfMsb, testBit_natOfLsb, List.getD_eq_getElem?_getD, List.getElem?_reverse (by omega),
    show bs.length - 1 - (bs.length - 1 - j) = j by omega, List.getElem?_eq_getElem h, Option.getD_some]

/-- The bits of an MSB-first window are those of the input from its start on (00_scope.md R13). -/
theorem windowMsb_getElem? (bs : List Byte) (pos : Nat) {n j : Nat} (h : j < (windowMsb bs pos n).length) :
    (windowMsb bs pos n)[j]? = bitMsb bs (pos + j) := by
  induction n generalizing pos j with
  | zero => cases h
  | succ n ih =>
    rw [windowMsb] at h ⊢
    cases hb : bitMsb bs pos with
    | none => rw [hb] at h; cases h
    | some b =>
      rw [hb] at h
      cases j with
      | zero => exact hb.symm
      | succ j => rw [List.getElem?_cons_succ, ih _ (Nat.lt_of_succ_lt_succ h), Nat.add_right_comm, Nat.add_assoc]

/-- Settles O39: the code is the number of the window that the turn reads. -/
theorem lzwReadsCode : Obligations.LzwReadsCode := by
  rintro s st hw ⟨-, -, hwidth, -⟩
  refine ⟨coreTurn_lzw_truncated hw (by omega), fun hfit => ?_⟩
  have hlen : (windowMsb s.cur st.pos st.w).length = st.w := by rw [windowMsb_length]; omega
  refine ⟨natOfMsb (windowMsb s.cur st.pos st.w), ?_, fun j hj => ?_, coreTurn_lzw_code hw hfit⟩
  · simpa only [hlen] using natOfMsb_lt (windowMsb s.cur st.pos st.w)
  · have hj' : j < (windowMsb s.cur st.pos st.w).length := hlen.symm ▸ hj
    have hbit := testBit_natOfMsb _ hj'
    rwa [hlen, windowMsb_getElem? _ _ hj'] at hbit

/-! ## The class of a code (30_encoding.md R117) -/

theorem decodeLzwCode_literal (dl : Nat) (afterClear : Bool) {code : Nat} (h : code < 256) :
    decodeLzwCode dl afterClear code = .lzwLiteral (BitVec.ofNat 8 code) := if_pos h

theorem decodeLzwCode_of_dl_le {dl code : Nat} (hdl : 258 ≤ dl) (h : dl ≤ code) (afterClear : Bool) :
    decodeLzwCode dl afterClear code =
      if code = dl && !afterClear then .lzwSelf (BitVec.ofNat 12 code) else .lzwInvalid (BitVec.ofNat 12 code) := by
  rw [decodeLzwCode, if_neg (by omega), if_neg (by omega), if_neg (by omega), if_neg (by omega)]

/-! ## The meanings of the codes -/

/-- A literal and a dictionary code are codes with an entry (42_lzw.md R267). -/
theorem exec_lzwKnown (hw : s.work = .lzw st) {i : Instr} {code : BitVec 12}
    (hi : i = .lzwDict code ∨ ∃ b : Byte, i = .lzwLiteral b ∧ code = b.setWidth 12) :
    exec i s = .next (s.settle .lzw (st.known code)) := by
  rcases hi with rfl | ⟨b, rfl, rfl⟩
  · exact onLzw_eq (fun st => st.known code) hw
  · exact onLzw_eq (fun st => st.known (b.setWidth 12)) hw

theorem exec_lzwSelf (hw : s.work = .lzw st) (code : BitVec 12) :
    exec (.lzwSelf code) s = .next (s.settle .lzw (st.selfReference code)) :=
  onLzw_eq (fun st => st.selfReference code) hw

theorem exec_lzwInvalid (hw : s.work = .lzw st) (code : BitVec 12) : exec (.lzwInvalid code) s =
    .next { s with work := .finish (.err .invalidLzwCode (some s.k) (code.setWidth 32)) } :=
  onLzw_eq (fun _ => .fail .invalidLzwCode (code.setWidth 32)) hw

theorem LzwState.known_first (h : st.previous = none) (code : BitVec 12) :
    st.known code = .more { st with out := st.out ++ st.entry code.toNat, previous := some code } := by
  rw [LzwState.known, h]

theorem LzwState.known_next {p : BitVec 12} (h : st.previous = some p) (code : BitVec 12) : st.known code =
    ({ st with out := st.out ++ st.entry code.toNat } : LzwState).insert
      (st.entry p.toNat ++ (st.entry code.toNat).take 1) code := by
  rw [LzwState.known, h]

theorem LzwState.selfReference_next {p : BitVec 12} (h : st.previous = some p) (code : BitVec 12) : st.selfReference code =
    ({ st with out := st.out ++ (st.entry p.toNat ++ (st.entry p.toNat).take 1) } : LzwState).insert
      (st.entry p.toNat ++ (st.entry p.toNat).take 1) code := by
  rw [LzwState.selfReference, h]

/-! ## The insertion of an entry (42_lzw.md R269) -/

/-- With a place left, the entry is at it, and every other entry is as before. -/
theorem LzwState.insert_of_lt (hdict : st.dl ≤ st.dict.length) (h : st.dl < 4096) (out entry : List Byte) (code : BitVec 12) :
    ∃ st', ({ st with out := out } : LzwState).insert entry code = .more st' ∧ st'.out = out ∧
      st.Inserted entry code st' := by
  refine ⟨_, if_neg h.ne, rfl, ?_, fun c hc => ?_, rfl, rfl, rfl, rfl⟩
  · exact (entry_assign st hdict entry st.dl _ _ out _ _).trans (if_pos rfl)
  · exact (entry_assign st hdict entry c _ _ out _ _).trans (if_neg hc)

section
variable {i : Instr} {out entry : List Byte} {code : BitVec 12}
  (hexec : exec i s = .next (s.settle .lzw (({ st with out := out } : LzwState).insert entry code)))
include hexec

theorem exec_insert_of_lt (hdict : st.dl ≤ st.dict.length) (h : st.dl < 4096) :
    ∃ st', exec i s = .next { s with work := .lzw st' } ∧ st'.out = out ∧ st.Inserted entry code st' := by
  obtain ⟨st', hinsert, hafter⟩ := LzwState.insert_of_lt hdict h out entry code
  exact ⟨st', by rw [hexec, hinsert, settle_more], hafter⟩

theorem exec_insert_full (h : st.dl = 4096) :
    exec i s = .next { s with work := .finish (.err .lzwDictFull (some s.k) 0) } := by
  rw [hexec, LzwState.insert, if_pos h, settle_fail]

end

/-- Settles O40: without a code before it, a byte inserts nothing, and already the code equal to `dict_length` is invalid. -/
theorem lzwFirstCode : Obligations.LzwFirstCode := by
  rintro s st hw ⟨-, -, -, -, -, -, -, hbytes, -, -, hclear⟩ hprev
  obtain ⟨hdl, -⟩ := hclear hprev
  refine ⟨hdl, fun code => ⟨decodeLzwCode_literal _ _, fun h => ?_⟩, fun b => ?_, exec_lzwInvalid hw⟩
  · rw [decodeLzwCode_of_dl_le hdl.ge (hdl.trans_le h), Bool.not_true, Bool.and_false]; rfl
  · have hentry : st.entry (b.setWidth 12).toNat = [b] := by
      rw [BitVec.toNat_setWidth_of_le (by decide), hbytes _ b.isLt, BitVec.ofNat_toNat, BitVec.setWidth_eq]
    rw [exec_lzwKnown hw (.inr ⟨b, rfl, rfl⟩), LzwState.known_first hprev, hentry, settle_more]

/-- Settles O41: a code with an entry, after another code, is an insertion. -/
theorem lzwKnownCode : Obligations.LzwKnownCode := by
  rintro s st i code p hw ⟨-, -, -, -, -, hdict, -⟩ hprev hi _ _ _
  have hexec := exec_lzwKnown hw hi
  rw [LzwState.known_next hprev] at hexec
  exact ⟨exec_insert_of_lt hexec hdict, exec_insert_full hexec⟩

/-- Settles O42: the code that equals `dict_length` is an insertion, for which 12 bits leave a place; a larger one is invalid. -/
theorem lzwSelfReference : Obligations.LzwSelfReference := by
  rintro s st p hw ⟨hdl, -, -, -, -, hdict, -⟩ hprev
  refine ⟨fun code hcode => ⟨?_, ?_⟩, fun code hcode => ⟨?_, exec_lzwInvalid hw code⟩⟩
  · rw [decodeLzwCode_of_dl_le hdl hcode.ge, if_pos (by simp [hcode]), BitVec.ofNat_toNat, BitVec.setWidth_eq]
  · have hexec := exec_lzwSelf hw code
    rw [LzwState.selfReference_next hprev] at hexec
    exact exec_insert_of_lt hexec hdict (hcode ▸ code.isLt)
  · rw [decodeLzwCode_of_dl_le hdl hcode.le, if_neg (by simp [hcode.ne']), BitVec.ofNat_toNat, BitVec.setWidth_eq]

/-- Settles O43: STOP is the end of the stage, and CLEAR keeps the dictionary. -/
theorem lzwStopAndClear : Obligations.LzwStopAndClear := by
  intro s st hw
  have hstop : exec .lzwStop s = .next (s.endStage st.out) := onLzw_eq (fun st => .done st.out) hw
  refine ⟨fun hfit => ?_, fun hbig => ?_, ?_⟩
  · rw [hstop, endStage_of_le hfit]
  · rw [hstop, endStage_of_lt hbig]
  · exact onLzw_eq (fun st => .more { st with dl := 258, w := 9, previous := none }) hw

end Sys2Proof.Machine
end

section
/-! SUPPORT. ASCII85, character by character (43_ascii85.md R302-R308): what the instructions of the unit do, the number of five
digits and its bytes, and the last group. -/

namespace Sys2Proof.Machine

variable {s : State} {st : A85State}

/-! ## Whitespace (43_ascii85.md R303) -/

theorem find?_isWhitespace_eq_none {t : List Byte} (h : ∀ b ∈ t, isWhitespace b = false) : t.find? isWhitespace = none :=
  List.find?_eq_none.mpr fun b hb => Bool.eq_false_iff.mp (h b hb)

theorem find?_isWhitespace_first {before after : List Byte} {c : Byte} (hc : isWhitespace c = true)
    (h : ∀ b ∈ before, isWhitespace b = false) : (before ++ c :: after).find? isWhitespace = some c := by
  rw [List.find?_append, find?_isWhitespace_eq_none h, Option.none_or, List.find?_cons_of_pos hc]

theorem dropWhitespace_first {before after : List Byte} {c : Byte} (hc : isWhitespace c = true)
    (h : ∀ b ∈ before, isWhitespace b = false) : dropWhitespace (before ++ c :: after) = before ++ after := by
  induction before with
  | nil => exact if_pos hc
  | cons b bs ih =>
    obtain ⟨hb, hbs⟩ := List.forall_mem_cons.mp h
    rw [List.cons_append, dropWhitespace, if_neg (Bool.eq_false_iff.mp hb), ih hbs, List.cons_append]

/-! ## The character at the index -/

theorem coreTurn_a85_noWhitespace (hw : s.work = .a85 st) (h : ∀ b ∈ st.t, isWhitespace b = false) {c : Byte}
    (hi : st.t[st.i]? = some c) :
    coreTurn s = exec (if st.i = 0 ∧ c = 0x3C ∧ st.t[st.i + 1]? = some 0x7E then .a85Begin
      else if c = 0x7E ∧ st.t[st.i + 1]? = some 0x3E then .a85End
      else if c = 0x7A ∧ st.group = [] then .a85Z
      else if 0x21 ≤ c.toNat ∧ c.toNat ≤ 0x75 then .a85Digit c else .a85Invalid c) s := by
  have hdigit : (isA85Digit c = true) = (0x21 ≤ c.toNat ∧ c.toNat ≤ 0x75) := by simp [isA85Digit]
  rw [coreTurn_a85_char hw (find?_isWhitespace_eq_none h) hi, decodeA85Char_eq _ _ (h c (List.mem_of_getElem? hi))]
  simp only [hdigit]

/-- Settles O44: whitespace before every other test, then the character at the index, class by class. -/
theorem a85Marks : Obligations.A85Marks := by
  intro s st hw
  refine ⟨onA85_eq (fun st => .more { st with i := 2 }) hw, fun before c after ht hc hbefore => ⟨?_, ?_⟩,
    onA85_eq (fun st => .more { st with i := st.i + 1, out := st.out ++ [0, 0, 0, 0] }) hw,
    fun c => onA85_eq (fun _ => .fail .invalidA85Char (c.setWidth 32)) hw, fun _ h hi => coreTurn_a85_noWhitespace hw h hi⟩
  · rw [← dropWhitespace_first hc hbefore, ← ht]
    exact onA85_eq (fun st => .more { st with t := dropWhitespace st.t }) hw
  · exact coreTurn_a85_ws hw (ht ▸ find?_isWhitespace_first hc hbefore)

/-! ## Five digits (43_ascii85.md R306) -/

theorem a85Value_five (d0 d1 d2 d3 d4 : Nat) :
    a85Value [d0, d1, d2, d3, d4] = d0 * 85 ^ 4 + d1 * 85 ^ 3 + d2 * 85 ^ 2 + d3 * 85 + d4 := by
  simp only [a85Value, List.foldl_cons, List.foldl_nil]
  ring

theorem a85Emit_of_le {g : List Nat} (h : 2 ^ 32 - 1 ≤ a85Value g) : a85Emit g = none := if_pos h

/-- Below the bound, the group's bytes are those of its value, most significant first. -/
theorem a85Emit_of_lt {g : List Nat} (h : a85Value g < 2 ^ 32 - 1) : ∃ b3 b2 b1 b0 : Byte,
    a85Value g = ((b3.toNat * 256 + b2.toNat) * 256 + b1.toNat) * 256 + b0.toNat ∧ a85Emit g = some [b3, b2, b1, b0] := by
  have hvalue : natOfBe32 (be32 (a85Value g)) = a85Value g := natOfBe32_be32 (by omega)
  simp only [natOfBe32, be32, List.foldl_cons, List.foldl_nil] at hvalue
  exact ⟨_, _, _, _, by omega, if_neg h.not_ge⟩

theorem A85State.digit_of_lt (h : st.group.length < 4) (c : Byte) :
    st.digit c = .more { st with i := st.i + 1, group := st.group ++ [c.toNat - 33] } :=
  if_neg (by rw [List.length_append, List.length_singleton]; omega)

section
variable {c : Byte} (h : st.group.length = 4)
include h

theorem A85State.digit_of_emit {bs : List Byte} (hemit : a85Emit (st.group ++ [c.toNat - 33]) = some bs) :
    st.digit c = .more { st with i := st.i + 1, group := [], out := st.out ++ bs } := by
  simp only [A85State.digit, List.length_append, h, List.length_singleton, hemit, if_true]

theorem A85State.digit_of_emit_none (hemit : a85Emit (st.group ++ [c.toNat - 33]) = none) :
    st.digit c = .fail .invalidA85Group 0 := by
  simp only [A85State.digit, List.length_append, h, List.length_singleton, hemit, if_true]

end

theorem exec_a85Digit (hw : s.work = .a85 st) (c : Byte) : exec (.a85Digit c) s = .next (s.settle .a85 (st.digit c)) :=
  onA85_eq (fun st => st.digit c) hw

/-- Settles O45: a digit is pending, or completes the group, whose value decides. -/
theorem a85Digits : Obligations.A85Digits := by
  intro s st c hw _ _
  rw [exec_a85Digit hw]
  refine ⟨fun hlen => by rw [A85State.digit_of_lt hlen, settle_more], fun d0 d1 d2 d3 hgroup => ?_⟩
  have hfour : st.group.length = 4 := congrArg List.length hgroup
  have hfive : st.group ++ [c.toNat - 33] = [d0, d1, d2, d3, c.toNat - 33] := by rw [hgroup]; rfl
  rw [← a85Value_five, ← hfive]
  refine ⟨fun hlt => ?_, fun hle => ?_⟩
  · obtain ⟨b3, b2, b1, b0, hvalue, hemit⟩ := a85Emit_of_lt hlt
    exact ⟨b3, b2, b1, b0, hvalue, by rw [A85State.digit_of_emit hfour hemit, settle_more]⟩
  · rw [A85State.digit_of_emit_none hfour (a85Emit_of_le hle), settle_fail]

/-! ## The end of the data (43_ascii85.md R307, R308) -/

theorem a85Final_of_one {g : List Nat} (h : g.length = 1) : a85Final g = none := by
  rw [a85Final, if_neg (by omega), if_pos h]

theorem a85Final_of_two_le {g : List Nat} (h : 2 ≤ g.length) : a85Final g =
    (a85Emit (g ++ List.replicate (5 - g.length) 84)).map fun bs => bs.take (g.length - 1) := by
  rw [a85Final, if_neg (by omega), if_neg (by omega)]

theorem endStage_eq (out : List Byte) : s.endStage out =
    if out.length ≤ s.params.outCap then { s with cur := out, k := s.k + 1, work := .stage }
    else { s with work := .finish (.err .capacityExceeded (some s.k) 0) } := by
  split_ifs with h
  · exact endStage_of_le h
  · exact endStage_of_lt (Nat.lt_of_not_ge h)

theorem exec_a85End_of_final (hw : s.work = .a85 st) {bs : List Byte} (h : a85Final st.group = some bs) :
    exec .a85End s = .next (s.endStage (st.out ++ bs)) :=
  (onA85_eq _ hw).trans (by simp only [h, settle_done])

theorem exec_a85End_of_final_none (hw : s.work = .a85 st) (h : a85Final st.group = none) :
    exec .a85End s = .next { s with work := .finish (.err .invalidA85Group (some s.k) 0) } :=
  (onA85_eq _ hw).trans (by simp only [h, settle_fail])

theorem coreTurn_a85_mark (hw : s.work = .a85 st) (h : ∀ b ∈ st.t, isWhitespace b = false) (h0 : st.t[st.i]? = some 0x7E)
    (h1 : st.t[st.i + 1]? = some 0x3E) : coreTurn s = exec .a85End s := by
  rw [coreTurn_a85_noWhitespace hw h h0, if_neg (by rintro ⟨-, hc, -⟩; cases hc), if_pos ⟨rfl, h1⟩]

/-- Settles O46: both terminators are A85_END, which ends the stage with the bytes of the last group, or fails for it. -/
theorem a85Termination : Obligations.A85Termination := by
  intro s st hw
  simp only [← endStage_eq]
  refine ⟨fun hws hend => ?_, fun hnil => exec_a85End_of_final hw (by rw [hnil]; rfl),
    fun hone => exec_a85End_of_final_none hw (a85Final_of_one hone), fun d0 d1 d2 d3 d4 htwo _ hpadded => ?_⟩
  · rcases hend with hpast | ⟨h0, h1⟩
    · exact coreTurn_a85_end hw (find?_isWhitespace_eq_none hws) hpast
    · exact coreTurn_a85_mark hw hws h0 h1
  · have hfinal := a85Final_of_two_le htwo
    rw [hpadded] at hfinal
    rw [← a85Value_five]
    refine ⟨fun hle => exec_a85End_of_final_none hw ?_, fun hlt => ?_⟩
    · rw [hfinal, a85Emit_of_le hle, Option.map_none]
    · obtain ⟨b3, b2, b1, b0, hvalue, hemit⟩ := a85Emit_of_lt hlt
      exact ⟨b3, b2, b1, b0, hvalue, exec_a85End_of_final hw (by rw [hfinal, hemit, Option.map_some])⟩

end Sys2Proof.Machine
end

section
/-! SUPPORT. ASCIIHex, character by character (44_asciihex.md R341-R345): the digits' values and the pair's byte, and what the
instructions of the unit do. -/

namespace Sys2Proof.Machine

variable {s : State} {st : AhxState}

/-! ## The digits (44_asciihex.md R342) -/

/-- The decoder's round trip, read at one character. -/
theorem decodeAhxChar_of_isHexDigit {c : Byte} (h : isHexDigit c = true) : decodeAhxChar c = .ahxDigit c := by
  have hdecode := Laws.Encoding.ahxDigit c .ahxChar [] h rfl ⟨nofun, nofun⟩
  rw [encode, decode_ahxChar] at hdecode
  exact congrArg Prod.fst (Except.ok.inj hdecode)

section
variable {c : Byte} {v : BitVec 4}
  (h : (c.toNat = 0x30 + v.toNat ∧ v.toNat ≤ 9) ∨ (c.toNat = 0x41 + (v.toNat - 10) ∧ 10 ≤ v.toNat) ∨
    (c.toNat = 0x61 + (v.toNat - 10) ∧ 10 ≤ v.toNat))
include h

theorem isHexDigit_of_range : isHexDigit c = true := by
  have := v.isLt
  simp only [isHexDigit, Bool.or_eq_true, Bool.and_eq_true, decide_eq_true_eq]
  omega

theorem hexValue_of_range : hexValue c = v := by
  have := v.isLt
  apply BitVec.eq_of_toNat_eq
  rw [hexValue]
  split_ifs <;> rw [BitVec.toNat_ofNat] <;> omega

end

/-- A pair's byte has the high nibble times 16 plus the low one as its number. -/
theorem append_nibble_eq_ofNat (high low : BitVec 4) : high ++ low = BitVec.ofNat 8 (16 * high.toNat + low.toNat) := by
  have := high.isLt
  have := low.isLt
  apply BitVec.eq_of_toNat_eq
  rw [BitVec.toNat_append, ← Nat.shiftLeft_add_eq_or_of_lt low.isLt, Nat.shiftLeft_eq, BitVec.toNat_ofNat]
  omega

theorem AhxState.digit_first (h : st.pend = none) (v : BitVec 4) : st.digit v = { st with pend := some v } := by
  rw [AhxState.digit, h]

theorem AhxState.digit_second {high : BitVec 4} (h : st.pend = some high) (v : BitVec 4) :
    st.digit v = { st with pend := none, out := st.out ++ [BitVec.ofNat 8 (16 * high.toNat + v.toNat)] } := by
  rw [AhxState.digit, h, ← append_nibble_eq_ofNat]

theorem exec_ahxDigit (hw : s.work = .ahx st) (c : Byte) :
    exec (.ahxDigit c) s = .next { s with work := .ahx (st.digit (hexValue c)) } :=
  onAhx_eq (fun st => .more (st.digit (hexValue c))) hw

/-- Settles O47: the class and the value of a digit, which is pending or completes a byte. -/
theorem ahxDigits : Obligations.AhxDigits := by
  intro s st c v hw hdigit
  rw [exec_ahxDigit hw, hexValue_of_range hdigit]
  refine ⟨decodeAhxChar_of_isHexDigit (isHexDigit_of_range hdigit), fun hfirst => ?_, fun high hsecond => ?_⟩
  · rw [AhxState.digit_first hfirst]
  · rw [AhxState.digit_second hsecond]

/-! ## The end of the data (44_asciihex.md R343, R345) -/

theorem exec_ahxEnd_of_pend_none (hw : s.work = .ahx st) (h : st.pend = none) : exec .ahxEnd s = .next (s.endStage st.out) :=
  (onAhx_eq _ hw).trans (by simp only [h, settle_done])

theorem exec_ahxEnd_of_pend_some (hw : s.work = .ahx st) {high : BitVec 4} (h : st.pend = some high) :
    exec .ahxEnd s = .next { s with work := .finish (.err .invalidHexDigitCount (some s.k) 0) } :=
  (onAhx_eq _ hw).trans (by simp only [h, settle_fail])

/-! ## Whitespace (44_asciihex.md R341) -/

/-- The turn has already moved the index (44_asciihex.md R341), and the instruction changes nothing more. -/
theorem exec_ahxWs (hw : s.work = .ahx st) (c : Byte) : exec (.ahxWs c) s = .next s :=
  (onAhx_eq UnitStep.more hw).trans (by rw [settle_more, ← hw])

/-- Settles O48: the class is the one of the decoder, the end is the end of the stage, and whitespace and other bytes are one
step of the unit. -/
theorem ahxOtherCharacters : Obligations.AhxOtherCharacters := by
  intro s st hw
  refine ⟨exec_ahxWs hw, coreTurn_ahx_end hw, fun c hc => coreTurn_ahx_char hw hc,
    fun hnone => ⟨fun hfit => ?_, fun hbig => ?_⟩, fun hpend => ?_,
    fun c => onAhx_eq (fun _ => .fail .invalidHexChar (c.setWidth 32)) hw⟩
  · rw [exec_ahxEnd_of_pend_none hw hnone, endStage_of_le hfit]
  · rw [exec_ahxEnd_of_pend_none hw hnone, endStage_of_lt hbig]
  · obtain ⟨high, hsome⟩ := Option.ne_none_iff_exists'.mp hpend
    exact exec_ahxEnd_of_pend_some hw hsome

end Sys2Proof.Machine
end

section
/-! SUPPORT. RC4 (45_rc4.md R360-R363): the keystream does not depend on the data, so the output is as long as the data and a
second pass undoes the first; and the command's checks and turns. -/

namespace Sys2Proof.Machine

variable {s : State}

/-! ## The keystream (45_rc4.md R362, R363) -/

theorem length_rc4Prga (perm : List Byte) (i j : BitVec 8) (data : List Byte) :
    (rc4Prga perm i j data).length = data.length := by
  induction data generalizing perm i j with
  | nil => rfl
  | cons x xs ih => rw [rc4Prga, List.length_cons, ih, List.length_cons]

/-- Both passes move the permutation and the indices alike, whatever the data, so they xor each byte with one and the same
keystream byte. -/
theorem rc4Prga_rc4Prga (perm : List Byte) (i j : BitVec 8) (data : List Byte) :
    rc4Prga perm i j (rc4Prga perm i j data) = data := by
  induction data generalizing perm i j with
  | nil => rfl
  | cons x xs ih => rw [rc4Prga, rc4Prga, ih, BitVec.xor_assoc, BitVec.xor_self, BitVec.xor_zero]

/-- Settles O58: both passes begin with the permutation of the same key schedule. -/
theorem rc4SelfInverse : Obligations.Rc4SelfInverse := fun _ data _ _ => rc4Prga_rc4Prga _ 0 0 data

/-! ## The command (45_rc4.md R360) -/

/-- The key schedule and the keystream from the start of the unit on. The output is as long as the data, so the capacity check
is one of the data's length. -/
theorem reaches_rc4Start (hi : s.inputs = []) (key data : List Byte) :
    Reaches (s.withWork (.rc4 (rc4Start key data))) (s.withWork (.finish (if data.length ≤ s.params.outCap
      then .ok (rc4Crypt key data) else .err .capacityExceeded none 0))) := by
  have hksa := reaches_rc4_ksa hi key data 256 0 identityPerm 0 rfl 0 0 (fun _ => ⟨rfl, rfl⟩) (fun h => absurd h (by decide))
  rw [← List.range_eq_range'] at hksa
  have hprga := reaches_rc4_prga hi key data data (rc4Ksa key identityPerm 0 (List.range 256)) 0 0 256 [] (Nat.le_refl _) rfl
  simp only [List.nil_append, length_rc4Prga, gt_iff_lt, ← Nat.not_le, ite_not] at hprga
  exact hksa.trans hprga

/-- Settles O30: the check of IN_LEN, that of KEY_LEN, and the unit's start on the bytes of the two buffers. -/
theorem rc4Command : Obligations.Rc4Command := by
  intro s hw
  have hexec : exec .rc4 s = .next (s.withInput _) := onCommand_eq _ hw
  refine ⟨fun hlong => ?_, fun hin hkey => ?_, fun hin hmin hmax => ?_⟩
  · rw [hexec, withInput_of_lt _ hlong]
  · have hbad : (s.keyLen.toNat < 1 || s.keyLen.toNat > 256) = true := by
      simp only [Bool.or_eq_true, decide_eq_true_eq]
      omega
    rw [hexec, withInput_of_le _ hin, if_pos hbad]
    rfl
  · have hgood : ¬(s.keyLen.toNat < 1 || s.keyLen.toNat > 256) = true := by
      simp only [Bool.or_eq_true, decide_eq_true_eq]
      omega
    rw [hexec, withInput_of_le _ hin, if_neg hgood]
    refine ⟨_, rfl, s.draw + 1, drawn_withWork s _, fun hi => ?_⟩
    have hrun := reaches_rc4Start (s := s.drawn) hi s.readKey s.readIn
    rwa [State.readIn, bytesAt_length] at hrun

end Sys2Proof.Machine
end

section
/-! SUPPORT. Bus errors and the return from a completion (60_exceptions.md R385, R391): an access is either accepted or leaves the
whole state alone; and while no command runs, nothing but a reset or a CMD write reaches the error record. -/

namespace Sys2Proof.Machine

variable {s t : State}

/-! ## Bus errors -/

theorem memRead_okay_or_refused (s : State) (off : Nat) (n : Width) :
    (∃ x, (s.memRead off n).2 = .okayRead x) ∨ s.memRead off n = (s, .busError) := by
  unfold State.memRead
  split_ifs
  · cases s.regRead off with
    | none => exact .inr rfl
    | some x => exact .inl ⟨x, rfl⟩
  · exact .inr rfl
  · exact .inl ⟨_, rfl⟩
  · exact .inr rfl

theorem memWrite_okay_or_refused (s : State) (off : Nat) (n : Width) (v : Word) :
    (s.memWrite off n v).2 = .okayWrite ∨ s.memWrite off n v = (s, .busError) := by
  unfold State.memWrite
  split_ifs
  · cases s.regWrite off v with
    | none => exact .inr rfl
    | some t => exact .inl rfl
  · exact .inr rfl
  · exact .inl rfl
  · exact .inr rfl

/-- Settles O13: an accepted access answers OKAY, and the other one returns the state it was given. -/
theorem busErrorsChangeNothing : Obligations.BusErrorsChangeNothing := by
  refine fun s off n v => ⟨fun h => ?_, fun h => ?_⟩
  · obtain ⟨x, hokay⟩ | hrefused := memRead_okay_or_refused s off n
    · exact Response.noConfusion (hokay.symm.trans h)
    · rw [hrefused]
  · obtain hokay | hrefused := memWrite_okay_or_refused s off n v
    · exact Response.noConfusion (hokay.symm.trans h)
    · rw [hrefused]

/-! ## The error record while no command runs -/

/-- ERR_CODE, ERR_STAGE and ERR_INFO are as before (60_exceptions.md R391). -/
def State.SameRecord (s t : State) : Prop := t.errCode = s.errCode ∧ t.errStage = s.errStage ∧ t.errInfo = s.errInfo

theorem State.SameRecord.refl (s : State) : s.SameRecord s := ⟨rfl, rfl, rfl⟩

/-- Of all registers and buffers only CMD reaches the error record. -/
theorem memWrite_sameRecord {off : Nat} (ho : off ≠ 0x028) (n : Width) (v : Word) : s.SameRecord (s.memWrite off n v).1 := by
  rcases memWrite_cases s off n v with h | ⟨-, h⟩ | ⟨-, h⟩ | ⟨-, ⟨hcmd, -⟩ | ⟨-, h⟩ | ⟨-, h⟩⟩
  · rw [h]; exact .refl s
  · rw [h]; exact .refl s
  · rw [h, acknowledge_eq]; exact .refl s
  · exact absurd hcmd ho
  · rw [h]; exact .refl s
  · rw [h]; exact .refl s

theorem access_sameRecord {a : Access} (ha : ∀ addr n v, a = .write addr n v → addr ≠ s.params.base + 0x028) :
    s.SameRecord (s.access a) := by
  rcases access_cases s a with h | ⟨_, off, n, -, -, -, h⟩ | ⟨addr, off, n, v, hwrite, haddr, -, h⟩ <;> rw [h]
  · exact .refl s
  · rw [memRead_state]; exact .refl s
  · have ho : off ≠ 0x028 := fun ho => ha addr n v hwrite (ho ▸ haddr)
    exact memWrite_sameRecord ho n v

theorem coreTurn_idle_sameRecord (hw : s.work = .none) (h : coreTurn s = .next t) : s.SameRecord t := by
  rw [coreTurn_idle hw] at h
  cases h
  exact .refl s

/-- Settles O20: the STATUS and CMD writes by their rules; and of the kinds of step, an idle Core's turn changes nothing, an access
keeps the record unless it writes CMD, and a reset is excluded. -/
theorem acknowledge : Obligations.Acknowledge := by
  refine ⟨fun s => ?_, fun s w hb => ?_, fun s t hg hb h hreset hcmd => ?_⟩
  · rw [memWrite_status, show (0x00000002 : Word).getLsbD 1 = true from rfl, Bool.not_true, Bool.and_false]
  · rw [memWrite_cmd hb]; rfl
  · have hidle := hg.work_eq_none hb
    rcases step_cases h with ⟨-, h⟩ | ⟨rest, -, h⟩ | ⟨a, rest, hin, rfl⟩ | ⟨rest, hin, -⟩
    · exact coreTurn_idle_sameRecord hidle h
    · exact coreTurn_idle_sameRecord (s := { s with inputs := rest }) hidle h
    · refine access_sameRecord (s := { s with inputs := rest }) fun addr n v ha => hcmd addr n v ?_
      rw [hin, ha, List.head?_cons]
    · exact absurd (congrArg List.head? hin) hreset

end Sys2Proof.Machine
end
